-- ==== Sys2Proof/Word.lean ====
section
/-! DEFINITION. The widths the spec gives its values (10_state.md R21, R39; 30_encoding.md R85). Every value is
unsigned (00_scope.md R9). -/

namespace Sys2Proof

/-- A wire byte, a pixel byte, a colour id, the `dat` operand. -/
abbrev Byte := BitVec 8

/-- The 16-bit payload length `hdr_len`. -/
abbrev Half := BitVec 16

/-- A CMD32 command word, and a word of the strip frame buffer. -/
abbrev Word := BitVec 32

/-- The 20-bit `idx` operand of CMD32 (R85). -/
abbrev Index := BitVec 20

end Sys2Proof
end

