-- ==== Sys2Proof/Syntax.lean ====
section
/-! DEFINITION. The agents of 10_state.md R20 and one constructor for each row of spec/opcode_table.json: the ten CMD32
operations (30_encoding.md R86), the six reserved operation codes (R88) and the ten wire byte classes (R75), which are
the instructions the decoder engine reads from the ring. -/

namespace Sys2Proof

/-- Who issues an operation (R20). -/
inductive Agent where
  | uart | dec | cons | host | enc | periph | platform
deriving DecidableEq, Repr

/-- The instructions of the block. An operand is `idx` (20 bits), `dat` (8 bits), the 28 bits below a reserved operation
code, or the wire byte itself. -/
inductive Instr where
  | rxByte (b : Byte)
  | decStep
  | pktRead (i : Index)
  | sigTake
  | pixWrite (i : Index) (v : Byte)
  | encByte (b : Byte)
  | encStart
  | encStep
  | fbRead (i : Index)
  | reset
  | reservedOp0 (rest : BitVec 28)
  | reservedOpA (rest : BitVec 28)
  | reservedOpB (rest : BitVec 28)
  | reservedOpC (rest : BitVec 28)
  | reservedOpD (rest : BitVec 28)
  | reservedOpE (rest : BitVec 28)
  | wMagicU (b : Byte)
  | wMagicA (b : Byte)
  | wMagicR (b : Byte)
  | wMagicT (b : Byte)
  | wMagicMiss (b : Byte)
  | wLenLo (b : Byte)
  | wLenHi (b : Byte)
  | wCrc (b : Byte)
  | wPayCopy (b : Byte)
  | wPayDrop (b : Byte)
deriving DecidableEq, Repr

end Sys2Proof
end

