-- ==== Sys2Proof/WellFormed.lean ====
section
/-! DEFINITION. Which instruction terms an encoding can hold. The operand types bound every operand of a CMD32 word; the
four magic classes admit one byte each (30_encoding.md R75, byte condition). -/

namespace Sys2Proof

/-- Whether some encoding stands for the term. -/
def Instr.wellFormed : Instr → Bool
  | .rxByte _ => true
  | .decStep => true
  | .pktRead _ => true
  | .sigTake => true
  | .pixWrite _ _ => true
  | .encByte _ => true
  | .encStart => true
  | .encStep => true
  | .fbRead _ => true
  | .reset => true
  | .reservedOp0 _ => true
  | .reservedOpA _ => true
  | .reservedOpB _ => true
  | .reservedOpC _ => true
  | .reservedOpD _ => true
  | .reservedOpE _ => true
  | .wMagicU b => b == 0x55#8
  | .wMagicA b => b == 0x41#8
  | .wMagicR b => b == 0x52#8
  | .wMagicT b => b == 0x54#8
  | .wMagicMiss _ => true
  | .wLenLo _ => true
  | .wLenHi _ => true
  | .wCrc _ => true
  | .wPayCopy _ => true
  | .wPayDrop _ => true

end Sys2Proof
end

