-- ==== Sys2Proof/Decode.lean ====
section
/-! DEFINITION. The decoder and then the encoder of the block's two instruction encodings: CMD32 words (30_encoding.md
R85 to R89) and wire bytes (R70 to R75), whose class depends on the decoder's parse cursor. -/

namespace Sys2Proof

/-- Why a CMD32 word stands for no instruction. -/
inductive DecodeError where
  /-- R89: the operation code is assigned and a must-be-zero field is not zero. -/
  | reservedOperand
  /-- No such operation code; a 4-bit code never gets here. -/
  | noSuchOpcode
deriving DecidableEq, Repr

/-- Bits [31:28] of a command word (R85). -/
def opField (w : Word) : BitVec 4 := w.extractLsb' 28 4

/-- Bits [27:8] of a command word (R85). -/
def idxField (w : Word) : Index := w.extractLsb' 8 20

/-- Bits [7:0] of a command word (R85). -/
def datField (w : Word) : Byte := w.extractLsb' 0 8

/-- Bits [27:0] of a command word whose operation code is reserved. -/
def restField (w : Word) : BitVec 28 := w.extractLsb' 0 28

/-- R89: the instruction, unless a must-be-zero field is not zero. -/
def mbz (isZero : Bool) (i : Instr) : Except DecodeError Instr :=
  if isZero then .ok i else .error .reservedOperand

/-- The decoder of CMD32 (R86, R87). The six reserved codes decode to instructions of their own, which raise the fault
of R88. -/
def decodeWord (w : Word) : Except DecodeError Instr :=
  match (opField w).toNat with
  | 0x0 => .ok (.reservedOp0 (restField w))
  | 0x1 => mbz (idxField w == 0#20) (.rxByte (datField w))
  | 0x2 => mbz (idxField w == 0#20 && datField w == 0#8) .decStep
  | 0x3 => mbz (datField w == 0#8) (.pktRead (idxField w))
  | 0x4 => mbz (idxField w == 0#20 && datField w == 0#8) .sigTake
  | 0x5 => .ok (.pixWrite (idxField w) (datField w))
  | 0x6 => mbz (idxField w == 0#20) (.encByte (datField w))
  | 0x7 => mbz (idxField w == 0#20 && datField w == 0#8) .encStart
  | 0x8 => mbz (idxField w == 0#20 && datField w == 0#8) .encStep
  | 0x9 => mbz (datField w == 0#8) (.fbRead (idxField w))
  | 0xA => .ok (.reservedOpA (restField w))
  | 0xB => .ok (.reservedOpB (restField w))
  | 0xC => .ok (.reservedOpC (restField w))
  | 0xD => .ok (.reservedOpD (restField w))
  | 0xE => .ok (.reservedOpE (restField w))
  | 0xF => mbz (idxField w == 0#20 && datField w == 0#8) .reset
  | _ => .error .noSuchOpcode

/-- The issuing agent of R86's map, by operation code; a reserved code has none. -/
def issuer (op : BitVec 4) : Option Agent :=
  match op.toNat with
  | 0x1 => some .uart
  | 0x2 => some .dec
  | 0x3 => some .cons
  | 0x4 => some .cons
  | 0x5 => some .host
  | 0x6 => some .host
  | 0x7 => some .host
  | 0x8 => some .enc
  | 0x9 => some .periph
  | 0xF => some .platform
  | _ => none

/-- `MAGIC[i]` for `i` in 0..3 (00_scope.md R12): the ASCII codes of 'U', 'A', 'R', 'T'. -/
def magic (i : Nat) : Byte :=
  match i with
  | 0 => 0x55#8
  | 1 => 0x41#8
  | 2 => 0x52#8
  | _ => 0x54#8

/-- The class of wire byte `b` at the parse cursor (R75). `len` is `hdr_len`, `pktMax` is `PKT_MAX`. At a payload cursor
past the payload no byte is consumed (40_frame_decoder.md R120), so there is no class. -/
def decodeWire (cursor len pktMax : Nat) (b : Byte) : Option Instr :=
  match cursor with
  | 0 => some (if b = magic 0 then .wMagicU b else .wMagicMiss b)
  | 1 => some (if b = magic 1 then .wMagicA b else .wMagicMiss b)
  | 2 => some (if b = magic 2 then .wMagicR b else .wMagicMiss b)
  | 3 => some (if b = magic 3 then .wMagicT b else .wMagicMiss b)
  | 4 => some (.wLenLo b)
  | 5 => some (.wLenHi b)
  | 6 => some (.wCrc b)
  | k + 7 => if k < len then some (if k < pktMax then .wPayCopy b else .wPayDrop b) else none

/-- The magic cursor at which byte `b` matches; 0 for a byte that matches at none. -/
def magicCursor (b : Byte) : Nat :=
  if b = magic 1 then 1 else if b = magic 2 then 2 else if b = magic 3 then 3 else 0

/-- What the decoders read from the bits of a row of spec/opcode_table.json: 32 bits are a command word, 8 bits a wire
byte. A wire byte alone does not fix its class; it is read at its own magic cursor, else at cursor 0 (log entry 12). -/
def decodeTableWord (nbits w : Nat) : Option Instr :=
  if nbits = 32 then
    match decodeWord (BitVec.ofNat 32 w) with
    | .ok i => some i
    | .error _ => none
  else if nbits = 8 then
    decodeWire (magicCursor (BitVec.ofNat 8 w)) 0 0 (BitVec.ofNat 8 w)
  else none

/-- The bits of an instruction: a command word, or a wire byte. -/
inductive Encoded where
  | cmd (w : Word)
  | wire (b : Byte)
deriving DecidableEq, Repr

/-- A command word from its three fields (R85). -/
def cmd32 (op : BitVec 4) (idx : Index) (dat : Byte) : Encoded := .cmd (op ++ idx ++ dat)

/-- The encoder, from the maps of R86 (CMD32) and R75 (wire bytes). -/
def encode : Instr → Encoded
  | .rxByte b => cmd32 0x1#4 0#20 b
  | .decStep => cmd32 0x2#4 0#20 0#8
  | .pktRead i => cmd32 0x3#4 i 0#8
  | .sigTake => cmd32 0x4#4 0#20 0#8
  | .pixWrite i v => cmd32 0x5#4 i v
  | .encByte b => cmd32 0x6#4 0#20 b
  | .encStart => cmd32 0x7#4 0#20 0#8
  | .encStep => cmd32 0x8#4 0#20 0#8
  | .fbRead i => cmd32 0x9#4 i 0#8
  | .reset => cmd32 0xF#4 0#20 0#8
  | .reservedOp0 rest => .cmd (0x0#4 ++ rest)
  | .reservedOpA rest => .cmd (0xA#4 ++ rest)
  | .reservedOpB rest => .cmd (0xB#4 ++ rest)
  | .reservedOpC rest => .cmd (0xC#4 ++ rest)
  | .reservedOpD rest => .cmd (0xD#4 ++ rest)
  | .reservedOpE rest => .cmd (0xE#4 ++ rest)
  | .wMagicU b => .wire b
  | .wMagicA b => .wire b
  | .wMagicR b => .wire b
  | .wMagicT b => .wire b
  | .wMagicMiss b => .wire b
  | .wLenLo b => .wire b
  | .wLenHi b => .wire b
  | .wCrc b => .wire b
  | .wPayCopy b => .wire b
  | .wPayDrop b => .wire b

/-- Where the decoder engine stands when it reads a wire byte. -/
structure WireContext where
  cursor : Nat
  len : Nat
  pktMax : Nat
deriving DecidableEq, Repr

/-- Whether R75 allows the class at that cursor: its column 'cursor' and the part of its 'byte condition' that is about
the cursor. A CMD32 instruction is read the same everywhere. -/
def Instr.allowedAt (i : Instr) (c : WireContext) : Bool :=
  match i with
  | .wMagicU _ => c.cursor == 0
  | .wMagicA _ => c.cursor == 1
  | .wMagicR _ => c.cursor == 2
  | .wMagicT _ => c.cursor == 3
  | .wMagicMiss b => decide (c.cursor ≤ 3) && b != magic c.cursor
  | .wLenLo _ => c.cursor == 4
  | .wLenHi _ => c.cursor == 5
  | .wCrc _ => c.cursor == 6
  | .wPayCopy _ => decide (7 ≤ c.cursor) && decide (c.cursor - 7 < c.len) && decide (c.cursor - 7 < c.pktMax)
  | .wPayDrop _ => decide (7 ≤ c.cursor) && decide (c.cursor - 7 < c.len) && decide (c.pktMax ≤ c.cursor - 7)
  | .rxByte _ => true
  | .decStep => true
  | .pktRead _ => true
  | .sigTake => true
  | .pixWrite _ _ => true
  | .encByte _ => true
  | .encStart => true
  | .encStep => true
  | .fbRead _ => true
  | .reset => true
  | .reservedOp0 _ => true
  | .reservedOpA _ => true
  | .reservedOpB _ => true
  | .reservedOpC _ => true
  | .reservedOpD _ => true
  | .reservedOpE _ => true

/-- Reading an encoding back, at a cursor where a wire byte is one. -/
def decodeAt (c : WireContext) : Encoded → Option Instr
  | .cmd w =>
    match decodeWord w with
    | .ok i => some i
    | .error _ => none
  | .wire b => decodeWire c.cursor c.len c.pktMax b

end Sys2Proof
end

