-- ==== Sys2Proof/Config.lean ====
section
/-! DEFINITION. What one block is built with (00_scope.md R6), and the one value left uninterpreted: the CRC hook of a
block that plugs in its own (40_frame_decoder.md R127). The parameters are data of the state, so a statement for every
state is a statement for every block. -/

namespace Sys2Proof

/-- `CRC_CHECK`, the CRC validation hook, by name (R127: "a named hook"). The state is plain data, so it names a hook
and `Config.pluggedCrc` says what a plugged-in one answers. -/
inductive CrcHook where
  /-- `CRC_ACCEPT_ALL`, the reference hook (R127). -/
  | acceptAll
  /-- The example hook of R121 and 95_test_vectors.md V-D10: accepts when the CRC byte is the xor of the payload. -/
  | xorPayload
  /-- Any other hook; nothing in the model fixes its answers. -/
  | plugged (n : Nat)
deriving DecidableEq, Repr

/-- The parameters of R6. `NUM_COLORS` is the length of `chanMap`. None changes after the block is built. -/
structure Params where
  ringCap : Nat
  pktMax : Nat
  crcHook : CrcHook
  numPixels : Nat
  chanMap : List Byte
  polarity : BitVec 1
  resetDelayUs : Nat
  wordPeriodNs : Nat
deriving DecidableEq, Repr

/-- DESIGN CHOICE (log entry 2): what a plugged-in CRC hook answers for a CRC byte, a length and the whole payload, head
first (R128). It has no body: a claim that holds here holds for every total deterministic hook. -/
opaque Config.pluggedCrc : Nat → Byte → Half → List Byte → Bool

/-- DESIGN CHOICE (log entry 1): the block `State.reset` is the reset state of. R6 leaves every value OPEN; these are
the defaults of 95_test_vectors.md with the strip of its program P2. No statement rests on them unless it says so. -/
def Config.reference : Params where
  ringCap := 64
  pktMax := 4
  crcHook := .acceptAll
  numPixels := 1
  chanMap := [2, 1, 3]
  polarity := 0
  resetDelayUs := 50
  wordPeriodNs := 20000

end Sys2Proof
end

