-- ==== Sys2Proof/Machine/State.lean ====
section
/-! DEFINITION. The state of one block (10_state.md R46), the read-only configuration (R39), the event trace
(60_exceptions.md R200), and the model's own fields, which carry what the environment issues and what a step answers. -/

namespace Sys2Proof.Machine

/-- The fault reasons of 60_exceptions.md R208. They are the spec's model faults: an operation answers one where the spec
says `raise Fault(reason)`, the step that ran it records the reason in `faults` and changes nothing else, so every one of
them is safe. -/
inductive Fault where
  /-- Raised by a CMD32 word whose operation code is 0x0 or 0xA to 0xE (30_encoding.md R88). Safe. -/
  | reservedOpcode
  /-- Raised by a CMD32 word whose must-be-zero field is not zero (30_encoding.md R89). Safe. -/
  | reservedOperand
  /-- Raised by `PKT_READ`, `PIX_WRITE`, `FB_READ` with an index outside the space (20_memory.md R56), and by an engine
  step that would write outside its buffer, in states no run reaches (log entry 6). Safe. -/
  | indexRange
  /-- Raised by a read of an element not written since RESET (20_memory.md R56): `PKT_READ`, `FB_READ`, `ENC_STEP`.
  Safe. -/
  | unwrittenRead
  /-- Raised by `ENC_BYTE`, `ENC_START`, `ENC_STEP`, `FB_READ` after a failed bring-up (41_led_encoder.md R178). Safe. -/
  | encNotReady
deriving DecidableEq, Repr

/-- What the spec does not admit. Each is the spec's own refusal, answered by a step before the command runs. -/
inductive Refusal where
  /-- No meaning yet; raised by no arm. Safe. -/
  | notModelled (mnemonic : String)
  /-- Raised by a step whose command comes from another agent than its operation's (30_encoding.md R86: "it is a
  refusal, not a fault"). Safe: the model stops. -/
  | wrongAgent
  /-- Raised by a step whose command comes before the first RESET and is not RESET (70_reset_and_hazards.md R234: "is
  outside the model and is refused"). Safe: the model stops. -/
  | beforeReset
  /-- Raised by every command of a block whose parameters break 00_scope.md R8 ("A model refuses other instances").
  Safe: the model stops. -/
  | blockNotAdmitted
deriving DecidableEq, Repr

/-- The fault record `faults` (10_state.md R44), a set of reasons: one membership bit each, so equal sets are equal
data. -/
structure FaultRecord where
  reservedOpcode : Bool
  reservedOperand : Bool
  indexRange : Bool
  unwrittenRead : Bool
  encNotReady : Bool
deriving DecidableEq, Repr

/-- One entry of the output trace, with its `info` (60_exceptions.md R201). -/
inductive Event where
  | frameCommit (len : Half)
  | encDone (words : Nat)
  | magicMismatch (cursor : Nat) (byte : Byte)
  | crcFail (crc : Byte) (len : Half)
  | rxOverrun (byte : Byte)
  | cfgErrInit (chanPos : Nat) (id : Byte)
  | cfgErrEncode (chanPos : Nat) (id : Byte)
deriving DecidableEq, Repr

/-- What the last step answered its agent (00_scope.md R11, 30_encoding.md R94). The model's own field. -/
inductive StepResult where
  /-- No operation has run yet. -/
  | idle
  /-- The operation took effect and returns nothing. -/
  | done
  /-- The operation took effect and returns a byte (`PKT_READ`). -/
  | byte (b : Byte)
  /-- The operation took effect and returns a word (`ENC_BYTE`, `FB_READ`). -/
  | word (w : Word)
  /-- The operation was not enabled: nothing changed. -/
  | held
  /-- The operation faulted: nothing changed but the fault record. -/
  | faulted (r : Fault)
deriving DecidableEq, Repr

/-- The Frame Header (10_state.md R21): `hdr_idx`, `hdr_magic[0..3]`, `hdr_len`, `hdr_crc`. -/
structure Header where
  idx : BitVec 32
  magic0 : Byte
  magic1 : Byte
  magic2 : Byte
  magic3 : Byte
  len : Half
  crc : Byte
deriving DecidableEq, Repr

/-- The configuration registers (10_state.md R39). `CFG_NUM_COLORS` is the length of the channel map and
`CFG_RESET_WORDS` is hardwired from the delay, so neither is stored twice (log entry 17). No operation reads
`CFG_RING_CAP`: they read the parameter (log entry 3). -/
structure Cfg where
  numPixels : BitVec 16
  chanMap : List Byte
  polarity : BitVec 1
  resetDelayUs : BitVec 32
  ringCap : BitVec 32
  pktMax : BitVec 32
deriving DecidableEq, Repr

/-- One operation issued by an agent: who, and the CMD32 word (30_encoding.md R85). -/
structure Command where
  agent : Agent
  word : Word
deriving DecidableEq, Repr

/-- An index space (20_memory.md R50): the written elements, indices strictly rising. An index that is not listed is an
element whose written bit is 0, which holds no value (10_state.md R45). Of bytes, it is a list of `Host.Cell`. -/
abbrev Space (α : Type) := List (Nat × α)

/-- The state of one block with both units. -/
structure State where
  /-- The parameters the block is built with (00_scope.md R6); fixed. -/
  params : Params
  /-- The model's own: whether the first RESET has been issued (70_reset_and_hazards.md R234). -/
  started : Bool
  /-- The configuration registers, loaded at RESET (10_state.md R39). -/
  cfg : Cfg
  /-- The Frame Header (R21). -/
  hdr : Header
  /-- The SFD ring buffer, head first (R28). -/
  ring : List Byte
  /-- The Packet Buffer `pkt` with its written bits `pkt_w` (R29). -/
  pkt : Space Byte
  /-- The "new data" signal (R30). -/
  newData : Bool
  /-- The pixel buffer `pix` with its written bits `pix_w` (R32). -/
  pix : Space Byte
  /-- The Strip Frame Buffer `fb` with its written bits `fb_w` (R33). -/
  fb : Space Word
  /-- A frame assembly is in progress (R34). -/
  encBusy : Bool
  /-- The index of the next frame-buffer word to write (R35). -/
  encPos : BitVec 32
  /-- The outcome of the last assembly: 0 NONE, 1 DONE, 2 CFG_ABORT (R36). -/
  encStatus : BitVec 2
  /-- The encoder's bring-up succeeded (R37). -/
  encReady : Bool
  /-- The fault record (R44). -/
  faults : FaultRecord
  /-- The output trace, oldest first (60_exceptions.md R200). -/
  events : List Event
  /-- The model's own: what the last step answered (00_scope.md R11). -/
  result : StepResult
  /-- The model's own: the operations still to be issued, in the order of the interleaving (20_memory.md R60). -/
  pending : List Command
deriving DecidableEq, Repr

/-- The machine right after RESET (70_reset_and_hazards.md R231), for the block `Config.reference`: header zero, ring
empty, nothing written, encoder idle and brought up, no fault, no event, nothing issued. -/
def State.reset : State where
  params := Config.reference
  started := true
  cfg :=
    { numPixels := 1, chanMap := [2, 1, 3], polarity := 0, resetDelayUs := 50, ringCap := 64, pktMax := 4 }
  hdr :=
    { idx := 0#32, magic0 := 0#8, magic1 := 0#8, magic2 := 0#8, magic3 := 0#8, len := 0#16, crc := 0#8 }
  ring := []
  pkt := []
  newData := false
  pix := []
  fb := []
  encBusy := false
  encPos := 0#32
  encStatus := 0#2
  encReady := true
  faults :=
    { reservedOpcode := false, reservedOperand := false, indexRange := false, unwrittenRead := false,
      encNotReady := false }
  events := []
  result := .idle
  pending := []

end Sys2Proof.Machine
end

