-- ==== Sys2Proof/Machine/Ops.lean ====
section
/-! DEFINITION. The named operations every meaning is written with: derived parameters (00_scope.md R7, R8), the index
spaces and the ring (20_memory.md R50 to R56), the outcomes of a step (R11), the fault record (10_state.md R44), and
what a step does before and after the operation it runs. -/

namespace Sys2Proof

/-- `PRE_DELAY_WORDS` (R6): leading reset words. -/
def preDelayWords : Nat := 1

/-- `RESET_QUANTUM_US` (R6). -/
def resetQuantumUs : Nat := 20

/-- `WORD_SIZE` (R6): bytes of a frame-buffer word. -/
def wordSize : Nat := 4

/-- `ceil(delay / 20)` over the naturals (R7; 41_led_encoder.md R173). -/
def ceilResetWords (delayUs : Nat) : Nat := (delayUs + (resetQuantumUs - 1)) / resetQuantumUs

/-- `FB_LEN` from the counts it is made of (R7). -/
def frameWords (numColors numPixels resetWords : Nat) : Nat :=
  preDelayWords + numColors * numPixels + resetWords

/-- `NUM_COLORS`. -/
def Params.numColors (p : Params) : Nat := p.chanMap.length

/-- `PIX_LEN` (R7). -/
def Params.pixLen (p : Params) : Nat := 4 * p.numPixels

/-- `RESET_WORDS` (R7). -/
def Params.resetWords (p : Params) : Nat := ceilResetWords p.resetDelayUs

/-- `FB_LEN` (R7). -/
def Params.fbLen (p : Params) : Nat := frameWords p.numColors p.numPixels p.resetWords

/-- The blocks a model admits (R8), with R8's bounds for CMD32 and the bound R6 gives `WORD_PERIOD_NS` (log entry 3). A
bad channel id is no bar: it is found at bring-up. -/
def Params.admissible (p : Params) : Bool :=
  decide (1 ≤ p.ringCap) && decide (1 ≤ p.pktMax) && decide (1 ≤ p.numColors) && decide (p.numPixels < 2 ^ 16) &&
  decide (p.resetDelayUs < 2 ^ 32) && decide (p.pktMax ≤ 2 ^ 20) && decide (p.pixLen ≤ 2 ^ 20) &&
  decide (p.fbLen ≤ 2 ^ 20) && decide (1 ≤ p.wordPeriodNs)

namespace Machine

/-- What a meaning answers. -/
abbrev Answer := Host.Outcome State Fault Refusal

/-! The configuration registers (10_state.md R39: "A model may read them as the parameters themselves"). Two parameters
have no bound in R8 that fits their register: for them the operations use the number itself (log entry 3). -/

/-- `RING_CAP`, the ring's capacity as the operations use it. -/
def State.ringCap (s : State) : Nat := s.params.ringCap

/-- `NUM_COLORS`, the length of the channel map as the operations use it. -/
def Cfg.numColors (c : Cfg) : Nat := c.chanMap.length

/-- The 16 bits of the register `CFG_NUM_COLORS`. -/
def Cfg.numColorsReg (c : Cfg) : BitVec 16 := BitVec.ofNat 16 c.numColors

/-- `CFG_RESET_WORDS`, hardwired from `CFG_RESET_DELAY_US` (R39). -/
def Cfg.resetWords (c : Cfg) : BitVec 32 := BitVec.ofNat 32 (ceilResetWords c.resetDelayUs.toNat)

/-- `PIX_LEN`. -/
def Cfg.pixLen (c : Cfg) : Nat := 4 * c.numPixels.toNat

/-- `DATA_WORDS`. -/
def Cfg.dataWords (c : Cfg) : Nat := c.numColors * c.numPixels.toNat

/-- `FB_LEN`. -/
def Cfg.fbLen (c : Cfg) : Nat := frameWords c.numColors c.numPixels.toNat c.resetWords.toNat

/-- `FB_BYTES` (R7). -/
def Cfg.fbBytes (c : Cfg) : Nat := c.fbLen * wordSize

/-- The registers loaded from the parameters (R39). -/
def loadCfg (p : Params) : Cfg where
  numPixels := BitVec.ofNat 16 p.numPixels
  chanMap := p.chanMap
  polarity := p.polarity
  resetDelayUs := BitVec.ofNat 32 p.resetDelayUs
  ringCap := BitVec.ofNat 32 p.ringCap
  pktMax := BitVec.ofNat 32 p.pktMax

/-! The index spaces (20_memory.md R50, R56; 10_state.md R45). -/

/-- The value of element `i`, or none when its written bit is 0. -/
def memRead {α : Type} : Space α → Nat → Option α
  | [], _ => none
  | (j, x) :: rest, i => if i = j then some x else memRead rest i

/-- `S.a[i] <- v; S.a_w[i] <- 1`, keeping indices strictly rising. -/
def memWrite {α : Type} : Space α → Nat → α → Space α
  | [], i, v => [(i, v)]
  | (j, x) :: rest, i, v =>
    if i < j then (i, v) :: (j, x) :: rest
    else if i = j then (i, v) :: rest
    else (j, x) :: memWrite rest i v

/-- The written bit of element `i` (R45). -/
def memWritten {α : Type} (sp : Space α) (i : Nat) : Bool := (memRead sp i).isSome

/-- The canonical form of a space of `n` elements: indices strictly rising and below `n`. -/
abbrev memWf {α : Type} (n : Nat) (sp : Space α) : Prop :=
  sp.Pairwise (fun a b => a.1 < b.1) ∧ ∀ e ∈ sp, e.1 < n

/-- The canonical form of the three index spaces of a block. -/
abbrev Memory.wf (s : State) : Prop :=
  memWf s.cfg.pktMax.toNat s.pkt ∧ memWf s.cfg.pixLen s.pix ∧ memWf s.cfg.fbLen s.fb

/-! The ring FIFO (20_memory.md R52). -/

/-- `RingCount()`. -/
def ringCount (s : State) : Nat := s.ring.length

/-- `RingPush(b)`, where the ring has room. -/
def ringPush (b : Byte) (s : State) : State := { s with ring := s.ring ++ [b] }

/-- `RingPop()`: the head byte and the state without it; none when it is not enabled. -/
def ringPop (s : State) : Option (Byte × State) :=
  match s.ring with
  | [] => none
  | b :: rest => some (b, { s with ring := rest })

/-- `RingPeek(n)`, head first. -/
def ringPeek (n : Nat) (s : State) : List Byte := s.ring.take n

/-! What a step answers its agent (00_scope.md R11, 30_encoding.md R94). -/

/-- The state after a step that answered `r`. -/
def State.answer (s : State) (r : StepResult) : State := { s with result := r }

/-- R11 (1), with nothing returned. -/
def done (s : State) : Answer := .next (s.answer .done)

/-- R11 (2): not enabled. Nothing changes. -/
def hold (s : State) : Answer := .next (s.answer .held)

/-- `ret v` of a byte. -/
def retByte (b : Byte) (s : State) : Answer := .next (s.answer (.byte b))

/-- `ret v` of a word. -/
def retWord (w : Word) (s : State) : Answer := .next (s.answer (.word w))

/-- `emit EVT(code, info)` (60_exceptions.md R200). -/
def State.emit (s : State) (e : Event) : State := { s with events := s.events ++ [e] }

/-- The event code of 60_exceptions.md R201. -/
def Event.code : Event → Byte
  | .frameCommit _ => 0x01
  | .encDone _ => 0x02
  | .magicMismatch _ _ => 0x10
  | .crcFail _ _ => 0x11
  | .rxOverrun _ => 0x12
  | .cfgErrInit _ _ => 0x20
  | .cfgErrEncode _ _ => 0x21

/-! Model faults (60_exceptions.md R208 to R211). The block has no trap: nothing is saved, no handler is entered and
there is nothing to return from. What a fault leaves is its reason in the fault record. -/

/-- `raise Fault(reason)` (R11 (3)). -/
def raiseFault (r : Fault) : Answer := .fault r

/-- The fault record without a reason (R44: "It is empty when the model starts"). -/
def FaultRecord.empty : FaultRecord where
  reservedOpcode := false
  reservedOperand := false
  indexRange := false
  unwrittenRead := false
  encNotReady := false

/-- Membership in the fault record. -/
def FaultRecord.has (f : FaultRecord) : Fault → Bool
  | .reservedOpcode => f.reservedOpcode
  | .reservedOperand => f.reservedOperand
  | .indexRange => f.indexRange
  | .unwrittenRead => f.unwrittenRead
  | .encNotReady => f.encNotReady

/-- The fault record with one more reason; it "only grows" (R44). -/
def FaultRecord.add (f : FaultRecord) : Fault → FaultRecord
  | .reservedOpcode => { f with reservedOpcode := true }
  | .reservedOperand => { f with reservedOperand := true }
  | .indexRange => { f with indexRange := true }
  | .unwrittenRead => { f with unwrittenRead := true }
  | .encNotReady => { f with encNotReady := true }

/-- The state a faulted step leaves (R11, R44, R208): the reason recorded, no other state changed, nothing returned, no
event. -/
def State.recordFault (s : State) (r : Fault) : State :=
  { s with faults := s.faults.add r, result := .faulted r }

/-! The Frame Header (10_state.md R21 to R26). -/

/-- The parse cursor `hdr_idx`, as a number. -/
def State.cursor (s : State) : Nat := s.hdr.idx.toNat

/-- The header with every register 0. -/
def Header.zero : Header :=
  { idx := 0#32, magic0 := 0#8, magic1 := 0#8, magic2 := 0#8, magic3 := 0#8, len := 0#16, crc := 0#8 }

/-- HeaderClear (R26). -/
def State.headerClear (s : State) : State := { s with hdr := Header.zero }

/-- `S.hdr_idx <- n`. -/
def State.setCursor (s : State) (n : Nat) : State := { s with hdr := { s.hdr with idx := BitVec.ofNat 32 n } }

/-- `S.hdr_magic[i] <- b`, for `i` in 0..3. -/
def Header.setMagic (h : Header) (i : Nat) (b : Byte) : Header :=
  match i with
  | 0 => { h with magic0 := b }
  | 1 => { h with magic1 := b }
  | 2 => { h with magic2 := b }
  | _ => { h with magic3 := b }

/-- `hdr_magic[i]`, for `i` in 0..3. -/
def Header.magicAt (h : Header) (i : Nat) : Byte :=
  match i with
  | 0 => h.magic0
  | 1 => h.magic1
  | 2 => h.magic2
  | _ => h.magic3

/-! What a step does around the operation it runs. -/

/-- The next command of the schedule, and the state with it issued (20_memory.md R60). -/
def fetch (s : State) : Option (Command × State) :=
  match s.pending with
  | [] => none
  | c :: rest => some (c, { s with pending := rest })

/-- Whether a command is refused before it runs: a block outside R8, anything but RESET before the first RESET
(70_reset_and_hazards.md R234), an operation from another agent than its own (30_encoding.md R86). A reserved operation
code has no issuing agent. -/
def refuses (s : State) (c : Command) : Option Refusal :=
  if s.params.admissible = false then some .blockNotAdmitted
  else if s.started = false ∧ decodeWord c.word ≠ .ok .reset then some .beforeReset
  else
    match issuer (opField c.word) with
    | none => none
    | some a => if a = c.agent then none else some .wrongAgent

/-- What a step makes of an operation's answer: a fault leaves the state the operation met, with the reason recorded
(R11, R44; log entry 4). -/
def settle (s : State) (a : Answer) : Answer :=
  match a with
  | .next t => .next t
  | .fault r => .next (s.recordFault r)
  | .refused r => .refused r

/-- The block `p` before its first RESET (70_reset_and_hazards.md R230, corner case: "The power-on state is the state
RESET produces"); only RESET is admitted here. The registers hold what RESET would load. -/
def State.powerOn (p : Params) : State :=
  { State.reset with params := p, started := false, cfg := loadCfg p, encReady := p.chanMap.all (fun id => id.toNat < 4) }

end Machine
end Sys2Proof
end

