-- ==== Sys2Proof/Machine/Operands.lean ====
section
/-! DEFINITION. The operand forms: an element of an index space named by `idx` (20_memory.md R56), the byte of a channel
of a pixel (30_encoding.md R80, R83), and the wire byte at the ring's head (30_encoding.md R75). A `dat` operand is the
byte itself. -/

namespace Sys2Proof.Machine

/-- A checked element read: `INDEX_RANGE` outside the `n` elements of the space, then `UNWRITTEN_READ` (R56, 60_exceptions.md
R209). -/
def elementRead {α : Type} (n : Nat) (sp : Space α) (i : Nat) : Except Fault α :=
  if i < n then
    match memRead sp i with
    | some v => .ok v
    | none => .error .unwrittenRead
  else .error .indexRange

/-- A checked element write (R56). -/
def elementWrite {α : Type} (n : Nat) (sp : Space α) (i : Nat) (v : α) : Except Fault (Space α) :=
  if i < n then .ok (memWrite sp i v) else .error .indexRange

/-- `CFG_CHAN_MAP[c]`; only asked for `c < NUM_COLORS`. -/
def chanAt (s : State) (c : Nat) : Byte := s.cfg.chanMap.getD c 0#8

/-- Whether a colour id is recognised (30_encoding.md R80). -/
def recognised (id : Byte) : Bool := decide (id.toNat < 4)

/-- The `PIX` index of channel `id` of pixel `px`, for red 1, green 2, blue 3 (41_led_encoder.md R168). -/
def chanIndex (px : Nat) (id : Byte) : Nat := 4 * px + (id.toNat - 1)

/-- `ChanByte(p, id)` (30_encoding.md R80, R83) for a recognised id: 0 for white (41_led_encoder.md R169), else the pixel
byte. -/
def chanByte (s : State) (px : Nat) (id : Byte) : Except Fault Byte :=
  if id = 0#8 then .ok 0#8 else elementRead s.cfg.pixLen s.pix (chanIndex px id)

/-- `CRC_CHECK` (40_frame_decoder.md R127, R128). -/
def crcCheck (hook : CrcHook) (crc : Byte) (len : Half) (payload : List Byte) : Bool :=
  match hook with
  | .acceptAll => true
  | .xorPayload => crc == payload.foldl (· ^^^ ·) 0#8
  | .plugged n => Config.pluggedCrc n crc len payload

/-- `CRC_CHECK(S.hdr_crc, L, RingPeek(L))` (R117). -/
def crcAccepts (s : State) : Bool :=
  crcCheck s.params.crcHook s.hdr.crc s.hdr.len (ringPeek s.hdr.len.toNat s)

/-- The wire byte the decoder engine reads next, as an instruction (30_encoding.md R75): the head of the ring at the
cursor. At cursor 7 a byte has a class only after the check of R117. -/
def nextWire (s : State) : Option Instr :=
  match s.ring with
  | [] => none
  | b :: _ =>
    if s.cursor = 7 ∧ (ringCount s < s.hdr.len.toNat ∨ crcAccepts s = false) then none
    else decodeWire s.cursor s.hdr.len.toNat s.cfg.pktMax.toNat b

end Sys2Proof.Machine
end

