-- ==== Sys2Proof/Machine/Flags.lean ====
section
/-! DEFINITION. The status flags of the block (10_state.md R40): `new_data`, `enc_busy` with `enc_pos` and `enc_status`,
`enc_ready`; and when an engine is enabled. The block has no condition flags. -/

namespace Sys2Proof.Machine

/-- `S.new_data <- 1` (40_frame_decoder.md R122). -/
def State.raiseNewData (s : State) : State := { s with newData := true }

/-- `S.new_data <- 0` (R130). -/
def State.takeNewData (s : State) : State := { s with newData := false }

/-- `enc_status` values (10_state.md R36). -/
def statusNone : BitVec 2 := 0#2
/-- The last assembly wrote all its words. -/
def statusDone : BitVec 2 := 1#2
/-- The last assembly met an unrecognised channel. -/
def statusCfgAbort : BitVec 2 := 2#2

/-- `ENC_START`'s writes (41_led_encoder.md R165). -/
def State.encBegin (s : State) : State := { s with encBusy := true, encPos := 0#32, encStatus := statusNone }

/-- The end of an assembly with an outcome (41_led_encoder.md R170, R172). -/
def State.encEnd (s : State) (status : BitVec 2) : State :=
  { s with encBusy := false, encPos := 0#32, encStatus := status }

/-- The next word of the assembly is `n` (R172). -/
def State.setEncPos (s : State) (n : Nat) : State := { s with encPos := BitVec.ofNat 32 n }

/-- The first unrecognised channel entry, counted from `c` (70_reset_and_hazards.md R232). -/
def firstBadChan : List Byte → Nat → Option (Nat × Byte)
  | [], _ => none
  | id :: rest, c => if recognised id then firstBadChan rest (c + 1) else some (c, id)

/-- BringUpCheck (R232): `enc_ready`, and the event of a failed one. -/
def bringUp (s : State) : State :=
  match firstBadChan s.cfg.chanMap 0 with
  | none => { s with encReady := true }
  | some (c, id) => ({ s with encReady := false }).emit (.cfgErrInit c id)

/-- The readiness check of 41_led_encoder.md R150, R178, before anything else of the operation (60_exceptions.md R209). -/
def whenReady (s : State) (a : Answer) : Answer :=
  if s.encReady then a else raiseFault .encNotReady

/-- When `DEC_STEP` is enabled (40_frame_decoder.md R134). -/
def decEnabled (s : State) : Bool :=
  (decide (s.cursor ≤ 6) && decide (1 ≤ ringCount s)) ||
  (decide (s.cursor = 7) && decide (s.hdr.len.toNat ≤ ringCount s)) ||
  decide (8 ≤ s.cursor)

/-- When `ENC_STEP` is enabled (41_led_encoder.md R179). -/
def encEnabled (s : State) : Bool := s.encBusy && s.encReady

end Sys2Proof.Machine
end

