-- ==== Sys2Proof/Machine/FrameDecoder.lean ====
section
/-! DEFINITION. The Serial Frame Decoder (40_frame_decoder.md): the effect of each wire byte class on the state whose ring
the byte was popped from, the payload elements, the four operations, and each class as an instruction of its own. -/

namespace Sys2Proof.Machine

/-! The header classes (R108 to R115). -/

/-- R108 to R111: `S.hdr_magic[i] <- b; S.hdr_idx <- i + 1`. -/
def acceptMagic (i : Nat) (b : Byte) (s : State) : State :=
  ({ s with hdr := s.hdr.setMagic i b }).setCursor (i + 1)

/-- R112: HeaderClear and `EVT_MAGIC_MISMATCH {cursor: i, byte: b}`. The byte is not compared again. -/
def missMagic (i : Nat) (b : Byte) (s : State) : State := s.headerClear.emit (.magicMismatch i b)

/-- R113: `S.hdr_len[7:0] <- b; S.hdr_idx <- 5`. -/
def acceptLenLo (b : Byte) (s : State) : State :=
  ({ s with hdr := { s.hdr with len := s.hdr.len.extractLsb' 8 8 ++ b } }).setCursor 5

/-- R114: `S.hdr_len[15:8] <- b; S.hdr_idx <- 6`. -/
def acceptLenHi (b : Byte) (s : State) : State :=
  ({ s with hdr := { s.hdr with len := b ++ s.hdr.len.extractLsb' 0 8 } }).setCursor 6

/-- R115: `S.hdr_crc <- b; S.hdr_idx <- 7`. -/
def acceptCrc (b : Byte) (s : State) : State :=
  ({ s with hdr := { s.hdr with crc := b } }).setCursor 7

/-! The payload elements (R117 to R122). -/

/-- `T = max(S.hdr_len, PKT_MAX)` (R100). -/
def payloadTotal (s : State) : Nat := max s.hdr.len.toNat s.cfg.pktMax.toNat

/-- The element `k` the engine is at (10_state.md R22): 0 at cursor 7. -/
def payloadIndex (s : State) : Nat := s.cursor - 7

/-- R122: the frame commits. The event carries the length from before the clear. -/
def commit (s : State) : State := (s.raiseNewData.headerClear).emit (.frameCommit s.hdr.len)

/-- The completion test of R122, after element `k`. -/
def elementDone (k : Nat) (s : State) : State :=
  if k + 1 = payloadTotal s then commit s else s.setCursor (7 + k + 1)

/-- R118, after the pop: `S.pkt[k] <- b; S.pkt_w[k] <- 1`, then R122. -/
def copyElement (k : Nat) (b : Byte) (s : State) : State :=
  elementDone k { s with pkt := memWrite s.pkt k b }

/-- R119, after the pop: the byte is discarded, then R122. -/
def dropElement (k : Nat) (s : State) : State := elementDone k s

/-- R120: `S.pkt[k] <- 0x00; S.pkt_w[k] <- 1`, then R122. No byte is popped. An index past `PKT_MAX`, which no run
reaches, is outside the space (20_memory.md R56; log entry 6). -/
def zeroElement (k : Nat) (s : State) : Answer :=
  match elementWrite s.cfg.pktMax.toNat s.pkt k 0#8 with
  | .error f => raiseFault f
  | .ok pkt => done (elementDone k { s with pkt := pkt })

/-- R121: HeaderClear, and the event with the values from before it. The payload stays in the ring. -/
def crcFail (s : State) : State := s.headerClear.emit (.crcFail s.hdr.crc s.hdr.len)

/-- One header byte popped at cursor `i ≤ 6` (R133). -/
def headerByte (i : Nat) (b : Byte) (s : State) : State :=
  if i ≤ 3 then
    if b = magic i then acceptMagic i b s else missMagic i b s
  else if i = 4 then acceptLenLo b s
  else if i = 5 then acceptLenHi b s
  else acceptCrc b s

/-- `PayloadElement(k)` (R133). A pop from an empty ring is not enabled (20_memory.md R52); no run gets there (R132). -/
def payloadElement (k : Nat) (s : State) : Answer :=
  if k < s.hdr.len.toNat then
    match ringPop s with
    | none => hold s
    | some (b, t) => done (if k < s.cfg.pktMax.toNat then copyElement k b t else dropElement k t)
  else zeroElement k s

/-! The operations. -/

/-- `RX_BYTE b` (R104, R105). -/
def execRxByte (b : Byte) (s : State) : Answer :=
  if ringCount s < s.ringCap then done (ringPush b s) else done (s.emit (.rxOverrun b))

/-- `DEC_STEP` (R106, R133). -/
def execDecStep (s : State) : Answer :=
  if s.cursor ≤ 6 then
    match ringPop s with
    | none => hold s
    | some (b, t) => done (headerByte s.cursor b t)
  else if s.cursor = 7 then
    if ringCount s < s.hdr.len.toNat then hold s
    else if crcAccepts s then payloadElement 0 s
    else done (crcFail s)
  else payloadElement (payloadIndex s) s

/-- `PKT_READ i` (R129). -/
def execPktRead (i : Index) (s : State) : Answer :=
  match elementRead s.cfg.pktMax.toNat s.pkt i.toNat with
  | .error f => raiseFault f
  | .ok b => retByte b s

/-- `SIG_TAKE` (R130). -/
def execSigTake (s : State) : Answer :=
  if s.newData then done s.takeNewData else hold s

/-! The wire byte classes as instructions (30_encoding.md R75). Each runs where the engine reads exactly that
instruction; elsewhere it is not enabled (00_scope.md R11 (2); log entry 5). -/

/-- Run the class `i` whose effect on the state after the pop is `eff`. -/
def runWire (i : Instr) (eff : State → State) (s : State) : Answer :=
  if nextWire s = some i then
    match ringPop s with
    | none => hold s
    | some (_, t) => done (eff t)
  else hold s

/-- `W_MAGIC_U` (R108). -/
def execWMagicU (b : Byte) (s : State) : Answer := runWire (.wMagicU b) (acceptMagic 0 b) s

/-- `W_MAGIC_A` (R109). -/
def execWMagicA (b : Byte) (s : State) : Answer := runWire (.wMagicA b) (acceptMagic 1 b) s

/-- `W_MAGIC_R` (R110). -/
def execWMagicR (b : Byte) (s : State) : Answer := runWire (.wMagicR b) (acceptMagic 2 b) s

/-- `W_MAGIC_T` (R111). -/
def execWMagicT (b : Byte) (s : State) : Answer := runWire (.wMagicT b) (acceptMagic 3 b) s

/-- `W_MAGIC_MISS` (R112). -/
def execWMagicMiss (b : Byte) (s : State) : Answer := runWire (.wMagicMiss b) (missMagic s.cursor b) s

/-- `W_LEN_LO` (R113). -/
def execWLenLo (b : Byte) (s : State) : Answer := runWire (.wLenLo b) (acceptLenLo b) s

/-- `W_LEN_HI` (R114). -/
def execWLenHi (b : Byte) (s : State) : Answer := runWire (.wLenHi b) (acceptLenHi b) s

/-- `W_CRC` (R115). -/
def execWCrc (b : Byte) (s : State) : Answer := runWire (.wCrc b) (acceptCrc b) s

/-- `W_PAY_COPY` (R118). -/
def execWPayCopy (b : Byte) (s : State) : Answer := runWire (.wPayCopy b) (copyElement (payloadIndex s) b) s

/-- `W_PAY_DROP` (R119). -/
def execWPayDrop (b : Byte) (s : State) : Answer := runWire (.wPayDrop b) (dropElement (payloadIndex s)) s

end Sys2Proof.Machine
end

