-- ==== Sys2Proof/Machine/LedEncoder.lean ====
section
/-! DEFINITION. The Bit-Serial LED Encoder (41_led_encoder.md): the encode function, the frame assembly and the five
operations. -/

namespace Sys2Proof.Machine

/-! The encode function (R160, R161) and the polarity values (30_encoding.md R76). -/

/-- `SYM1`, the one-symbol. -/
def sym1 (pol : BitVec 1) : BitVec 4 := if pol = 0#1 then 0xE#4 else 0x1#4

/-- `SYM0`, the zero-symbol. -/
def sym0 (pol : BitVec 1) : BitVec 4 := if pol = 0#1 then 0x8#4 else 0x7#4

/-- `RESET_WORD` (R76, R78). -/
def resetWord (pol : BitVec 1) : Word := if pol = 0#1 then 0x00000000#32 else 0xFFFFFFFF#32

/-- The symbol of one input bit. -/
def symOf (pol : BitVec 1) (bit : Bool) : BitVec 4 := if bit then sym1 pol else sym0 pol

/-- The pre-swap word (R160): bit `i` of the byte in nibble `i`. -/
def preSwap (pol : BitVec 1) (b : Byte) : Word :=
  symOf pol (b.getLsbD 7) ++ symOf pol (b.getLsbD 6) ++ symOf pol (b.getLsbD 5) ++ symOf pol (b.getLsbD 4) ++
  symOf pol (b.getLsbD 3) ++ symOf pol (b.getLsbD 2) ++ symOf pol (b.getLsbD 1) ++ symOf pol (b.getLsbD 0)

/-- The half-word exchange (R161, and `Unswap` of R162). -/
def swapHalves (w : Word) : Word := w.extractLsb' 0 16 ++ w.extractLsb' 16 16

/-- `Encode(b)` (R160, R161). -/
def encodeByte (pol : BitVec 1) (b : Byte) : Word := swapHalves (preSwap pol b)

/-! Frame assembly (R166 to R172). -/

/-- The completion test of R172, after word `p` was written. -/
def wordDone (p : Nat) (s : State) : State :=
  if p + 1 = s.cfg.fbLen then (s.encEnd statusDone).emit (.encDone s.cfg.fbLen) else s.setEncPos (p + 1)

/-- `S.fb[p] <- w; S.fb_w[p] <- 1`, then R172. A word past `FB_LEN`, which no run reaches, is outside the space
(20_memory.md R56; log entry 6). -/
def writeWord (p : Nat) (w : Word) (s : State) : Answer :=
  match elementWrite s.cfg.fbLen s.fb p w with
  | .error f => raiseFault f
  | .ok fb => done (wordDone p { s with fb := fb })

/-- R170: the assembly is aborted at channel position `c`. -/
def cfgAbort (c : Nat) (id : Byte) (s : State) : State :=
  (s.encEnd statusCfgAbort).emit (.cfgErrEncode c id)

/-- R168 to R170: the data word at position `p`, pixel-major. -/
def dataWord (p : Nat) (s : State) : Answer :=
  let px := (p - 1) / s.cfg.numColors
  let c := (p - 1) % s.cfg.numColors
  let id := chanAt s c
  if recognised id then
    match chanByte s px id with
    | .error f => raiseFault f
    | .ok v => writeWord p (encodeByte s.cfg.polarity v) s
  else done (cfgAbort c id s)

/-! The operations. -/

/-- `PIX_WRITE i, v` (R151). No readiness check (R150). -/
def execPixWrite (i : Index) (v : Byte) (s : State) : Answer :=
  match elementWrite s.cfg.pixLen s.pix i.toNat v with
  | .error f => raiseFault f
  | .ok pix => done { s with pix := pix }

/-- `ENC_BYTE b` (R152). -/
def execEncByte (b : Byte) (s : State) : Answer :=
  whenReady s (retWord (encodeByte s.cfg.polarity b) s)

/-- `ENC_START` (R165). -/
def execEncStart (s : State) : Answer :=
  whenReady s (if s.encBusy then hold s else done s.encBegin)

/-- `ENC_STEP` (R166 to R172). -/
def execEncStep (s : State) : Answer :=
  whenReady s
    (if s.encBusy then
      if s.encPos.toNat = 0 then writeWord 0 (resetWord s.cfg.polarity) s
      else if s.encPos.toNat ≤ s.cfg.dataWords then dataWord s.encPos.toNat s
      else writeWord s.encPos.toNat (resetWord s.cfg.polarity) s
    else hold s)

/-- `FB_READ i` (R175). -/
def execFbRead (i : Index) (s : State) : Answer :=
  whenReady s
    (match elementRead s.cfg.fbLen s.fb i.toNat with
    | .error f => raiseFault f
    | .ok w => retWord w s)

end Sys2Proof.Machine
end

