-- ==== Sys2Proof/Machine/Platform.lean ====
section
/-! DEFINITION. `RESET` (70_reset_and_hazards.md R230 to R232) and the six reserved operation codes (30_encoding.md
R88). -/

namespace Sys2Proof.Machine

/-- Everything R230 writes before the bring-up check: `faults` and the event trace are left as they are. -/
def resetState (s : State) : State :=
  { s with
    started := true
    cfg := loadCfg s.params
    hdr := Header.zero
    ring := []
    pkt := []
    newData := false
    pix := []
    fb := []
    encBusy := false
    encPos := 0#32
    encStatus := statusNone }

/-- `RESET` (R230): always enabled, never held. -/
def execReset (s : State) : Answer := done (bringUp (resetState s))

/-- Operation code 0x0 (R88). -/
def execReservedOp0 (_rest : BitVec 28) (_s : State) : Answer := raiseFault .reservedOpcode

/-- Operation code 0xA (R88). -/
def execReservedOpA (_rest : BitVec 28) (_s : State) : Answer := raiseFault .reservedOpcode

/-- Operation code 0xB (R88). -/
def execReservedOpB (_rest : BitVec 28) (_s : State) : Answer := raiseFault .reservedOpcode

/-- Operation code 0xC (R88). -/
def execReservedOpC (_rest : BitVec 28) (_s : State) : Answer := raiseFault .reservedOpcode

/-- Operation code 0xD (R88). -/
def execReservedOpD (_rest : BitVec 28) (_s : State) : Answer := raiseFault .reservedOpcode

/-- Operation code 0xE (R88). -/
def execReservedOpE (_rest : BitVec 28) (_s : State) : Answer := raiseFault .reservedOpcode

end Sys2Proof.Machine
end

