-- ==== Sys2Proof/Machine/Dispatch.lean ====
section
/-! DEFINITION. The dispatch: one arm per row of spec/opcode_table.json, each one call of that row's meaning. -/

namespace Sys2Proof.Machine

def exec (i : Instr) (s : State) : Host.Outcome State Fault Refusal :=
  match i with
  | .rxByte b => Sys2Proof.Machine.execRxByte b s
  | .decStep => Sys2Proof.Machine.execDecStep s
  | .pktRead n => Sys2Proof.Machine.execPktRead n s
  | .sigTake => Sys2Proof.Machine.execSigTake s
  | .pixWrite n v => Sys2Proof.Machine.execPixWrite n v s
  | .encByte b => Sys2Proof.Machine.execEncByte b s
  | .encStart => Sys2Proof.Machine.execEncStart s
  | .encStep => Sys2Proof.Machine.execEncStep s
  | .fbRead n => Sys2Proof.Machine.execFbRead n s
  | .reset => Sys2Proof.Machine.execReset s
  | .reservedOp0 rest => Sys2Proof.Machine.execReservedOp0 rest s
  | .reservedOpA rest => Sys2Proof.Machine.execReservedOpA rest s
  | .reservedOpB rest => Sys2Proof.Machine.execReservedOpB rest s
  | .reservedOpC rest => Sys2Proof.Machine.execReservedOpC rest s
  | .reservedOpD rest => Sys2Proof.Machine.execReservedOpD rest s
  | .reservedOpE rest => Sys2Proof.Machine.execReservedOpE rest s
  | .wMagicU b => Sys2Proof.Machine.execWMagicU b s
  | .wMagicA b => Sys2Proof.Machine.execWMagicA b s
  | .wMagicR b => Sys2Proof.Machine.execWMagicR b s
  | .wMagicT b => Sys2Proof.Machine.execWMagicT b s
  | .wMagicMiss b => Sys2Proof.Machine.execWMagicMiss b s
  | .wLenLo b => Sys2Proof.Machine.execWLenLo b s
  | .wLenHi b => Sys2Proof.Machine.execWLenHi b s
  | .wCrc b => Sys2Proof.Machine.execWCrc b s
  | .wPayCopy b => Sys2Proof.Machine.execWPayCopy b s
  | .wPayDrop b => Sys2Proof.Machine.execWPayDrop b s

end Sys2Proof.Machine
end

