-- ==== Sys2Proof/Machine/Issue.lean ====
section
/-! DEFINITION. Running one command word, and placing an instruction where the next step fetches it. -/

namespace Sys2Proof.Machine

/-- Decode a command word and run what it stands for: a word with a must-be-zero field that is not zero raises the fault
of 30_encoding.md R89, before any other check of the operation (60_exceptions.md R209). -/
def runWord (w : Word) (s : State) : Answer :=
  match decodeWord w with
  | .error _ => settle s (raiseFault .reservedOperand)
  | .ok i => settle s (exec i s)

/-- The command word of `DEC_STEP` (30_encoding.md R87). -/
def decStepWord : Word := 0x20000000#32

/-- The header at a magic cursor: the bytes before it matched (10_state.md R23). -/
def headerAtMagic (i : Nat) : Header where
  idx := BitVec.ofNat 32 i
  magic0 := if 0 < i then magic 0 else 0#8
  magic1 := if 1 < i then magic 1 else 0#8
  magic2 := if 2 < i then magic 2 else 0#8
  magic3 := 0#8
  len := 0#16
  crc := 0#8

/-- `s` with a command as the next to be issued. DESIGN CHOICE (log entries 7 and 10): placing sets `started` too, so that
the very next step runs the command and does not refuse it for coming before the first RESET (70_reset_and_hazards.md
R234). A run that begins at `State.powerOn` fills `pending` itself and keeps R234. -/
def State.issueNext (s : State) (a : Agent) (w : Word) : State :=
  { s with started := true, pending := { agent := a, word := w } :: s.pending }

/-- `s` with a command word issued next by its own agent; a reserved code has none, and the platform issues it. -/
def placeCommand (w : Word) (s : State) : State :=
  s.issueNext ((issuer (opField w)).getD .platform) w

/-- `s` with a wire byte at the ring's head, the parse cursor at the byte's magic position, and `DEC_STEP` issued
next. -/
def placeWireByte (b : Byte) (s : State) : State :=
  { s with ring := b :: s.ring.drop 1, hdr := headerAtMagic (magicCursor b) }.issueNext .dec decStepWord

end Sys2Proof.Machine
end

