-- ==== Sys2Proof/Machine/Step.lean ====
section
/-! DEFINITION. One step of the block (20_memory.md R60): the next command of the schedule, refused or decoded and run.
With nothing issued the block keeps its state (60_exceptions.md R219). -/

namespace Sys2Proof.Machine

/-- One step. -/
def step (s : State) : Host.Outcome State Fault Refusal :=
  match fetch s with
  | none => .next s
  | some (c, t) =>
    match refuses s c with
    | some r => .refused r
    | none => runWord c.word t

/-- `s` with an instruction of the opcode table where the next step fetches it (log entry 7): 8 bits are a wire byte, and
anything else a command word. -/
def State.withFetchWord (s : State) (nbits w : Nat) : State :=
  if nbits = 8 then placeWireByte (BitVec.ofNat 8 w) s else placeCommand (BitVec.ofNat 32 w) s

end Sys2Proof.Machine
end

