-- ==== Sys2Proof/Machine/Assembler.lean ====
section
/-! DEFINITION. The operation lines and the pseudo-operations of 30_encoding.md R92 and R93, over parsed lines; the
characters of an operation line are read in Lines.lean. -/

namespace Sys2Proof.Machine

/-- An operand of a line (R92): decimal, hexadecimal, or a character literal for its ASCII code. -/
inductive Literal where
  | dec (n : Nat)
  | hex (n : Nat)
  | chr (c : Char)
deriving DecidableEq, Repr

/-- The ASCII code of a character. DESIGN CHOICE (log entry 13): the spec gives only ASCII codes, so a character outside
ASCII has none. -/
def asciiCode (c : Char) : Option Nat := if c.toNat < 128 then some c.toNat else none

/-- The number an operand stands for; none for a character literal outside ASCII (log entry 13). -/
def Literal.value : Literal → Option Nat
  | .dec n => some n
  | .hex n => some n
  | .chr c => asciiCode c

/-- The number of an operand as a field of `w` bits. DESIGN CHOICE (log entry 13): none when it does not fit. -/
def Literal.field (w : Nat) (l : Literal) : Option (BitVec w) :=
  match l.value with
  | some n => if n < 2 ^ w then some (BitVec.ofNat w n) else none
  | none => none

/-- The mnemonics an operation line may hold (R86). -/
inductive Mnemonic where
  | rxByte | decStep | pktRead | sigTake | pixWrite | encByte | encStart | encStep | fbRead | reset
deriving DecidableEq, Repr

/-- A line without its returned value: an agent or none, a mnemonic, operands. -/
structure Line where
  agent : Option Agent
  mnemonic : Mnemonic
  operands : List Literal
deriving DecidableEq, Repr

/-- A byte operand. -/
def byteOf (l : Literal) : Option Byte := l.field 8

/-- An index operand. -/
def indexOf (l : Literal) : Option Index := l.field 20

/-- The operation a line names (R92): each mnemonic with exactly its operands. -/
def lineInstr (m : Mnemonic) (ops : List Literal) : Option Instr :=
  match m, ops with
  | .rxByte, [b] => (byteOf b).map .rxByte
  | .encByte, [b] => (byteOf b).map .encByte
  | .pktRead, [i] => (indexOf i).map .pktRead
  | .fbRead, [i] => (indexOf i).map .fbRead
  | .pixWrite, [i, v] =>
    match indexOf i, byteOf v with
    | some i, some v => some (.pixWrite i v)
    | _, _ => none
  | .decStep, [] => some .decStep
  | .sigTake, [] => some .sigTake
  | .encStart, [] => some .encStart
  | .encStep, [] => some .encStep
  | .reset, [] => some .reset
  | _, _ => none

/-- The command an operation stands for, issued by its own agent; a wire byte is no command. -/
def commandOf (i : Instr) (a : Option Agent) : Option Command :=
  match encode i with
  | .cmd w => some { agent := a.getD ((issuer (opField w)).getD .platform), word := w }
  | .wire _ => none

/-- A line as a command (R92: "The agent prefix defaults to the issuing agent of rule R86"). -/
def assemble (l : Line) : Option Command :=
  match lineInstr l.mnemonic l.operands with
  | some i => commandOf i l.agent
  | none => none

/-! The pseudo-operations (R93). -/

/-- `RX_SEQ b0, …, bn`. -/
def rxSeq (bs : List Byte) : List Instr := bs.map .rxByte

/-- The byte a character stands for; none outside ASCII (log entry 13). -/
def charByte (c : Char) : Option Byte := (asciiCode c).map (BitVec.ofNat 8)

/-- `RX_STR "s"`, one `RX_BYTE` per character; none when a character has no byte (log entry 13). -/
def rxStr (s : String) : Option (List Instr) := (s.toList.mapM charByte).map rxSeq

/-- The bytes `RX_FRAME` sends. -/
def frameBytes (len : Half) (crc : Byte) (payload : List Byte) : List Byte :=
  [magic 0, magic 1, magic 2, magic 3, len.extractLsb' 0 8, len.extractLsb' 8 8, crc] ++ payload

/-- `RX_FRAME len, crc, p0, …`. -/
def rxFrame (len : Half) (crc : Byte) (payload : List Byte) : List Instr := rxSeq (frameBytes len crc payload)

/-- `DEC_RUN n`. -/
def decRun (n : Nat) : List Instr := List.replicate n .decStep

/-- `PKT_DUMP`; an admitted block has `PKT_MAX` at most 2^20, so every index fits (00_scope.md R8). -/
def pktDump (pktMax : Nat) : List Instr := (List.range pktMax).map (fun i => .pktRead (BitVec.ofNat 20 i))

/-- `PIX_SET p, r, g, b, fx`. DESIGN CHOICE (log entry 13): none when the indices do not fit `idx`, as for any operand
that does not fit. -/
def pixSet (p : Nat) (r g b fx : Byte) : Option (List Instr) :=
  if p < 2 ^ 18 then
    some [.pixWrite (BitVec.ofNat 20 (4 * p)) r, .pixWrite (BitVec.ofNat 20 (4 * p + 1)) g,
      .pixWrite (BitVec.ofNat 20 (4 * p + 2)) b, .pixWrite (BitVec.ofNat 20 (4 * p + 3)) fx]
  else none

/-- `FB_DUMP`; an admitted block has `FB_LEN` at most 2^20, so every index fits (00_scope.md R8). -/
def fbDump (fbLen : Nat) : List Instr := (List.range fbLen).map (fun i => .fbRead (BitVec.ofNat 20 i))

/-- Operations one after another, ending at the first that does not answer a next state. -/
def runInstrs : List Instr → State → Answer
  | [], s => .next s
  | i :: rest, s =>
    match exec i s with
    | .next t => runInstrs rest t
    | .fault r => .fault r
    | .refused r => .refused r

/-- `DEC_STEP` repeated until it holds, at most `fuel` times. The state is the one in which it holds. -/
def decDrainFor : Nat → State → Answer
  | 0, s => .next s
  | fuel + 1, s =>
    match exec .decStep s with
    | .next t => if t.result = .held then .next s else decDrainFor fuel t
    | .fault r => .fault r
    | .refused r => .refused r

/-- How many `DEC_STEP`s can take effect before one holds: each ring byte may begin or end a frame's zero fill or failed
check, and the frame in progress has its own left. -/
def drainFuel (s : State) : Nat :=
  s.ring.length * (s.cfg.pktMax.toNat + 2) + (if 7 ≤ s.cursor then s.cfg.pktMax.toNat + 8 - s.cursor else 0)

/-- `DEC_DRAIN`: `DEC_STEP` repeated until it holds (R93; 40_frame_decoder.md R134). -/
def decDrain (s : State) : Answer := decDrainFor (drainFuel s + 1) s

/-- `ENC_STEP` while `enc_busy = 1`, at most `fuel` times. -/
def encWhileBusy : Nat → State → Answer
  | 0, s => .next s
  | fuel + 1, s =>
    if s.encBusy then
      match exec .encStep s with
      | .next t => encWhileBusy fuel t
      | .fault r => .fault r
      | .refused r => .refused r
    else .next s

/-- `ENC_FRAME`: `ENC_START`, then `ENC_STEP` while busy; `FB_LEN` of them are enough (R93). -/
def encFrame (s : State) : Answer :=
  match exec .encStart s with
  | .next t => encWhileBusy s.cfg.fbLen t
  | .fault r => .fault r
  | .refused r => .refused r

end Sys2Proof.Machine
end

