-- ==== Sys2Proof/Machine/Lines.lean ====
section
/-! DEFINITION. Reading the characters of an operation line (30_encoding.md R92; the spaces and the case are log
entry 13): `[<agent>:] <MNEMONIC> [<operand> [, <operand>]] [-> <value>]`. The pseudo-operations of R93 stand in Assembler.lean. -/

namespace Sys2Proof.Machine

/-- The pieces of a line. -/
inductive Token where
  /-- An agent, a mnemonic or a number. -/
  | word (cs : List Char)
  /-- A character literal. -/
  | quoted (c : Char)
  | colon
  | comma
  | arrow
deriving DecidableEq, Repr

/-- A character of a name or a number. -/
def isWordChar (c : Char) : Bool :=
  (decide (48 ≤ c.toNat) && decide (c.toNat ≤ 57)) || (decide (65 ≤ c.toNat) && decide (c.toNat ≤ 90)) ||
  (decide (97 ≤ c.toNat) && decide (c.toNat ≤ 122)) || decide (c.toNat = 95)

/-- A finished word before the pieces that follow it; `acc` is the word read so far, last character first. -/
def closeWord (acc : List Char) (ts : List Token) : List Token :=
  match acc with
  | [] => ts
  | _ :: _ => .word acc.reverse :: ts

/-- Split a line into its pieces; none where a character has no place in a line. -/
def splitLine (acc : List Char) : List Char → Option (List Token)
  | [] => some (closeWord acc [])
  | '\'' :: c :: '\'' :: rest => (splitLine [] rest).map (fun ts => closeWord acc (.quoted c :: ts))
  | '-' :: '>' :: rest => (splitLine [] rest).map (fun ts => closeWord acc (.arrow :: ts))
  | c :: rest =>
    if c = ' ' then (splitLine [] rest).map (closeWord acc)
    else if c = ':' then (splitLine [] rest).map (fun ts => closeWord acc (.colon :: ts))
    else if c = ',' then (splitLine [] rest).map (fun ts => closeWord acc (.comma :: ts))
    else if isWordChar c then splitLine (c :: acc) rest
    else none

/-- The value of a digit in hexadecimal. -/
def digitValue (c : Char) : Option Nat :=
  if 48 ≤ c.toNat ∧ c.toNat ≤ 57 then some (c.toNat - 48)
  else if 65 ≤ c.toNat ∧ c.toNat ≤ 70 then some (c.toNat - 55)
  else if 97 ≤ c.toNat ∧ c.toNat ≤ 102 then some (c.toNat - 87)
  else none

/-- The digits of a number in a base, continuing `n`. -/
def digits (base n : Nat) : List Char → Option Nat
  | [] => some n
  | c :: rest =>
    match digitValue c with
    | some d => if d < base then digits base (base * n + d) rest else none
    | none => none

/-- A number: hexadecimal after `0x`, else decimal, with at least one digit. -/
def numberOf : List Char → Option Literal
  | [] => none
  | '0' :: 'x' :: d :: rest => (digits 16 0 (d :: rest)).map .hex
  | cs => (digits 10 0 cs).map .dec

/-- An operand. -/
def operandOf : Token → Option Literal
  | .word cs => numberOf cs
  | .quoted c => (asciiCode c).map (fun _ => .chr c)
  | _ => none

/-- The names of the agents (10_state.md R20). -/
def agentNames : List (List Char × Agent) :=
  [("UART".toList, .uart), ("DEC".toList, .dec), ("CONS".toList, .cons), ("HOST".toList, .host), ("ENC".toList, .enc),
    ("PERIPH".toList, .periph), ("PLATFORM".toList, .platform)]

/-- The names of the operations (R86). -/
def mnemonicNames : List (List Char × Mnemonic) :=
  [("RX_BYTE".toList, .rxByte), ("DEC_STEP".toList, .decStep), ("PKT_READ".toList, .pktRead),
    ("SIG_TAKE".toList, .sigTake), ("PIX_WRITE".toList, .pixWrite), ("ENC_BYTE".toList, .encByte),
    ("ENC_START".toList, .encStart), ("ENC_STEP".toList, .encStep), ("FB_READ".toList, .fbRead),
    ("RESET".toList, .reset)]

/-- The entry of a name. -/
def lookupName {α : Type} (cs : List Char) : List (List Char × α) → Option α
  | [] => none
  | (n, a) :: rest => if cs = n then some a else lookupName cs rest

/-- At most two operands with a comma between them, then at most one returned value. -/
def operandsOf : List Token → Option (List Literal × Option Literal)
  | [] => some ([], none)
  | [.arrow, v] => (operandOf v).map (fun r => ([], some r))
  | [a] => (operandOf a).map (fun x => ([x], none))
  | [a, .arrow, v] =>
    match operandOf a, operandOf v with
    | some x, some r => some ([x], some r)
    | _, _ => none
  | [a, .comma, b] =>
    match operandOf a, operandOf b with
    | some x, some y => some ([x, y], none)
    | _, _ => none
  | [a, .comma, b, .arrow, v] =>
    match operandOf a, operandOf b, operandOf v with
    | some x, some y, some r => some ([x, y], some r)
    | _, _, _ => none
  | _ => none

/-- The line after its agent prefix. -/
def lineAfterAgent (agent : Option Agent) : List Token → Option (Line × Option Literal)
  | .word cs :: rest =>
    match lookupName cs mnemonicNames, operandsOf rest with
    | some m, some (ops, r) => some ({ agent := agent, mnemonic := m, operands := ops }, r)
    | _, _ => none
  | _ => none

/-- A line read from its characters: the line, and the returned value written after it. -/
def readLine (cs : List Char) : Option (Line × Option Literal) :=
  match splitLine [] cs with
  | some (.word a :: .colon :: rest) =>
    match lookupName a agentNames with
    | some agent => lineAfterAgent (some agent) rest
    | none => none
  | some ts => lineAfterAgent none ts
  | none => none

/-- The command a line of text stands for. -/
def assembleText (cs : List Char) : Option Command :=
  match readLine cs with
  | some (l, _) => assemble l
  | none => none

end Sys2Proof.Machine
end

