-- ==== Sys2Proof/Machine/Pulse.lean ====
section
/-! DEFINITION. The outputs computed from the frame buffer: the pulse train (41_led_encoder.md R176), its timing (R177)
and the byte view (20_memory.md R54). No operation reads them. -/

namespace Sys2Proof.Machine

/-- One half-word as levels, most significant bit first, from bit `top` down to bit `top - 15`. -/
def halfSlots (w : Word) (top : Nat) : List Bool := (List.range 16).map (fun i => w.getLsbD (top - i))

/-- `Slots(w)`: 32 levels, 1 = pin high; the low half-word first (R176). -/
def slots (w : Word) : List Bool := halfSlots w 15 ++ halfSlots w 31

/-- The first `n` words of the frame buffer, when all of them are written. -/
def frameOf (fb : Space Word) : Nat → Option (List Word)
  | 0 => some []
  | n + 1 =>
    match frameOf fb n, memRead fb n with
    | some ws, some w => some (ws ++ [w])
    | _, _ => none

/-- `PulseTrain` (R176), of a frame buffer whose words are all written; otherwise none (log entry 18). -/
def pulseTrain (s : State) : Option (List Bool) :=
  (frameOf s.fb s.cfg.fbLen).map (fun ws => ws.flatMap slots)

/-- The duration of one slot in nanoseconds (R177). -/
def slotNs (p : Params) : Rat := (p.wordPeriodNs : Rat) / 32

/-- The trailing quiet time in nanoseconds (R177). -/
def quietNs (p : Params) : Nat := p.resetWords * p.wordPeriodNs

/-- Byte `n` of the frame buffer, words little-endian (20_memory.md R54). -/
def fbByte (s : State) (n : Nat) : Option Byte :=
  (memRead s.fb (n / wordSize)).map (fun w => w.extractLsb' (8 * (n % wordSize)) 8)

end Sys2Proof.Machine
end

