-- ==== Sys2Proof/Safety.lean ====
section
/-! DEFINITION. The terms claims are stated in: the invariants the spec lists (10_state.md R22 to R36, 40_frame_decoder.md
R132), when a run has ended and may count as normal (70_reset_and_hazards.md R252, 60_exceptions.md R208), fairness
(R134, R179), the two units as views of the state (00_scope.md R2), and a run without hold or overrun (R135). -/

namespace Sys2Proof.Machine

/-- The invariants of the SFD (R132; 10_state.md R23 for the magic bytes) and the canonical form of `PKT`. -/
structure SfdInv (s : State) : Prop where
  ring_le : s.ring.length ≤ s.ringCap
  cursor_le : s.cursor ≤ 6 + payloadTotal s
  payload_held : 8 ≤ s.cursor → s.hdr.len.toNat - (s.cursor - 7) ≤ s.ring.length
  len_zero : s.cursor ≤ 4 → s.hdr.len = 0#16
  len_hi_zero : s.cursor ≤ 5 → s.hdr.len.extractLsb' 8 8 = 0#8
  crc_zero : s.cursor ≤ 6 → s.hdr.crc = 0#8
  magic_matched : ∀ i < 4, s.hdr.magicAt i = if i < s.cursor then magic i else 0#8
  pkt_wf : memWf s.cfg.pktMax.toNat s.pkt

/-- The invariants of the BSE (10_state.md R35 to R37) and the canonical form of `PIX` and `FB`. -/
structure BseInv (s : State) : Prop where
  pos_lt : s.encBusy = true → s.encPos.toNat < s.cfg.fbLen
  pos_zero : s.encBusy = false → s.encPos = 0#32
  status_ne : s.encStatus ≠ 3#2
  ready_iff : s.encReady = s.cfg.chanMap.all recognised
  busy_ready : s.encBusy = true → s.encReady = true
  pix_wf : memWf s.cfg.pixLen s.pix
  fb_wf : memWf s.cfg.fbLen s.fb

/-- What every state a run reaches satisfies. -/
structure Inv (s : State) : Prop where
  started : s.started = true
  admitted : s.params.admissible = true
  cfg_loaded : s.cfg = loadCfg s.params
  sfd : SfdInv s
  bse : BseInv s

/-- No fault has been recorded: what a normal run keeps (60_exceptions.md R208). -/
def faultFree (s : State) : Bool := s.faults == FaultRecord.empty

/-- Whether a command, issued in this state, is held (00_scope.md R11 (2)). -/
def heldNow (s : State) (c : Command) : Bool :=
  match refuses s c, decodeWord c.word with
  | none, .ok i =>
    match exec i s with
    | .next t => t.result == .held
    | _ => false
  | _, _ => false

/-- Whether an agent has issued its last operation of the schedule, or the next one it has to issue is held. Within one
agent, operations are issued in order (20_memory.md R60). -/
def agentDone (s : State) (a : Agent) : Bool :=
  match s.pending.find? (fun c => c.agent == a) with
  | none => true
  | some c => heldNow s c

/-- The agents of 10_state.md R20. -/
def agents : List Agent := [.uart, .dec, .cons, .host, .enc, .periph, .platform]

/-- The end of a run (70_reset_and_hazards.md R252): both engines are held, and every agent has issued its last operation
or is held (log entry 8). -/
def runEnded (s : State) : Bool := agents.all (agentDone s) && !decEnabled s && !encEnabled s

/-- The normal end of a run: its end, with no fault recorded (R252). -/
def normalEnd (s : State) : Bool := runEnded s && faultFree s

/-- The decoder is in the stall of 40_frame_decoder.md R126. -/
def Stalled (s : State) : Prop := s.cursor = 7 ∧ s.ringCap < s.hdr.len.toNat

/-- Weak fairness of an engine in an infinite run (R134, R179): enabled from some point on, it steps again. `who n` is
the agent of step `n`. -/
def WeaklyFair (engine : Agent) (enabled : State → Bool) (run : Nat → State) (who : Nat → Option Agent) : Prop :=
  ∀ n, (∀ m, n ≤ m → enabled (run m) = true) → ∃ m, n ≤ m ∧ who m = some engine

/-- The fairness the spec asks of a run (92_eei_decisions.md D32). -/
def Fair (run : Nat → State) (who : Nat → Option Agent) : Prop :=
  WeaklyFair .dec decEnabled run who ∧ WeaklyFair .enc encEnabled run who

/-! The two units (00_scope.md R2). -/

/-- The operations of the SFD, with its wire classes. -/
def isSfd : Instr → Bool
  | .rxByte _ => true
  | .decStep => true
  | .pktRead _ => true
  | .sigTake => true
  | .pixWrite _ _ => false
  | .encByte _ => false
  | .encStart => false
  | .encStep => false
  | .fbRead _ => false
  | .reset => false
  | .reservedOp0 _ => false
  | .reservedOpA _ => false
  | .reservedOpB _ => false
  | .reservedOpC _ => false
  | .reservedOpD _ => false
  | .reservedOpE _ => false
  | .wMagicU _ => true
  | .wMagicA _ => true
  | .wMagicR _ => true
  | .wMagicT _ => true
  | .wMagicMiss _ => true
  | .wLenLo _ => true
  | .wLenHi _ => true
  | .wCrc _ => true
  | .wPayCopy _ => true
  | .wPayDrop _ => true

/-- The operations of the BSE. -/
def isBse : Instr → Bool
  | .rxByte _ => false
  | .decStep => false
  | .pktRead _ => false
  | .sigTake => false
  | .pixWrite _ _ => true
  | .encByte _ => true
  | .encStart => true
  | .encStep => true
  | .fbRead _ => true
  | .reset => false
  | .reservedOp0 _ => false
  | .reservedOpA _ => false
  | .reservedOpB _ => false
  | .reservedOpC _ => false
  | .reservedOpD _ => false
  | .reservedOpE _ => false
  | .wMagicU _ => false
  | .wMagicA _ => false
  | .wMagicR _ => false
  | .wMagicT _ => false
  | .wMagicMiss _ => false
  | .wLenLo _ => false
  | .wLenHi _ => false
  | .wCrc _ => false
  | .wPayCopy _ => false
  | .wPayDrop _ => false

/-- Everything the SFD holds. -/
structure SfdView where
  crcHook : CrcHook
  ringCap : Nat
  cfgRingCap : BitVec 32
  pktMax : BitVec 32
  hdr : Header
  ring : List Byte
  pkt : Space Byte
  newData : Bool
deriving DecidableEq, Repr

/-- The SFD of a state. -/
def State.sfd (s : State) : SfdView where
  crcHook := s.params.crcHook
  ringCap := s.ringCap
  cfgRingCap := s.cfg.ringCap
  pktMax := s.cfg.pktMax
  hdr := s.hdr
  ring := s.ring
  pkt := s.pkt
  newData := s.newData

/-- Everything the BSE holds. -/
structure BseView where
  numPixels : BitVec 16
  chanMap : List Byte
  polarity : BitVec 1
  resetDelayUs : BitVec 32
  pix : Space Byte
  fb : Space Word
  encBusy : Bool
  encPos : BitVec 32
  encStatus : BitVec 2
  encReady : Bool
deriving DecidableEq, Repr

/-- The BSE of a state. -/
def State.bse (s : State) : BseView where
  numPixels := s.cfg.numPixels
  chanMap := s.cfg.chanMap
  polarity := s.cfg.polarity
  resetDelayUs := s.cfg.resetDelayUs
  pix := s.pix
  fb := s.fb
  encBusy := s.encBusy
  encPos := s.encPos
  encStatus := s.encStatus
  encReady := s.encReady

/-- Two answers that no agent of one unit can tell apart: the same unit afterwards, the same result, the same events;
or the same stop. -/
def Agree {β : Type} (view : State → β) : Answer → Answer → Prop
  | .next s, .next t => view s = view t ∧ s.result = t.result ∧ s.events = t.events
  | .fault a, .fault b => a = b
  | .refused a, .refused b => a = b
  | _, _ => False

/-! Runs of `RX_BYTE` and `DEC_STEP` in which nothing is dropped and nothing is held (R135). -/

/-- One operation of such a run. -/
def liveStep (i : Instr) (s : State) : Option State :=
  match i with
  | .rxByte _ =>
    if ringCount s < s.ringCap then
      match exec i s with
      | .next t => some t
      | _ => none
    else none
  | .decStep =>
    match exec i s with
    | .next t => if t.result = .done then some t else none
    | _ => none
  | _ => none

/-- The run of a list of operations. -/
def liveRun : List Instr → State → Option State
  | [], s => some s
  | i :: rest, s =>
    match liveStep i s with
    | some t => liveRun rest t
    | none => none

/-- The bytes a list of operations delivers, in order. -/
def bytesOf : List Instr → List Byte
  | [] => []
  | .rxByte b :: rest => b :: bytesOf rest
  | _ :: rest => bytesOf rest

/-- How many `DEC_STEP`s a list of operations holds. -/
def decStepsOf : List Instr → Nat
  | [] => 0
  | .decStep :: rest => decStepsOf rest + 1
  | _ :: rest => decStepsOf rest

end Sys2Proof.Machine
end

