-- ==== Sys2Proof/Certificates/Slice0/Obligations.lean ====
section
/-! DEFINITION. The statements for the provers. Each says which rule of the spec it formalises, or that it is derived. -/

open Sys2Proof Sys2Proof.Machine

/-! ## Encodings (30_encoding.md) -/

/-- Words and wire bytes written out from the encoding tables of R75, R85 to R89 decode to their instructions. -/
def Obligations.WrittenWordsDecode : Prop :=
  decodeWord 0x10000055 = .ok (.rxByte 0x55) ∧ decodeWord 0x20000000 = .ok .decStep ∧
  decodeWord 0x30000100 = .ok (.pktRead 1) ∧ decodeWord 0x500001FF = .ok (.pixWrite 1 0xFF) ∧
  decodeWord 0x90000600 = .ok (.fbRead 6) ∧ decodeWord 0xF0000000 = .ok .reset ∧
  decodeWord 0xE1234567 = .ok (.reservedOpE 0x1234567) ∧ decodeWord 0x10000155 = .error .reservedOperand ∧
  decodeWord 0x3FFFFF05 = .error .reservedOperand ∧
  decodeWire 0 0 4 0x55 = some (.wMagicU 0x55#8) ∧ decodeWire 1 0 4 0x55 = some (.wMagicMiss 0x55) ∧
  decodeWire 4 0 4 0x55 = some (.wLenLo 0x55) ∧ decodeWire 9 4 2 0xBE = some (.wPayDrop 0xBE)

/-- Decode and encode agree: every well-formed instruction of the table, CMD32 operation, reserved code or wire class,
with every operand, is read back from its encoding at every cursor where R75 allows it. -/
def Obligations.DecodeReadsBackEveryEncoding : Prop :=
  ∀ (i : Instr) (c : WireContext), i.wellFormed = true → i.allowedAt c = true → decodeAt c (encode i) = some i

/-- A word selects the operation of the one row whose match it has under the row's mask, with the operands of R85: the
table of R87, which the spec marks as derived ("[derived: from rules R85 and R86]"). -/
def Obligations.MatchAndMaskSelectTheOperation : Prop :=
  ∀ w : Word,
    (w &&& 0xFFFFFF00 = 0x10000000 ↔ decodeWord w = .ok (.rxByte (w.extractLsb' 0 8))) ∧
    (w &&& 0xFFFFFFFF = 0x20000000 ↔ decodeWord w = .ok .decStep) ∧
    (w &&& 0xF00000FF = 0x30000000 ↔ decodeWord w = .ok (.pktRead (w.extractLsb' 8 20))) ∧
    (w &&& 0xFFFFFFFF = 0x40000000 ↔ decodeWord w = .ok .sigTake) ∧
    (w &&& 0xF0000000 = 0x50000000 ↔ decodeWord w = .ok (.pixWrite (w.extractLsb' 8 20) (w.extractLsb' 0 8))) ∧
    (w &&& 0xFFFFFF00 = 0x60000000 ↔ decodeWord w = .ok (.encByte (w.extractLsb' 0 8))) ∧
    (w &&& 0xFFFFFFFF = 0x70000000 ↔ decodeWord w = .ok .encStart) ∧
    (w &&& 0xFFFFFFFF = 0x80000000 ↔ decodeWord w = .ok .encStep) ∧
    (w &&& 0xF00000FF = 0x90000000 ↔ decodeWord w = .ok (.fbRead (w.extractLsb' 8 20))) ∧
    (w &&& 0xFFFFFFFF = 0xF0000000 ↔ decodeWord w = .ok .reset)

/-- R88: the six reserved operation codes raise RESERVED_OPCODE on every path, and a word that holds one changes no
state but the fault record. -/
def Obligations.ReservedOpcodesFault : Prop :=
  (∀ (rest : BitVec 28) (s : State),
    exec (.reservedOp0 rest) s = .fault .reservedOpcode ∧ exec (.reservedOpA rest) s = .fault .reservedOpcode ∧
    exec (.reservedOpB rest) s = .fault .reservedOpcode ∧ exec (.reservedOpC rest) s = .fault .reservedOpcode ∧
    exec (.reservedOpD rest) s = .fault .reservedOpcode ∧ exec (.reservedOpE rest) s = .fault .reservedOpcode) ∧
  (∀ (w : Word) (s : State),
    w.extractLsb' 28 4 ∈ [0x0#4, 0xA#4, 0xB#4, 0xC#4, 0xD#4, 0xE#4] →
    ∃ t, runWord w s = .next t ∧ t.faults.has .reservedOpcode = true ∧
      { t with faults := s.faults, result := s.result } = s)

/-- R89: an assigned operation code with a must-be-zero field that is not zero raises RESERVED_OPERAND, whatever the
operation would have checked, and changes no state but the fault record. -/
def Obligations.ReservedOperandsFault : Prop :=
  ∀ (w : Word) (s : State),
    (w.extractLsb' 28 4 ∈ [0x1#4, 0x6#4] ∧ w.extractLsb' 8 20 ≠ 0#20 ∨
      w.extractLsb' 28 4 ∈ [0x2#4, 0x4#4, 0x7#4, 0x8#4, 0xF#4] ∧
        (w.extractLsb' 8 20 ≠ 0#20 ∨ w.extractLsb' 0 8 ≠ 0#8) ∨
      w.extractLsb' 28 4 ∈ [0x3#4, 0x9#4] ∧ w.extractLsb' 0 8 ≠ 0#8) →
    ∃ t, runWord w s = .next t ∧ t.faults.has .reservedOperand = true ∧ t.result = .faulted .reservedOperand ∧
      { t with faults := s.faults, result := s.result } = s

/-- The lines of R92: each mnemonic, with its operands in range (a byte into `dat`, an index into `idx`, whatever form
the number is written in), assembles to a word that decodes to that operation with those operands, issued by the agent
of the prefix and without one by the agent of R86. A number that does not fit, and a character literal outside ASCII,
make no command (the model's choice, log entry 13), and nothing assembles to a word that decodes to no operation. -/
def Obligations.AssembledLinesDecode : Prop :=
  (∀ (n : Nat) (c : Char),
    (Literal.dec n).value = some n ∧ (Literal.hex n).value = some n ∧
    (c.toNat < 128 → (Literal.chr c).value = some c.toNat) ∧ (128 ≤ c.toNat → (Literal.chr c).value = none)) ∧
  (∀ (g : Option Agent) (x : Literal) (m : Nat), x.value = some m → m < 256 →
    (∃ c, assemble { agent := g, mnemonic := .rxByte, operands := [x] } = some c ∧ c.agent = g.getD .uart ∧
      decodeWord c.word = .ok (.rxByte (BitVec.ofNat 8 m))) ∧
    (∃ c, assemble { agent := g, mnemonic := .encByte, operands := [x] } = some c ∧ c.agent = g.getD .host ∧
      decodeWord c.word = .ok (.encByte (BitVec.ofNat 8 m)))) ∧
  (∀ (g : Option Agent) (x : Literal) (m : Nat), x.value = some m → m < 2 ^ 20 →
    (∃ c, assemble { agent := g, mnemonic := .pktRead, operands := [x] } = some c ∧ c.agent = g.getD .cons ∧
      decodeWord c.word = .ok (.pktRead (BitVec.ofNat 20 m))) ∧
    (∃ c, assemble { agent := g, mnemonic := .fbRead, operands := [x] } = some c ∧ c.agent = g.getD .periph ∧
      decodeWord c.word = .ok (.fbRead (BitVec.ofNat 20 m)))) ∧
  (∀ (g : Option Agent) (x y : Literal) (m n : Nat),
    x.value = some m → y.value = some n → m < 2 ^ 20 → n < 256 →
    ∃ c, assemble { agent := g, mnemonic := .pixWrite, operands := [x, y] } = some c ∧ c.agent = g.getD .host ∧
      decodeWord c.word = .ok (.pixWrite (BitVec.ofNat 20 m) (BitVec.ofNat 8 n))) ∧
  (∀ g : Option Agent,
    assemble { agent := g, mnemonic := .decStep, operands := [] } = some { agent := g.getD .dec, word := 0x20000000 } ∧
    assemble { agent := g, mnemonic := .sigTake, operands := [] } = some { agent := g.getD .cons, word := 0x40000000 } ∧
    assemble { agent := g, mnemonic := .encStart, operands := [] } =
      some { agent := g.getD .host, word := 0x70000000 } ∧
    assemble { agent := g, mnemonic := .encStep, operands := [] } = some { agent := g.getD .enc, word := 0x80000000 } ∧
    assemble { agent := g, mnemonic := .reset, operands := [] } =
      some { agent := g.getD .platform, word := 0xF0000000 }) ∧
  (∀ (g : Option Agent) (x y : Literal),
    ((∀ m, x.value = some m → 256 ≤ m) → assemble { agent := g, mnemonic := .rxByte, operands := [x] } = none ∧
      assemble { agent := g, mnemonic := .encByte, operands := [x] } = none) ∧
    ((∀ m, x.value = some m → 2 ^ 20 ≤ m) → assemble { agent := g, mnemonic := .pktRead, operands := [x] } = none ∧
      assemble { agent := g, mnemonic := .fbRead, operands := [x] } = none) ∧
    ((∀ m, x.value = some m → 2 ^ 20 ≤ m) ∨ (∀ n, y.value = some n → 256 ≤ n) →
      assemble { agent := g, mnemonic := .pixWrite, operands := [x, y] } = none)) ∧
  (∀ (l : Line) (c : Command), assemble l = some c →
    ∃ i, decodeWord c.word = .ok i ∧ (∀ a, l.agent = some a → c.agent = a) ∧
      (l.agent = none → issuer (opField c.word) = some c.agent))

/-! ## Steps and faults (00_scope.md R11, 20_memory.md R60, 60_exceptions.md) -/

/-- A step runs the decoded instruction: with an admitted command at the head of the schedule, the step is that
command's meaning on the state with the command issued, and what a fault leaves is the fault record's state. RESET is
admitted and runs before the first RESET too (R230, R234). The schedule is the model's choice (log entries 4, 7 and
8). -/
def Obligations.StepRunsTheIssuedOperation : Prop :=
  ∀ (s : State) (c : Command) (rest : List Command) (i : Instr),
    s.pending = c :: rest → s.params.admissible = true → (s.started = true ∨ i = .reset) →
    decodeWord c.word = .ok i →
    (issuer (opField c.word) = some c.agent ∨ issuer (opField c.word) = none) →
    (∀ t, exec i { s with pending := rest } = .next t → step s = .next t) ∧
    (∀ r, exec i { s with pending := rest } = .fault r →
      step s = .next (State.recordFault { s with pending := rest } r)) ∧
    (∀ r, exec i { s with pending := rest } = .refused r → step s = .refused r)

/-- A faulted step changes no state but the fault record, which gains exactly its reason; it returns nothing and emits
no event (R208). That the run has a state after it is log entry 4. -/
def Obligations.FaultedStepOnlyRecords : Prop :=
  ∀ (s : State) (c : Command) (rest : List Command) (i : Instr) (r : Fault),
    s.pending = c :: rest → s.params.admissible = true → s.started = true → decodeWord c.word = .ok i →
    (issuer (opField c.word) = some c.agent ∨ issuer (opField c.word) = none) →
    exec i { s with pending := rest } = .fault r →
    ∃ t, step s = .next t ∧ t.result = .faulted r ∧ t.events = s.events ∧
      (∀ q, t.faults.has q = true ↔ s.faults.has q = true ∨ q = r) ∧
      { t with faults := s.faults, result := s.result, pending := s.pending } = s

/-- What a step refuses: a block outside R8; before the first RESET, every command but RESET (R234); an operation
issued by another agent than its own (R86). The order and the further bounds of a block are the model's choice (log
entries 3 and 10). -/
def Obligations.StepRefusesWhatIsNotAdmitted : Prop :=
  ∀ (s : State) (c : Command) (rest : List Command), s.pending = c :: rest →
    (s.params.admissible = false → step s = .refused .blockNotAdmitted) ∧
    (s.params.admissible = true → s.started = false → decodeWord c.word ≠ .ok .reset →
      step s = .refused .beforeReset) ∧
    (∀ a, s.params.admissible = true → (s.started = true ∨ decodeWord c.word = .ok .reset) →
      issuer (opField c.word) = some a → a ≠ c.agent → step s = .refused .wrongAgent)

/-- R44: the fault record starts empty and only grows, RESET does not clear it, and no operation reads it. -/
def Obligations.FaultRecordOnlyGrows : Prop :=
  (∀ r, State.reset.faults.has r = false) ∧
  (∀ (s t : State) (r : Fault), step s = .next t → s.faults.has r = true → t.faults.has r = true) ∧
  (∀ s t : State, exec .reset s = .next t → t.faults = s.faults) ∧
  (∀ (i : Instr) (s : State) (f : FaultRecord),
    (∀ t, exec i s = .next t → exec i { s with faults := f } = .next { t with faults := f }) ∧
    (∀ r, exec i s = .fault r → exec i { s with faults := f } = .fault r))

/-- R94: an operation that completes returns a byte exactly when it is `PKT_READ` and a word exactly when it is
`ENC_BYTE` or `FB_READ`; one that is held answers neither, and one that faults answers its reason alone. -/
def Obligations.OnlyReadsReturnValues : Prop :=
  ∀ (i : Instr) (s : State),
    (∀ t, exec i s = .next t →
      ((∃ b, t.result = .byte b) ↔ ∃ n, i = .pktRead n) ∧
      ((∃ w, t.result = .word w) ↔ (∃ b, i = .encByte b) ∨ ∃ n, i = .fbRead n)) ∧
    (∀ r, exec i s = .fault r → ∃ t, settle s (exec i s) = .next t ∧ t.result = .faulted r)

/-- R200: a step appends at most one event to the trace and removes none. -/
def Obligations.AtMostOneEventPerStep : Prop :=
  ∀ s t : State, step s = .next t → t.events = s.events ∨ ∃ e, t.events = s.events ++ [e]

/-- R248: no step writes a configuration register or a parameter: RESET loads the same values again, and no other
operation touches them. -/
def Obligations.ConfigurationNeverChanges : Prop :=
  (∀ s t : State, step s = .next t → t.params = s.params ∧ (s.cfg = loadCfg s.params → t.cfg = s.cfg)) ∧
  (∀ (i : Instr) (s t : State), i ≠ .reset → exec i s = .next t → t.cfg = s.cfg)

/-! ## The Serial Frame Decoder (40_frame_decoder.md) -/

/-- `RX_BYTE` appends the byte at the ring's tail while the ring has room, and writes nothing else. -/
def Obligations.RxByteAppends : Prop :=
  ∀ (b : Byte) (s : State), s.ring.length < s.ringCap →
    exec (.rxByte b) s = .next { s with ring := s.ring ++ [b], result := .done }

/-- R105: at a full ring the byte is discarded with `EVT_RX_OVERRUN`; no other state changes and the agent is not
held. -/
def Obligations.FullRingDropsTheByte : Prop :=
  ∀ (b : Byte) (s : State), s.ringCap ≤ s.ring.length →
    exec (.rxByte b) s = .next { s with events := s.events ++ [.rxOverrun b], result := .done }

/-- R108 to R111: at cursors 0 to 3 the matching byte is popped and stored in its magic register, and the cursor moves
on; the wire class as an instruction and `DEC_STEP` do the same. -/
def Obligations.MagicBytesAdvanceTheCursor : Prop :=
  ∀ (s : State) (rest : List Byte) (len pktMax : Nat),
    (s.hdr.idx = 0#32 → s.ring = 0x55#8 :: rest →
      decodeWire 0 len pktMax 0x55#8 = some (.wMagicU 0x55#8) ∧
      exec (.wMagicU 0x55#8) s =
        .next { s with ring := rest, hdr := { s.hdr with idx := 1#32, magic0 := 0x55#8 }, result := .done } ∧
      exec .decStep s = exec (.wMagicU 0x55#8) s) ∧
    (s.hdr.idx = 1#32 → s.ring = 0x41#8 :: rest →
      decodeWire 1 len pktMax 0x41#8 = some (.wMagicA 0x41#8) ∧
      exec (.wMagicA 0x41#8) s =
        .next { s with ring := rest, hdr := { s.hdr with idx := 2#32, magic1 := 0x41#8 }, result := .done } ∧
      exec .decStep s = exec (.wMagicA 0x41#8) s) ∧
    (s.hdr.idx = 2#32 → s.ring = 0x52#8 :: rest →
      decodeWire 2 len pktMax 0x52#8 = some (.wMagicR 0x52#8) ∧
      exec (.wMagicR 0x52#8) s =
        .next { s with ring := rest, hdr := { s.hdr with idx := 3#32, magic2 := 0x52#8 }, result := .done } ∧
      exec .decStep s = exec (.wMagicR 0x52#8) s) ∧
    (s.hdr.idx = 3#32 → s.ring = 0x54#8 :: rest →
      decodeWire 3 len pktMax 0x54#8 = some (.wMagicT 0x54#8) ∧
      exec (.wMagicT 0x54#8) s =
        .next { s with ring := rest, hdr := { s.hdr with idx := 4#32, magic3 := 0x54#8 }, result := .done } ∧
      exec .decStep s = exec (.wMagicT 0x54#8) s)

/-- R112: a byte that does not match is popped and not compared again, the header is cleared, and the mismatch is
logged; the signal and the Packet Buffer are untouched. At a clear header only the pop and the event are left, and
`UUART` does not synchronise on its second `U`. -/
def Obligations.MagicMissResynchronises : Prop :=
  (∀ (s : State) (b : Byte) (rest : List Byte) (len pktMax : Nat),
    s.cursor ≤ 3 → s.ring = b :: rest → b ≠ magic s.cursor →
    decodeWire s.cursor len pktMax b = some (.wMagicMiss b) ∧
    exec (.wMagicMiss b) s =
      .next { s with
        ring := rest
        hdr := { idx := 0#32, magic0 := 0#8, magic1 := 0#8, magic2 := 0#8, magic3 := 0#8, len := 0#16, crc := 0#8 }
        events := s.events ++ [.magicMismatch s.cursor b]
        result := .done } ∧
    exec .decStep s = exec (.wMagicMiss b) s) ∧
  (∀ (s : State) (b : Byte) (rest : List Byte), s.hdr = Header.zero → s.ring = b :: rest → b ≠ 0x55#8 →
    exec .decStep s = .next { s with ring := rest, events := s.events ++ [.magicMismatch 0 b], result := .done }) ∧
  (∀ (s : State) (rest : List Byte),
    s.hdr = Header.zero → s.ring = [0x55#8, 0x55#8, 0x41#8, 0x52#8, 0x54#8] ++ rest →
    runInstrs (decRun 5) s =
      .next { s with
        ring := rest
        events := s.events ++
          [.magicMismatch 1 0x55#8, .magicMismatch 0 0x41#8, .magicMismatch 0 0x52#8, .magicMismatch 0 0x54#8]
        result := .done })

/-- R113, R114, R115: the bytes at cursors 4 and 5 are the low and the high half of the little-endian length, the byte
at cursor 6 is the CRC byte, not judged there; any value is accepted. -/
def Obligations.LengthAndCrcBytesAreStored : Prop :=
  ∀ (s : State) (b : Byte) (rest : List Byte) (len pktMax : Nat), s.ring = b :: rest →
    (s.hdr.idx = 4#32 →
      decodeWire 4 len pktMax b = some (.wLenLo b) ∧
      exec (.wLenLo b) s =
        .next { s with
          ring := rest, hdr := { s.hdr with idx := 5#32, len := s.hdr.len.extractLsb' 8 8 ++ b }, result := .done } ∧
      exec .decStep s = exec (.wLenLo b) s) ∧
    (s.hdr.idx = 5#32 →
      decodeWire 5 len pktMax b = some (.wLenHi b) ∧
      exec (.wLenHi b) s =
        .next { s with
          ring := rest, hdr := { s.hdr with idx := 6#32, len := b ++ s.hdr.len.extractLsb' 0 8 }, result := .done } ∧
      exec .decStep s = exec (.wLenHi b) s) ∧
    (s.hdr.idx = 6#32 →
      decodeWire 6 len pktMax b = some (.wCrc b) ∧
      exec (.wCrc b) s =
        .next { s with ring := rest, hdr := { s.hdr with idx := 7#32, crc := b }, result := .done } ∧
      exec .decStep s = exec (.wCrc b) s)

/-- R118 with R122: payload element `k` inside the Packet Buffer is popped and stored there, nothing else of the
buffer changes, and the frame commits exactly at element `T - 1`. At cursor 7 the count and the CRC have been checked
(R117). -/
def Obligations.PayloadByteIsCopied : Prop :=
  ∀ (s : State) (b : Byte) (rest : List Byte),
    7 ≤ s.cursor → s.ring = b :: rest → s.cursor - 7 < s.hdr.len.toNat → s.cursor - 7 < s.cfg.pktMax.toNat →
    (s.cursor = 7 → s.hdr.len.toNat ≤ s.ring.length ∧
      crcCheck s.params.crcHook s.hdr.crc s.hdr.len (s.ring.take s.hdr.len.toNat) = true) →
    ∃ t, decodeWire s.cursor s.hdr.len.toNat s.cfg.pktMax.toNat b = some (.wPayCopy b) ∧
      exec (.wPayCopy b) s = .next t ∧ exec .decStep s = .next t ∧
      memRead t.pkt (s.cursor - 7) = some b ∧ (∀ j, j ≠ s.cursor - 7 → memRead t.pkt j = memRead s.pkt j) ∧
      t = if s.cursor - 7 + 1 = max s.hdr.len.toNat s.cfg.pktMax.toNat then
          { s with
            ring := rest, pkt := t.pkt, newData := true, hdr := Header.zero
            events := s.events ++ [.frameCommit s.hdr.len], result := .done }
        else { s with ring := rest, pkt := t.pkt, hdr := { s.hdr with idx := s.hdr.idx + 1#32 }, result := .done }

/-- R119 with R122: a payload byte past the Packet Buffer is popped and discarded; no element is written. -/
def Obligations.ExcessPayloadByteIsDropped : Prop :=
  ∀ (s : State) (b : Byte) (rest : List Byte),
    7 ≤ s.cursor → s.ring = b :: rest → s.cursor - 7 < s.hdr.len.toNat → s.cfg.pktMax.toNat ≤ s.cursor - 7 →
    (s.cursor = 7 → s.hdr.len.toNat ≤ s.ring.length ∧
      crcCheck s.params.crcHook s.hdr.crc s.hdr.len (s.ring.take s.hdr.len.toNat) = true) →
    ∃ t, decodeWire s.cursor s.hdr.len.toNat s.cfg.pktMax.toNat b = some (.wPayDrop b) ∧
      exec (.wPayDrop b) s = .next t ∧ exec .decStep s = .next t ∧
      t = if s.cursor - 7 + 1 = max s.hdr.len.toNat s.cfg.pktMax.toNat then
          { s with
            ring := rest, newData := true, hdr := Header.zero
            events := s.events ++ [.frameCommit s.hdr.len], result := .done }
        else { s with ring := rest, hdr := { s.hdr with idx := s.hdr.idx + 1#32 }, result := .done }

/-- R120 with R122: past the payload an element of the Packet Buffer is set to zero and no byte is popped, even with an
empty ring. -/
def Obligations.PacketTailIsZeroFilled : Prop :=
  ∀ s : State,
    7 ≤ s.cursor → s.hdr.len.toNat ≤ s.cursor - 7 → s.cursor - 7 < s.cfg.pktMax.toNat →
    (s.cursor = 7 → crcCheck s.params.crcHook s.hdr.crc s.hdr.len [] = true) →
    ∃ t, exec .decStep s = .next t ∧
      memRead t.pkt (s.cursor - 7) = some 0#8 ∧ (∀ j, j ≠ s.cursor - 7 → memRead t.pkt j = memRead s.pkt j) ∧
      t = if s.cursor - 7 + 1 = max s.hdr.len.toNat s.cfg.pktMax.toNat then
          { s with
            pkt := t.pkt, newData := true, hdr := Header.zero
            events := s.events ++ [.frameCommit s.hdr.len], result := .done }
        else { s with pkt := t.pkt, hdr := { s.hdr with idx := s.hdr.idx + 1#32 }, result := .done }

/-- R121: when the CRC check fails the header is cleared and the failure logged with the values from before; the payload
stays in the ring, the Packet Buffer and the signal are untouched. The reference hook never fails. -/
def Obligations.CrcFailureDiscardsTheHeader : Prop :=
  (∀ s : State, s.hdr.idx = 7#32 → s.hdr.len.toNat ≤ s.ring.length →
    crcCheck s.params.crcHook s.hdr.crc s.hdr.len (s.ring.take s.hdr.len.toNat) = false →
    exec .decStep s =
      .next { s with
        hdr := { idx := 0#32, magic0 := 0#8, magic1 := 0#8, magic2 := 0#8, magic3 := 0#8, len := 0#16, crc := 0#8 }
        events := s.events ++ [.crcFail s.hdr.crc s.hdr.len]
        result := .done }) ∧
  (∀ (crc : Byte) (len : Half) (payload : List Byte), crcCheck .acceptAll crc len payload = true)

/-- R107, R116: with no header byte, or with less than the whole payload in the ring, the decoder waits and nothing
changes; the first wait lasts until an `RX_BYTE` adds a byte, the second until enough bytes have arrived. -/
def Obligations.DecoderWaitsWithoutLoss : Prop :=
  ∀ s : State,
    (s.cursor ≤ 6 → s.ring = [] →
      exec .decStep s = .next { s with result := .held } ∧
      ∀ (i : Instr) (t : State), (∀ b, i ≠ .rxByte b) → exec i s = .next t → t.cursor ≤ 6 ∧ t.ring = []) ∧
    (s.hdr.idx = 7#32 → s.ring.length < s.hdr.len.toNat →
      exec .decStep s = .next { s with result := .held } ∧
      ∀ (bs : List Byte) (t : State), s.hdr.len.toNat ≤ s.ring.length + bs.length →
        exec .decStep { s with ring := s.ring ++ bs } = .next t → t.result = .done)

/-- R134: under the invariants of R132 `DEC_STEP` always answers a next state; it takes effect exactly when it is
enabled, and otherwise nothing changes. `DEC_DRAIN` is finitely many `DEC_STEP`s, each of them enabled, and ends
exactly when `DEC_STEP` is no longer enabled. -/
def Obligations.DecStepEnabledExactly : Prop :=
  (∀ s : State, SfdInv s → 1 ≤ s.cfg.pktMax.toNat → s.cfg.pktMax.toNat ≤ 2 ^ 20 →
    ∃ n t, decDrain s = .next t ∧ runInstrs (decRun n) s = .next t ∧ decEnabled t = false ∧
      ∀ m < n, ∃ u, runInstrs (decRun m) s = .next u ∧ decEnabled u = true) ∧
  ∀ s : State, SfdInv s →
    ∃ t, exec .decStep s = .next t ∧
      (t.result = .done ↔
        (s.cursor ≤ 6 ∧ 1 ≤ s.ring.length) ∨ (s.cursor = 7 ∧ s.hdr.len.toNat ≤ s.ring.length) ∨ 8 ≤ s.cursor) ∧
      (t.result ≠ .done → t = { s with result := .held })

/-- The decoder engine executes wire bytes: where the engine reads a wire class (R75), `DEC_STEP` is that class's
meaning. -/
def Obligations.DecStepRunsTheWireClass : Prop :=
  ∀ (s : State) (i : Instr), nextWire s = some i → exec .decStep s = exec i s

/-- The model's choice (log entry 5): a wire class as an instruction is held, and changes nothing, wherever the engine
does not read exactly that instruction. -/
def Obligations.WireClassHeldWhereNotRead : Prop :=
  ∀ (s : State) (i : Instr),
    (∃ b, i = .wMagicU b ∨ i = .wMagicA b ∨ i = .wMagicR b ∨ i = .wMagicT b ∨ i = .wMagicMiss b ∨ i = .wLenLo b ∨
      i = .wLenHi b ∨ i = .wCrc b ∨ i = .wPayCopy b ∨ i = .wPayDrop b) →
    nextWire s ≠ some i → exec i s = .next { s with result := .held }

/-- The model's choice (log entry 6), in states that break the invariants: a zero fill past `PKT_MAX` and an assembly
position past `FB_LEN` fault as indices outside their space, and a payload byte missing from the ring holds the
engine. -/
def Obligations.EnginesOutsideTheirRangeStop : Prop :=
  ∀ s : State,
    (7 ≤ s.cursor → s.hdr.len.toNat ≤ s.cursor - 7 → s.cfg.pktMax.toNat ≤ s.cursor - 7 →
      (s.cursor = 7 → crcCheck s.params.crcHook s.hdr.crc s.hdr.len [] = true) →
      exec .decStep s = .fault .indexRange) ∧
    (8 ≤ s.cursor → s.cursor - 7 < s.hdr.len.toNat → s.ring = [] →
      exec .decStep s = .next { s with result := .held }) ∧
    (s.encReady = true → s.encBusy = true → s.cfg.fbLen ≤ s.encPos.toNat → exec .encStep s = .fault .indexRange)

/-- From R64, which the spec marks as derived: a `DEC_STEP` writes the Packet Buffer only at cursor 7 after the CRC
check passed, or at cursor 8 and above; no other operation but RESET writes it. -/
def Obligations.PacketWrittenOnlyDuringCommit : Prop :=
  (∀ s t : State, exec .decStep s = .next t →
    (s.cursor ≤ 6 ∨ s.cursor = 7 ∧ (s.ring.length < s.hdr.len.toNat ∨
      crcCheck s.params.crcHook s.hdr.crc s.hdr.len (s.ring.take s.hdr.len.toNat) = false)) → t.pkt = s.pkt) ∧
  (∀ (w : Word) (i : Instr) (s t : State), decodeWord w = .ok i → i ≠ .decStep → i ≠ .reset →
    exec i s = .next t → t.pkt = s.pkt)

/-- `PKT_READ` returns the element, which must be inside the buffer and written since RESET, and changes nothing. -/
def Obligations.PktReadReturnsTheElement : Prop :=
  ∀ (n : Index) (s : State),
    (∀ b, n.toNat < s.cfg.pktMax.toNat → memRead s.pkt n.toNat = some b →
      exec (.pktRead n) s = .next { s with result := .byte b }) ∧
    (n.toNat < s.cfg.pktMax.toNat → memRead s.pkt n.toNat = none → exec (.pktRead n) s = .fault .unwrittenRead) ∧
    (s.cfg.pktMax.toNat ≤ n.toNat → exec (.pktRead n) s = .fault .indexRange)

/-- `SIG_TAKE` clears a raised signal and is held without one. -/
def Obligations.SigTakeConsumesTheSignal : Prop :=
  ∀ s : State,
    (s.newData = true → exec .sigTake s = .next { s with newData := false, result := .done }) ∧
    (s.newData = false → exec .sigTake s = .next { s with result := .held })

/-- R117 to R125: a whole frame whose bytes are in the ring is delivered by `7 + max(len, PKT_MAX)` `DEC_STEP`s: the
Packet Buffer holds the payload, truncated or zero-padded, the signal is raised, the header is clear, exactly the
frame's bytes are consumed, and exactly one commit is logged. -/
def Obligations.WholeFrameIsDelivered : Prop :=
  ∀ (s : State) (len : Half) (crc : Byte) (payload rest : List Byte),
    s.hdr = Header.zero → len.toNat = payload.length → 1 ≤ s.cfg.pktMax.toNat → s.cfg.pktMax.toNat ≤ 2 ^ 20 →
    s.ring = [0x55#8, 0x41#8, 0x52#8, 0x54#8, len.extractLsb' 0 8, len.extractLsb' 8 8, crc] ++ payload ++ rest →
    crcCheck s.params.crcHook crc len payload = true →
    ∃ t, runInstrs (decRun (7 + max payload.length s.cfg.pktMax.toNat)) s = .next t ∧
      (∀ k < s.cfg.pktMax.toNat, memRead t.pkt k = some (payload.getD k 0#8)) ∧
      (∀ k, s.cfg.pktMax.toNat ≤ k → memRead t.pkt k = memRead s.pkt k) ∧
      t = { s with
        ring := rest, pkt := t.pkt, newData := true
        events := s.events ++ [.frameCommit len], result := .done }

/-- The collapse of R131, which the spec marks as derived: two frames committed with no `SIG_TAKE` between them leave
one signal and the last frame: one `SIG_TAKE` completes, the next is held. -/
def Obligations.SignalsCollapse : Prop :=
  ∀ (s : State) (len1 len2 : Half) (crc1 crc2 : Byte) (p1 p2 rest : List Byte),
    s.hdr = Header.zero → len1.toNat = p1.length → len2.toNat = p2.length →
    1 ≤ s.cfg.pktMax.toNat → s.cfg.pktMax.toNat ≤ 2 ^ 20 →
    s.ring = frameBytes len1 crc1 p1 ++ (frameBytes len2 crc2 p2 ++ rest) →
    crcCheck s.params.crcHook crc1 len1 p1 = true → crcCheck s.params.crcHook crc2 len2 p2 = true →
    ∃ t u v,
      runInstrs (decRun (7 + max p1.length s.cfg.pktMax.toNat) ++ decRun (7 + max p2.length s.cfg.pktMax.toNat)) s =
        .next t ∧
      (∀ k < s.cfg.pktMax.toNat, memRead t.pkt k = some (p2.getD k 0#8)) ∧ t.newData = true ∧ t.ring = rest ∧
      exec .sigTake t = .next u ∧ u.result = .done ∧ exec .sigTake u = .next v ∧ v.result = .held

/-- R126: a frame longer than the ring stalls the decoder for good: while it lasts `DEC_STEP` is held without an event,
no operation but RESET changes the header, the Packet Buffer or raises the signal, a full ring drops every byte, and
RESET leaves the stall. -/
def Obligations.StallLastsUntilReset : Prop :=
  ∀ s : State, SfdInv s → Stalled s →
    exec .decStep s = .next { s with result := .held } ∧
    (∀ (i : Instr) (t : State), i ≠ .reset → exec i s = .next t →
      Stalled t ∧ SfdInv t ∧ t.hdr = s.hdr ∧ t.pkt = s.pkt ∧ (t.newData = true → s.newData = true)) ∧
    (∀ b : Byte, s.ring.length = s.ringCap →
      exec (.rxByte b) s = .next { s with events := s.events ++ [.rxOverrun b], result := .done }) ∧
    ∃ t, exec .reset s = .next t ∧ ¬ Stalled t

/-- From R135, which the spec marks as derived: what is decoded depends on the accepted bytes alone: two schedules of
`RX_BYTE` and `DEC_STEP` that deliver the same bytes and take as many decoder steps, with nothing dropped and nothing
held, end in the same state. -/
def Obligations.InterleavingDoesNotMatter : Prop :=
  ∀ (l1 l2 : List Instr) (s t1 t2 : State),
    bytesOf l1 = bytesOf l2 → decStepsOf l1 = decStepsOf l2 →
    liveRun l1 s = some t1 → liveRun l2 s = some t2 → t1 = t2

/-! ## The Bit-Serial LED Encoder (41_led_encoder.md) -/

/-- `PIX_WRITE` writes one pixel-buffer byte inside the buffer, whether or not the encoder is ready or busy, and nothing
else; outside the buffer it faults. -/
def Obligations.PixWriteWritesOneByte : Prop :=
  ∀ (n : Index) (v : Byte) (s : State),
    (n.toNat < 4 * s.cfg.numPixels.toNat →
      ∃ t, exec (.pixWrite n v) s = .next t ∧ memRead t.pix n.toNat = some v ∧
        (∀ j, j ≠ n.toNat → memRead t.pix j = memRead s.pix j) ∧ t = { s with pix := t.pix, result := .done }) ∧
    (4 * s.cfg.numPixels.toNat ≤ n.toNat → exec (.pixWrite n v) s = .fault .indexRange)

/-- `ENC_BYTE` returns `Encode(b)` and changes nothing, also while an assembly runs. -/
def Obligations.EncByteReturnsTheWord : Prop :=
  ∀ (b : Byte) (s : State), s.encReady = true →
    exec (.encByte b) s = .next { s with result := .word (encodeByte s.cfg.polarity b) }

/-- R77, R160, R161, R79: the pre-swap word holds the symbol of bit `i` in nibble `i`, the final word is its two halves
exchanged, and the final word by bit field, with the symbols of R76 for both polarities; the worked examples. -/
def Obligations.EncodedWordByBitField : Prop :=
  encodeByte 0#1 0x00 = 0x88888888 ∧ encodeByte 0#1 0xFF = 0xEEEEEEEE ∧ encodeByte 0#1 0x01 = 0x888E8888 ∧
  ∀ (pol : BitVec 1) (b : Byte) (one zero : BitVec 4),
    (one = if pol = 0#1 then 0xE#4 else 0x1#4) → (zero = if pol = 0#1 then 0x8#4 else 0x7#4) →
    (∀ i < 8, (preSwap pol b).extractLsb' (4 * i) 4 = if b.getLsbD i then one else zero) ∧
    encodeByte pol b = (preSwap pol b).extractLsb' 0 16 ++ (preSwap pol b).extractLsb' 16 16 ∧
    (encodeByte pol b).extractLsb' 28 4 = (if b.getLsbD 3 then one else zero) ∧
    (encodeByte pol b).extractLsb' 24 4 = (if b.getLsbD 2 then one else zero) ∧
    (encodeByte pol b).extractLsb' 20 4 = (if b.getLsbD 1 then one else zero) ∧
    (encodeByte pol b).extractLsb' 16 4 = (if b.getLsbD 0 then one else zero) ∧
    (encodeByte pol b).extractLsb' 12 4 = (if b.getLsbD 7 then one else zero) ∧
    (encodeByte pol b).extractLsb' 8 4 = (if b.getLsbD 6 then one else zero) ∧
    (encodeByte pol b).extractLsb' 4 4 = (if b.getLsbD 5 then one else zero) ∧
    (encodeByte pol b).extractLsb' 0 4 = (if b.getLsbD 4 then one else zero)

/-- The inverse of R162, which the spec marks as derived from R160 and R161: the half-word exchange undoes itself, a
nibble of the pre-swap word is `SYM1` exactly where the input bit is set, and Encode is injective. -/
def Obligations.EncodeIsInvertible : Prop :=
  ∀ (pol : BitVec 1) (b c : Byte),
    swapHalves (encodeByte pol b) = preSwap pol b ∧
    (∀ i < 8, ((swapHalves (encodeByte pol b)).extractLsb' (4 * i) 4 = sym1 pol ↔ b.getLsbD i = true)) ∧
    (encodeByte pol b = encodeByte pol c → b = c)

/-- The polarity relation of R163, which the spec marks as derived from R76, R160 and R161: the active-low values are
the bitwise complements of the active-high ones. -/
def Obligations.PolarityComplements : Prop :=
  sym1 1#1 = ~~~ sym1 0#1 ∧ sym0 1#1 = ~~~ sym0 0#1 ∧ resetWord 1#1 = ~~~ resetWord 0#1 ∧
  (∀ b : Byte, encodeByte 1#1 b = ~~~ encodeByte 0#1 b) ∧
  encodeByte 0#1 0x01 = 0x888E8888 ∧ encodeByte 1#1 0x01 = 0x77717777

/-- `ENC_START` begins an assembly when none runs and is held while one does; `ENC_STEP` is held while none runs (R165,
R166). The frame buffer is not touched. -/
def Obligations.EncoderStartsOnlyWhenIdle : Prop :=
  ∀ s : State, s.encReady = true →
    (s.encBusy = false →
      exec .encStart s = .next { s with encBusy := true, encPos := 0#32, encStatus := 0#2, result := .done } ∧
      exec .encStep s = .next { s with result := .held }) ∧
    (s.encBusy = true → exec .encStart s = .next { s with result := .held })

/-- R178: while bring-up has failed the four encoder operations fault before anything else, and change no state but the
fault record. -/
def Obligations.EncoderNotReadyFaults : Prop :=
  ∀ (s : State) (i : Instr), s.encReady = false →
    ((∃ b, i = .encByte b) ∨ i = .encStart ∨ i = .encStep ∨ ∃ n, i = .fbRead n) →
    exec i s = .fault .encNotReady ∧
    ∃ t, settle s (exec i s) = .next t ∧ { t with faults := s.faults, result := s.result } = s

/-- R167, R171, R172: at position 0 and past the data words `ENC_STEP` writes the reset word at its position and nothing
else of the frame buffer; after the last word the assembly is DONE. -/
def Obligations.EncStepWritesResetWords : Prop :=
  ∀ s : State, s.encReady = true → s.encBusy = true → s.encPos.toNat < s.cfg.fbLen →
    (s.encPos = 0#32 ∨ s.cfg.chanMap.length * s.cfg.numPixels.toNat < s.encPos.toNat) →
    ∃ t, exec .encStep s = .next t ∧
      memRead t.fb s.encPos.toNat = some (if s.cfg.polarity = 0#1 then 0x00000000#32 else 0xFFFFFFFF#32) ∧
      (∀ j, j ≠ s.encPos.toNat → memRead t.fb j = memRead s.fb j) ∧
      t = if s.encPos.toNat + 1 = s.cfg.fbLen then
          { s with
            fb := t.fb, encBusy := false, encPos := 0#32, encStatus := 1#2
            events := s.events ++ [.encDone s.cfg.fbLen], result := .done }
        else { s with fb := t.fb, encPos := s.encPos + 1#32, result := .done }

/-- R168, R169, R172: at a data position `ENC_STEP` writes the encoded byte of its pixel's channel, pixel-major, white
as zero, and nothing else of the frame buffer. -/
def Obligations.EncStepEncodesTheChannelByte : Prop :=
  ∀ (s : State) (p px c : Nat) (chan v : Byte),
    s.encReady = true → s.encBusy = true → s.encPos.toNat = p + 1 →
    p < s.cfg.chanMap.length * s.cfg.numPixels.toNat →
    px = p / s.cfg.chanMap.length → c = p % s.cfg.chanMap.length → s.cfg.chanMap[c]? = some chan →
    (chan = 0#8 ∧ v = 0#8 ∨ chan = 1#8 ∧ memRead s.pix (4 * px) = some v ∨ chan = 2#8 ∧ memRead s.pix (4 * px + 1) = some v ∨
      chan = 3#8 ∧ memRead s.pix (4 * px + 2) = some v) →
    ∃ t, exec .encStep s = .next t ∧
      memRead t.fb (p + 1) = some (encodeByte s.cfg.polarity v) ∧
      (∀ j, j ≠ p + 1 → memRead t.fb j = memRead s.fb j) ∧
      t = if p + 2 = s.cfg.fbLen then
          { s with
            fb := t.fb, encBusy := false, encPos := 0#32, encStatus := 1#2
            events := s.events ++ [.encDone s.cfg.fbLen], result := .done }
        else { s with fb := t.fb, encPos := s.encPos + 1#32, result := .done }

/-- R168, R56: a data word whose pixel byte was never written since RESET faults. -/
def Obligations.EncStepFaultsOnUnwrittenPixel : Prop :=
  ∀ (s : State) (p px c : Nat) (chan : Byte),
    s.encReady = true → s.encBusy = true → s.encPos.toNat = p + 1 →
    p < s.cfg.chanMap.length * s.cfg.numPixels.toNat →
    px = p / s.cfg.chanMap.length → c = p % s.cfg.chanMap.length → s.cfg.chanMap[c]? = some chan →
    (chan = 1#8 ∧ memRead s.pix (4 * px) = none ∨ chan = 2#8 ∧ memRead s.pix (4 * px + 1) = none ∨
      chan = 3#8 ∧ memRead s.pix (4 * px + 2) = none) →
    exec .encStep s = .fault .unwrittenRead

/-- The abort of R170: an unrecognised channel ends the assembly and is logged; no frame-buffer word and no pixel is
touched. As the spec derives there from R232, it does not happen in a block that keeps the invariants: there a ready
encoder has no such entry. -/
def Obligations.UnrecognisedChannelAborts : Prop :=
  (∀ (s : State) (p c : Nat) (chan : Byte),
    s.encReady = true → s.encBusy = true → s.encPos.toNat = p + 1 →
    p < s.cfg.chanMap.length * s.cfg.numPixels.toNat →
    c = p % s.cfg.chanMap.length → s.cfg.chanMap[c]? = some chan → 4 ≤ chan.toNat →
    exec .encStep s =
      .next { s with
        encBusy := false, encPos := 0#32, encStatus := 2#2
        events := s.events ++ [.cfgErrEncode c chan], result := .done }) ∧
  (∀ s : State, Inv s → s.encReady = true → ∀ chan ∈ s.cfg.chanMap, chan.toNat < 4)

/-- R82, R165 to R172: an assembly started on a ready encoder, with every pixel byte it reads written, is finished by
`FB_LEN` `ENC_STEP`s with the layout of R82: one reset word, one word per pixel and channel in order, the trailing reset
words; every other element is unchanged, the outcome is DONE and it is logged once. -/
def Obligations.WholeStripFrameIsAssembled : Prop :=
  ∀ (s : State) (v : Nat → Nat → Byte),
    s.encReady = true → s.encBusy = true → s.encPos = 0#32 → s.cfg.fbLen < 2 ^ 32 →
    (∀ px < s.cfg.numPixels.toNat, ∀ c < s.cfg.chanMap.length,
      s.cfg.chanMap[c]? = some 0#8 ∧ v px c = 0#8 ∨
      s.cfg.chanMap[c]? = some 1#8 ∧ memRead s.pix (4 * px) = some (v px c) ∨
      s.cfg.chanMap[c]? = some 2#8 ∧ memRead s.pix (4 * px + 1) = some (v px c) ∨
      s.cfg.chanMap[c]? = some 3#8 ∧ memRead s.pix (4 * px + 2) = some (v px c)) →
    ∃ t, runInstrs (List.replicate s.cfg.fbLen .encStep) s = .next t ∧
      memRead t.fb 0 = some (resetWord s.cfg.polarity) ∧
      (∀ px < s.cfg.numPixels.toNat, ∀ c < s.cfg.chanMap.length,
        memRead t.fb (1 + px * s.cfg.chanMap.length + c) = some (encodeByte s.cfg.polarity (v px c))) ∧
      (∀ j < s.cfg.resetWords.toNat,
        memRead t.fb (1 + s.cfg.chanMap.length * s.cfg.numPixels.toNat + j) = some (resetWord s.cfg.polarity)) ∧
      (∀ j, s.cfg.fbLen ≤ j → memRead t.fb j = memRead s.fb j) ∧
      t = { s with
        fb := t.fb, encBusy := false, encPos := 0#32, encStatus := 1#2
        events := s.events ++ [.encDone s.cfg.fbLen], result := .done }

/-- `FB_READ` returns the word, which must be inside the buffer and written since RESET, also while an assembly runs,
and changes nothing. -/
def Obligations.FbReadReturnsTheWord : Prop :=
  ∀ (n : Index) (s : State), s.encReady = true →
    (∀ w, n.toNat < s.cfg.fbLen → memRead s.fb n.toNat = some w →
      exec (.fbRead n) s = .next { s with result := .word w }) ∧
    (n.toNat < s.cfg.fbLen → memRead s.fb n.toNat = none → exec (.fbRead n) s = .fault .unwrittenRead) ∧
    (s.cfg.fbLen ≤ n.toNat → exec (.fbRead n) s = .fault .indexRange)

/-- R173: the reset-word count is the exact ceiling of the delay over 20, and the 32-bit register holds it without wrap
for every 32-bit delay. -/
def Obligations.ResetWordsAreTheExactCeiling : Prop :=
  (∀ c : Cfg, c.resetDelayUs.toNat ≤ 20 * c.resetWords.toNat ∧
    20 * c.resetWords.toNat < c.resetDelayUs.toNat + 20 ∧
    c.resetWords.toNat = (c.resetDelayUs.toNat + 19) / 20) ∧
  ceilResetWords 50 = 3 ∧ ceilResetWords 0 = 0

/-- R174: the frame length in words and in bytes, and the colour-word count. -/
def Obligations.FrameLengthIsExact : Prop :=
  ∀ c : Cfg,
    c.fbLen = 1 + c.chanMap.length * c.numPixels.toNat + c.resetWords.toNat ∧
    c.fbBytes = (1 + c.chanMap.length * c.numPixels.toNat + c.resetWords.toNat) * 4 ∧
    c.dataWords = c.chanMap.length * c.numPixels.toNat ∧ 1 ≤ c.fbLen

/-- R176: a word leaves as 32 levels, its low half-word first and each half most significant bit first, which is the
exchanged word from bit 31 down; the complement of a word inverts every level. -/
def Obligations.SlotsSendTheLowHalfFirst : Prop :=
  ∀ w : Word,
    (slots w).length = 32 ∧
    (∀ i < 16, (slots w)[i]? = some (w.getLsbD (15 - i)) ∧ (slots w)[16 + i]? = some (w.getLsbD (31 - i))) ∧
    (∀ i < 32, (slots w)[i]? = some ((swapHalves w).getLsbD (31 - i))) ∧
    slots (~~~ w) = (slots w).map (fun l => !l)

/-- R176: a frame whose words are all written has a pulse train, which is the slots of its words one after another, 32
levels a word. A frame with an unwritten word has none (the model's choice, log entry 18). -/
def Obligations.PulseTrainIsTheFrameInOrder : Prop :=
  ∀ s : State,
    ((∀ i < s.cfg.fbLen, ∃ w, memRead s.fb i = some w) →
      ∃ l, pulseTrain s = some l ∧ l.length = 32 * s.cfg.fbLen ∧
        ∀ i < s.cfg.fbLen, ∀ w, memRead s.fb i = some w → (l.drop (32 * i)).take 32 = slots w) ∧
    ((∃ i < s.cfg.fbLen, memRead s.fb i = none) → pulseTrain s = none)

/-- From R177, which the spec marks as derived: with a word period of at least the 20 µs quantum, the trailing quiet
time reaches the configured delay. -/
def Obligations.QuietTimeReachesTheDelay : Prop :=
  ∀ p : Params, 20000 ≤ p.wordPeriodNs → p.resetDelayUs * 1000 ≤ quietNs p

/-- R54: the byte view of the frame buffer is little-endian. -/
def Obligations.FrameBytesAreLittleEndian : Prop :=
  ∀ (s : State) (i j : Nat) (w : Word), j < 4 → memRead s.fb i = some w →
    fbByte s (4 * i + j) = some (w.extractLsb' (8 * j) 8)

/-! ## Reset and the whole block (70_reset_and_hazards.md, 10_state.md) -/

/-- From R230 to R232: RESET is never held and never faults; it loads the configuration, clears the header, the ring,
the signal, the written bits and the encoder, leaves the fault record, and checks the channel map: all entries
recognised makes the encoder ready with no event, otherwise the first bad entry alone is logged. The model's choices
here: RESET keeps the event trace (log entry 11) and the schedule (log entry 7), sets `started` (log entry 10) and
answers `done` (log entry 11), and a register too narrow for its parameter takes the low bits (log entry 3). -/
def Obligations.ResetSetsEveryField : Prop :=
  ∀ s : State,
    ∃ t, exec .reset s = .next t ∧
      t.cfg = { numPixels := BitVec.ofNat 16 s.params.numPixels, chanMap := s.params.chanMap
                polarity := s.params.polarity, resetDelayUs := BitVec.ofNat 32 s.params.resetDelayUs
                ringCap := BitVec.ofNat 32 s.params.ringCap, pktMax := BitVec.ofNat 32 s.params.pktMax } ∧
      t.hdr = { idx := 0#32, magic0 := 0#8, magic1 := 0#8, magic2 := 0#8, magic3 := 0#8, len := 0#16, crc := 0#8 } ∧
      t.ring = [] ∧ t.newData = false ∧
      (∀ i, memRead t.pkt i = none ∧ memRead t.pix i = none ∧ memRead t.fb i = none) ∧
      t.encBusy = false ∧ t.encPos = 0#32 ∧ t.encStatus = 0#2 ∧ t.faults = s.faults ∧ t.params = s.params ∧
      t.pending = s.pending ∧ t.started = true ∧ t.result = .done ∧
      ((∀ chan ∈ s.params.chanMap, chan.toNat < 4) → t.encReady = true ∧ t.events = s.events) ∧
      (∀ (pre post : List Byte) (chan : Byte), s.params.chanMap = pre ++ chan :: post →
        (∀ d ∈ pre, d.toNat < 4) → 4 ≤ chan.toNat →
        t.encReady = false ∧ t.events = s.events ++ [.cfgErrInit pre.length chan])

/-- The state after reset is what RESET leaves of the power-on state of the block `Config.reference`, but for the
answer; the block itself is the model's choice (log entry 1). -/
def Obligations.ResetStateIsWhatResetLeaves : Prop :=
  exec .reset (State.powerOn Config.reference) = .next { State.reset with result := .done }

/-- From R233, which the spec marks as derived: after a failed bring-up the encoder is never ready again, whatever
step is taken. -/
def Obligations.FailedBringUpIsForever : Prop :=
  ∀ s t : State, Inv s → s.encReady = false → step s = .next t → t.encReady = false

/-- The invariants of the spec, of both units together, hold after reset; which block that state is of is the model's
choice (log entry 1). -/
def Obligations.InvariantsHoldAtReset : Prop :=
  Inv State.reset

/-- The invariants of R132, which the spec marks as derived, and of 10_state.md are kept by every step: the ring
bound, the cursor's range, the bytes owed to a payload, the registers that are clear early in a frame, the matched
magic bytes, the encoder's position and status, and the canonical form of every index space. -/
def Obligations.InvariantsKeptByEveryStep : Prop :=
  ∀ s t : State, Inv s → step s = .next t → Inv t

/-- The sequencers of R27, which the spec marks as derived: a step leaves each engine's sequencer, advances it by one,
or returns it to 0; neither wraps. -/
def Obligations.SequencersNeverSkip : Prop :=
  ∀ s t : State, Inv s → step s = .next t →
    (t.hdr.idx.toNat = s.hdr.idx.toNat ∨ t.hdr.idx.toNat = s.hdr.idx.toNat + 1 ∨ t.hdr.idx.toNat = 0) ∧
    (t.encPos.toNat = s.encPos.toNat ∨ t.encPos.toNat = s.encPos.toNat + 1 ∨ t.encPos.toNat = 0)

/-- R2: the units share no state. An operation of one unit leaves the other as it is, and what it answers, does and logs
is the same in two states that differ only in the other unit. -/
def Obligations.UnitsShareNothing : Prop :=
  (∀ (i : Instr) (s t : State), isSfd i = true → exec i s = .next t → t.bse = s.bse) ∧
  (∀ (i : Instr) (s t : State), isBse i = true → exec i s = .next t → t.sfd = s.sfd) ∧
  (∀ (i : Instr) (s t : State), isSfd i = true → s.sfd = t.sfd → s.events = t.events →
    Agree State.sfd (exec i s) (exec i t)) ∧
  (∀ (i : Instr) (s t : State), isBse i = true → s.bse = t.bse → s.events = t.events →
    Agree State.bse (exec i s) (exec i t))
end

