-- ==== Sys2Proof/Laws/Assembler.lean ====
section
/-! SUPPORT. All that an operand of a line can become (30_encoding.md R92). -/

namespace Sys2Proof.Machine

@[simp] theorem Literal.value_dec (n : Nat) : (Literal.dec n).value = some n := rfl
@[simp] theorem Literal.value_hex (n : Nat) : (Literal.hex n).value = some n := rfl
@[simp] theorem Literal.value_chr (c : Char) : (Literal.chr c).value = asciiCode c := rfl

theorem asciiCode_eq_some_iff {c : Char} {n : Nat} : asciiCode c = some n ↔ c.toNat < 128 ∧ n = c.toNat := by
  unfold asciiCode
  split <;> simp_all [eq_comm]

theorem asciiCode_eq_none_iff {c : Char} : asciiCode c = none ↔ 128 ≤ c.toNat := by
  unfold asciiCode
  split <;> simp_all

/-- A field is the number of the operand, which fits it. -/
theorem Literal.field_eq_some_iff {w : Nat} {l : Literal} {v : BitVec w} :
    l.field w = some v ↔ ∃ n, l.value = some n ∧ n < 2 ^ w ∧ v = BitVec.ofNat w n := by
  unfold Literal.field
  cases l.value <;> simp [eq_comm]

theorem Literal.field_of_value {w n : Nat} {l : Literal} (hl : l.value = some n) (hn : n < 2 ^ w) :
    l.field w = some (BitVec.ofNat w n) :=
  field_eq_some_iff.mpr ⟨n, hl, hn, rfl⟩

/-- No field comes of an operand without a number, or with one that does not fit. -/
theorem Literal.field_eq_none {w : Nat} {l : Literal} (h : ∀ n, l.value = some n → 2 ^ w ≤ n) : l.field w = none := by
  refine Option.eq_none_iff_forall_ne_some.mpr fun v hv => ?_
  obtain ⟨n, hl, hn, _⟩ := field_eq_some_iff.mp hv
  exact absurd (h n hl) (Nat.not_le.mpr hn)

end Sys2Proof.Machine
end

