-- ==== Sys2Proof/Laws/State.lean ====
section
/-! SUPPORT. What each named update of the state does to each field: one lemma per field per update, true by
definition, so that no later proof unfolds an update. -/

namespace Sys2Proof.Machine

/-! State.answer -/

@[simp] theorem State.answer_params (s : State) (r : StepResult) : (s.answer r).params = s.params := rfl
@[simp] theorem State.answer_started (s : State) (r : StepResult) : (s.answer r).started = s.started := rfl
@[simp] theorem State.answer_cfg (s : State) (r : StepResult) : (s.answer r).cfg = s.cfg := rfl
@[simp] theorem State.answer_hdr (s : State) (r : StepResult) : (s.answer r).hdr = s.hdr := rfl
@[simp] theorem State.answer_ring (s : State) (r : StepResult) : (s.answer r).ring = s.ring := rfl
@[simp] theorem State.answer_pkt (s : State) (r : StepResult) : (s.answer r).pkt = s.pkt := rfl
@[simp] theorem State.answer_newData (s : State) (r : StepResult) : (s.answer r).newData = s.newData := rfl
@[simp] theorem State.answer_pix (s : State) (r : StepResult) : (s.answer r).pix = s.pix := rfl
@[simp] theorem State.answer_fb (s : State) (r : StepResult) : (s.answer r).fb = s.fb := rfl
@[simp] theorem State.answer_encBusy (s : State) (r : StepResult) : (s.answer r).encBusy = s.encBusy := rfl
@[simp] theorem State.answer_encPos (s : State) (r : StepResult) : (s.answer r).encPos = s.encPos := rfl
@[simp] theorem State.answer_encStatus (s : State) (r : StepResult) : (s.answer r).encStatus = s.encStatus := rfl
@[simp] theorem State.answer_encReady (s : State) (r : StepResult) : (s.answer r).encReady = s.encReady := rfl
@[simp] theorem State.answer_faults (s : State) (r : StepResult) : (s.answer r).faults = s.faults := rfl
@[simp] theorem State.answer_events (s : State) (r : StepResult) : (s.answer r).events = s.events := rfl
@[simp] theorem State.answer_result (s : State) (r : StepResult) : (s.answer r).result = r := rfl
@[simp] theorem State.answer_pending (s : State) (r : StepResult) : (s.answer r).pending = s.pending := rfl

/-! State.emit -/

@[simp] theorem State.emit_params (s : State) (e : Event) : (s.emit e).params = s.params := rfl
@[simp] theorem State.emit_started (s : State) (e : Event) : (s.emit e).started = s.started := rfl
@[simp] theorem State.emit_cfg (s : State) (e : Event) : (s.emit e).cfg = s.cfg := rfl
@[simp] theorem State.emit_hdr (s : State) (e : Event) : (s.emit e).hdr = s.hdr := rfl
@[simp] theorem State.emit_ring (s : State) (e : Event) : (s.emit e).ring = s.ring := rfl
@[simp] theorem State.emit_pkt (s : State) (e : Event) : (s.emit e).pkt = s.pkt := rfl
@[simp] theorem State.emit_newData (s : State) (e : Event) : (s.emit e).newData = s.newData := rfl
@[simp] theorem State.emit_pix (s : State) (e : Event) : (s.emit e).pix = s.pix := rfl
@[simp] theorem State.emit_fb (s : State) (e : Event) : (s.emit e).fb = s.fb := rfl
@[simp] theorem State.emit_encBusy (s : State) (e : Event) : (s.emit e).encBusy = s.encBusy := rfl
@[simp] theorem State.emit_encPos (s : State) (e : Event) : (s.emit e).encPos = s.encPos := rfl
@[simp] theorem State.emit_encStatus (s : State) (e : Event) : (s.emit e).encStatus = s.encStatus := rfl
@[simp] theorem State.emit_encReady (s : State) (e : Event) : (s.emit e).encReady = s.encReady := rfl
@[simp] theorem State.emit_faults (s : State) (e : Event) : (s.emit e).faults = s.faults := rfl
@[simp] theorem State.emit_events (s : State) (e : Event) : (s.emit e).events = s.events ++ [e] := rfl
@[simp] theorem State.emit_result (s : State) (e : Event) : (s.emit e).result = s.result := rfl
@[simp] theorem State.emit_pending (s : State) (e : Event) : (s.emit e).pending = s.pending := rfl

/-! State.recordFault -/

@[simp] theorem State.recordFault_params (s : State) (r : Fault) : (s.recordFault r).params = s.params := rfl
@[simp] theorem State.recordFault_started (s : State) (r : Fault) : (s.recordFault r).started = s.started := rfl
@[simp] theorem State.recordFault_cfg (s : State) (r : Fault) : (s.recordFault r).cfg = s.cfg := rfl
@[simp] theorem State.recordFault_hdr (s : State) (r : Fault) : (s.recordFault r).hdr = s.hdr := rfl
@[simp] theorem State.recordFault_ring (s : State) (r : Fault) : (s.recordFault r).ring = s.ring := rfl
@[simp] theorem State.recordFault_pkt (s : State) (r : Fault) : (s.recordFault r).pkt = s.pkt := rfl
@[simp] theorem State.recordFault_newData (s : State) (r : Fault) : (s.recordFault r).newData = s.newData := rfl
@[simp] theorem State.recordFault_pix (s : State) (r : Fault) : (s.recordFault r).pix = s.pix := rfl
@[simp] theorem State.recordFault_fb (s : State) (r : Fault) : (s.recordFault r).fb = s.fb := rfl
@[simp] theorem State.recordFault_encBusy (s : State) (r : Fault) : (s.recordFault r).encBusy = s.encBusy := rfl
@[simp] theorem State.recordFault_encPos (s : State) (r : Fault) : (s.recordFault r).encPos = s.encPos := rfl
@[simp] theorem State.recordFault_encStatus (s : State) (r : Fault) : (s.recordFault r).encStatus = s.encStatus := rfl
@[simp] theorem State.recordFault_encReady (s : State) (r : Fault) : (s.recordFault r).encReady = s.encReady := rfl
@[simp] theorem State.recordFault_faults (s : State) (r : Fault) : (s.recordFault r).faults = s.faults.add r := rfl
@[simp] theorem State.recordFault_events (s : State) (r : Fault) : (s.recordFault r).events = s.events := rfl
@[simp] theorem State.recordFault_result (s : State) (r : Fault) : (s.recordFault r).result = .faulted r := rfl
@[simp] theorem State.recordFault_pending (s : State) (r : Fault) : (s.recordFault r).pending = s.pending := rfl

/-! State.headerClear -/

@[simp] theorem State.headerClear_params (s : State) : s.headerClear.params = s.params := rfl
@[simp] theorem State.headerClear_started (s : State) : s.headerClear.started = s.started := rfl
@[simp] theorem State.headerClear_cfg (s : State) : s.headerClear.cfg = s.cfg := rfl
@[simp] theorem State.headerClear_hdr (s : State) : s.headerClear.hdr = Header.zero := rfl
@[simp] theorem State.headerClear_ring (s : State) : s.headerClear.ring = s.ring := rfl
@[simp] theorem State.headerClear_pkt (s : State) : s.headerClear.pkt = s.pkt := rfl
@[simp] theorem State.headerClear_newData (s : State) : s.headerClear.newData = s.newData := rfl
@[simp] theorem State.headerClear_pix (s : State) : s.headerClear.pix = s.pix := rfl
@[simp] theorem State.headerClear_fb (s : State) : s.headerClear.fb = s.fb := rfl
@[simp] theorem State.headerClear_encBusy (s : State) : s.headerClear.encBusy = s.encBusy := rfl
@[simp] theorem State.headerClear_encPos (s : State) : s.headerClear.encPos = s.encPos := rfl
@[simp] theorem State.headerClear_encStatus (s : State) : s.headerClear.encStatus = s.encStatus := rfl
@[simp] theorem State.headerClear_encReady (s : State) : s.headerClear.encReady = s.encReady := rfl
@[simp] theorem State.headerClear_faults (s : State) : s.headerClear.faults = s.faults := rfl
@[simp] theorem State.headerClear_events (s : State) : s.headerClear.events = s.events := rfl
@[simp] theorem State.headerClear_result (s : State) : s.headerClear.result = s.result := rfl
@[simp] theorem State.headerClear_pending (s : State) : s.headerClear.pending = s.pending := rfl

/-! State.setCursor -/

@[simp] theorem State.setCursor_params (s : State) (n : Nat) : (s.setCursor n).params = s.params := rfl
@[simp] theorem State.setCursor_started (s : State) (n : Nat) : (s.setCursor n).started = s.started := rfl
@[simp] theorem State.setCursor_cfg (s : State) (n : Nat) : (s.setCursor n).cfg = s.cfg := rfl
@[simp] theorem State.setCursor_hdr (s : State) (n : Nat) : (s.setCursor n).hdr = { s.hdr with idx := BitVec.ofNat 32 n } := rfl
@[simp] theorem State.setCursor_ring (s : State) (n : Nat) : (s.setCursor n).ring = s.ring := rfl
@[simp] theorem State.setCursor_pkt (s : State) (n : Nat) : (s.setCursor n).pkt = s.pkt := rfl
@[simp] theorem State.setCursor_newData (s : State) (n : Nat) : (s.setCursor n).newData = s.newData := rfl
@[simp] theorem State.setCursor_pix (s : State) (n : Nat) : (s.setCursor n).pix = s.pix := rfl
@[simp] theorem State.setCursor_fb (s : State) (n : Nat) : (s.setCursor n).fb = s.fb := rfl
@[simp] theorem State.setCursor_encBusy (s : State) (n : Nat) : (s.setCursor n).encBusy = s.encBusy := rfl
@[simp] theorem State.setCursor_encPos (s : State) (n : Nat) : (s.setCursor n).encPos = s.encPos := rfl
@[simp] theorem State.setCursor_encStatus (s : State) (n : Nat) : (s.setCursor n).encStatus = s.encStatus := rfl
@[simp] theorem State.setCursor_encReady (s : State) (n : Nat) : (s.setCursor n).encReady = s.encReady := rfl
@[simp] theorem State.setCursor_faults (s : State) (n : Nat) : (s.setCursor n).faults = s.faults := rfl
@[simp] theorem State.setCursor_events (s : State) (n : Nat) : (s.setCursor n).events = s.events := rfl
@[simp] theorem State.setCursor_result (s : State) (n : Nat) : (s.setCursor n).result = s.result := rfl
@[simp] theorem State.setCursor_pending (s : State) (n : Nat) : (s.setCursor n).pending = s.pending := rfl

/-! State.raiseNewData -/

@[simp] theorem State.raiseNewData_params (s : State) : s.raiseNewData.params = s.params := rfl
@[simp] theorem State.raiseNewData_started (s : State) : s.raiseNewData.started = s.started := rfl
@[simp] theorem State.raiseNewData_cfg (s : State) : s.raiseNewData.cfg = s.cfg := rfl
@[simp] theorem State.raiseNewData_hdr (s : State) : s.raiseNewData.hdr = s.hdr := rfl
@[simp] theorem State.raiseNewData_ring (s : State) : s.raiseNewData.ring = s.ring := rfl
@[simp] theorem State.raiseNewData_pkt (s : State) : s.raiseNewData.pkt = s.pkt := rfl
@[simp] theorem State.raiseNewData_newData (s : State) : s.raiseNewData.newData = true := rfl
@[simp] theorem State.raiseNewData_pix (s : State) : s.raiseNewData.pix = s.pix := rfl
@[simp] theorem State.raiseNewData_fb (s : State) : s.raiseNewData.fb = s.fb := rfl
@[simp] theorem State.raiseNewData_encBusy (s : State) : s.raiseNewData.encBusy = s.encBusy := rfl
@[simp] theorem State.raiseNewData_encPos (s : State) : s.raiseNewData.encPos = s.encPos := rfl
@[simp] theorem State.raiseNewData_encStatus (s : State) : s.raiseNewData.encStatus = s.encStatus := rfl
@[simp] theorem State.raiseNewData_encReady (s : State) : s.raiseNewData.encReady = s.encReady := rfl
@[simp] theorem State.raiseNewData_faults (s : State) : s.raiseNewData.faults = s.faults := rfl
@[simp] theorem State.raiseNewData_events (s : State) : s.raiseNewData.events = s.events := rfl
@[simp] theorem State.raiseNewData_result (s : State) : s.raiseNewData.result = s.result := rfl
@[simp] theorem State.raiseNewData_pending (s : State) : s.raiseNewData.pending = s.pending := rfl

/-! State.takeNewData -/

@[simp] theorem State.takeNewData_params (s : State) : s.takeNewData.params = s.params := rfl
@[simp] theorem State.takeNewData_started (s : State) : s.takeNewData.started = s.started := rfl
@[simp] theorem State.takeNewData_cfg (s : State) : s.takeNewData.cfg = s.cfg := rfl
@[simp] theorem State.takeNewData_hdr (s : State) : s.takeNewData.hdr = s.hdr := rfl
@[simp] theorem State.takeNewData_ring (s : State) : s.takeNewData.ring = s.ring := rfl
@[simp] theorem State.takeNewData_pkt (s : State) : s.takeNewData.pkt = s.pkt := rfl
@[simp] theorem State.takeNewData_newData (s : State) : s.takeNewData.newData = false := rfl
@[simp] theorem State.takeNewData_pix (s : State) : s.takeNewData.pix = s.pix := rfl
@[simp] theorem State.takeNewData_fb (s : State) : s.takeNewData.fb = s.fb := rfl
@[simp] theorem State.takeNewData_encBusy (s : State) : s.takeNewData.encBusy = s.encBusy := rfl
@[simp] theorem State.takeNewData_encPos (s : State) : s.takeNewData.encPos = s.encPos := rfl
@[simp] theorem State.takeNewData_encStatus (s : State) : s.takeNewData.encStatus = s.encStatus := rfl
@[simp] theorem State.takeNewData_encReady (s : State) : s.takeNewData.encReady = s.encReady := rfl
@[simp] theorem State.takeNewData_faults (s : State) : s.takeNewData.faults = s.faults := rfl
@[simp] theorem State.takeNewData_events (s : State) : s.takeNewData.events = s.events := rfl
@[simp] theorem State.takeNewData_result (s : State) : s.takeNewData.result = s.result := rfl
@[simp] theorem State.takeNewData_pending (s : State) : s.takeNewData.pending = s.pending := rfl

/-! State.encBegin -/

@[simp] theorem State.encBegin_params (s : State) : s.encBegin.params = s.params := rfl
@[simp] theorem State.encBegin_started (s : State) : s.encBegin.started = s.started := rfl
@[simp] theorem State.encBegin_cfg (s : State) : s.encBegin.cfg = s.cfg := rfl
@[simp] theorem State.encBegin_hdr (s : State) : s.encBegin.hdr = s.hdr := rfl
@[simp] theorem State.encBegin_ring (s : State) : s.encBegin.ring = s.ring := rfl
@[simp] theorem State.encBegin_pkt (s : State) : s.encBegin.pkt = s.pkt := rfl
@[simp] theorem State.encBegin_newData (s : State) : s.encBegin.newData = s.newData := rfl
@[simp] theorem State.encBegin_pix (s : State) : s.encBegin.pix = s.pix := rfl
@[simp] theorem State.encBegin_fb (s : State) : s.encBegin.fb = s.fb := rfl
@[simp] theorem State.encBegin_encBusy (s : State) : s.encBegin.encBusy = true := rfl
@[simp] theorem State.encBegin_encPos (s : State) : s.encBegin.encPos = 0#32 := rfl
@[simp] theorem State.encBegin_encStatus (s : State) : s.encBegin.encStatus = statusNone := rfl
@[simp] theorem State.encBegin_encReady (s : State) : s.encBegin.encReady = s.encReady := rfl
@[simp] theorem State.encBegin_faults (s : State) : s.encBegin.faults = s.faults := rfl
@[simp] theorem State.encBegin_events (s : State) : s.encBegin.events = s.events := rfl
@[simp] theorem State.encBegin_result (s : State) : s.encBegin.result = s.result := rfl
@[simp] theorem State.encBegin_pending (s : State) : s.encBegin.pending = s.pending := rfl

/-! State.encEnd -/

@[simp] theorem State.encEnd_params (s : State) (st : BitVec 2) : (s.encEnd st).params = s.params := rfl
@[simp] theorem State.encEnd_started (s : State) (st : BitVec 2) : (s.encEnd st).started = s.started := rfl
@[simp] theorem State.encEnd_cfg (s : State) (st : BitVec 2) : (s.encEnd st).cfg = s.cfg := rfl
@[simp] theorem State.encEnd_hdr (s : State) (st : BitVec 2) : (s.encEnd st).hdr = s.hdr := rfl
@[simp] theorem State.encEnd_ring (s : State) (st : BitVec 2) : (s.encEnd st).ring = s.ring := rfl
@[simp] theorem State.encEnd_pkt (s : State) (st : BitVec 2) : (s.encEnd st).pkt = s.pkt := rfl
@[simp] theorem State.encEnd_newData (s : State) (st : BitVec 2) : (s.encEnd st).newData = s.newData := rfl
@[simp] theorem State.encEnd_pix (s : State) (st : BitVec 2) : (s.encEnd st).pix = s.pix := rfl
@[simp] theorem State.encEnd_fb (s : State) (st : BitVec 2) : (s.encEnd st).fb = s.fb := rfl
@[simp] theorem State.encEnd_encBusy (s : State) (st : BitVec 2) : (s.encEnd st).encBusy = false := rfl
@[simp] theorem State.encEnd_encPos (s : State) (st : BitVec 2) : (s.encEnd st).encPos = 0#32 := rfl
@[simp] theorem State.encEnd_encStatus (s : State) (st : BitVec 2) : (s.encEnd st).encStatus = st := rfl
@[simp] theorem State.encEnd_encReady (s : State) (st : BitVec 2) : (s.encEnd st).encReady = s.encReady := rfl
@[simp] theorem State.encEnd_faults (s : State) (st : BitVec 2) : (s.encEnd st).faults = s.faults := rfl
@[simp] theorem State.encEnd_events (s : State) (st : BitVec 2) : (s.encEnd st).events = s.events := rfl
@[simp] theorem State.encEnd_result (s : State) (st : BitVec 2) : (s.encEnd st).result = s.result := rfl
@[simp] theorem State.encEnd_pending (s : State) (st : BitVec 2) : (s.encEnd st).pending = s.pending := rfl

/-! State.setEncPos -/

@[simp] theorem State.setEncPos_params (s : State) (n : Nat) : (s.setEncPos n).params = s.params := rfl
@[simp] theorem State.setEncPos_started (s : State) (n : Nat) : (s.setEncPos n).started = s.started := rfl
@[simp] theorem State.setEncPos_cfg (s : State) (n : Nat) : (s.setEncPos n).cfg = s.cfg := rfl
@[simp] theorem State.setEncPos_hdr (s : State) (n : Nat) : (s.setEncPos n).hdr = s.hdr := rfl
@[simp] theorem State.setEncPos_ring (s : State) (n : Nat) : (s.setEncPos n).ring = s.ring := rfl
@[simp] theorem State.setEncPos_pkt (s : State) (n : Nat) : (s.setEncPos n).pkt = s.pkt := rfl
@[simp] theorem State.setEncPos_newData (s : State) (n : Nat) : (s.setEncPos n).newData = s.newData := rfl
@[simp] theorem State.setEncPos_pix (s : State) (n : Nat) : (s.setEncPos n).pix = s.pix := rfl
@[simp] theorem State.setEncPos_fb (s : State) (n : Nat) : (s.setEncPos n).fb = s.fb := rfl
@[simp] theorem State.setEncPos_encBusy (s : State) (n : Nat) : (s.setEncPos n).encBusy = s.encBusy := rfl
@[simp] theorem State.setEncPos_encPos (s : State) (n : Nat) : (s.setEncPos n).encPos = BitVec.ofNat 32 n := rfl
@[simp] theorem State.setEncPos_encStatus (s : State) (n : Nat) : (s.setEncPos n).encStatus = s.encStatus := rfl
@[simp] theorem State.setEncPos_encReady (s : State) (n : Nat) : (s.setEncPos n).encReady = s.encReady := rfl
@[simp] theorem State.setEncPos_faults (s : State) (n : Nat) : (s.setEncPos n).faults = s.faults := rfl
@[simp] theorem State.setEncPos_events (s : State) (n : Nat) : (s.setEncPos n).events = s.events := rfl
@[simp] theorem State.setEncPos_result (s : State) (n : Nat) : (s.setEncPos n).result = s.result := rfl
@[simp] theorem State.setEncPos_pending (s : State) (n : Nat) : (s.setEncPos n).pending = s.pending := rfl

/-! State.issueNext -/

@[simp] theorem State.issueNext_params (s : State) (a : Agent) (w : Word) : (s.issueNext a w).params = s.params := rfl
@[simp] theorem State.issueNext_started (s : State) (a : Agent) (w : Word) : (s.issueNext a w).started = true := rfl
@[simp] theorem State.issueNext_cfg (s : State) (a : Agent) (w : Word) : (s.issueNext a w).cfg = s.cfg := rfl
@[simp] theorem State.issueNext_hdr (s : State) (a : Agent) (w : Word) : (s.issueNext a w).hdr = s.hdr := rfl
@[simp] theorem State.issueNext_ring (s : State) (a : Agent) (w : Word) : (s.issueNext a w).ring = s.ring := rfl
@[simp] theorem State.issueNext_pkt (s : State) (a : Agent) (w : Word) : (s.issueNext a w).pkt = s.pkt := rfl
@[simp] theorem State.issueNext_newData (s : State) (a : Agent) (w : Word) : (s.issueNext a w).newData = s.newData := rfl
@[simp] theorem State.issueNext_pix (s : State) (a : Agent) (w : Word) : (s.issueNext a w).pix = s.pix := rfl
@[simp] theorem State.issueNext_fb (s : State) (a : Agent) (w : Word) : (s.issueNext a w).fb = s.fb := rfl
@[simp] theorem State.issueNext_encBusy (s : State) (a : Agent) (w : Word) : (s.issueNext a w).encBusy = s.encBusy := rfl
@[simp] theorem State.issueNext_encPos (s : State) (a : Agent) (w : Word) : (s.issueNext a w).encPos = s.encPos := rfl
@[simp] theorem State.issueNext_encStatus (s : State) (a : Agent) (w : Word) : (s.issueNext a w).encStatus = s.encStatus := rfl
@[simp] theorem State.issueNext_encReady (s : State) (a : Agent) (w : Word) : (s.issueNext a w).encReady = s.encReady := rfl
@[simp] theorem State.issueNext_faults (s : State) (a : Agent) (w : Word) : (s.issueNext a w).faults = s.faults := rfl
@[simp] theorem State.issueNext_events (s : State) (a : Agent) (w : Word) : (s.issueNext a w).events = s.events := rfl
@[simp] theorem State.issueNext_result (s : State) (a : Agent) (w : Word) : (s.issueNext a w).result = s.result := rfl
@[simp] theorem State.issueNext_pending (s : State) (a : Agent) (w : Word) : (s.issueNext a w).pending = { agent := a, word := w } :: s.pending := rfl

/-! ringPush -/

@[simp] theorem ringPush_params (b : Byte) (s : State) : (ringPush b s).params = s.params := rfl
@[simp] theorem ringPush_started (b : Byte) (s : State) : (ringPush b s).started = s.started := rfl
@[simp] theorem ringPush_cfg (b : Byte) (s : State) : (ringPush b s).cfg = s.cfg := rfl
@[simp] theorem ringPush_hdr (b : Byte) (s : State) : (ringPush b s).hdr = s.hdr := rfl
@[simp] theorem ringPush_ring (b : Byte) (s : State) : (ringPush b s).ring = s.ring ++ [b] := rfl
@[simp] theorem ringPush_pkt (b : Byte) (s : State) : (ringPush b s).pkt = s.pkt := rfl
@[simp] theorem ringPush_newData (b : Byte) (s : State) : (ringPush b s).newData = s.newData := rfl
@[simp] theorem ringPush_pix (b : Byte) (s : State) : (ringPush b s).pix = s.pix := rfl
@[simp] theorem ringPush_fb (b : Byte) (s : State) : (ringPush b s).fb = s.fb := rfl
@[simp] theorem ringPush_encBusy (b : Byte) (s : State) : (ringPush b s).encBusy = s.encBusy := rfl
@[simp] theorem ringPush_encPos (b : Byte) (s : State) : (ringPush b s).encPos = s.encPos := rfl
@[simp] theorem ringPush_encStatus (b : Byte) (s : State) : (ringPush b s).encStatus = s.encStatus := rfl
@[simp] theorem ringPush_encReady (b : Byte) (s : State) : (ringPush b s).encReady = s.encReady := rfl
@[simp] theorem ringPush_faults (b : Byte) (s : State) : (ringPush b s).faults = s.faults := rfl
@[simp] theorem ringPush_events (b : Byte) (s : State) : (ringPush b s).events = s.events := rfl
@[simp] theorem ringPush_result (b : Byte) (s : State) : (ringPush b s).result = s.result := rfl
@[simp] theorem ringPush_pending (b : Byte) (s : State) : (ringPush b s).pending = s.pending := rfl

/-! The header registers. -/

@[simp] theorem Header.zero_idx : Header.zero.idx = 0#32 := rfl
@[simp] theorem Header.zero_magic0 : Header.zero.magic0 = 0#8 := rfl
@[simp] theorem Header.zero_magic1 : Header.zero.magic1 = 0#8 := rfl
@[simp] theorem Header.zero_magic2 : Header.zero.magic2 = 0#8 := rfl
@[simp] theorem Header.zero_magic3 : Header.zero.magic3 = 0#8 := rfl
@[simp] theorem Header.zero_len : Header.zero.len = 0#16 := rfl
@[simp] theorem Header.zero_crc : Header.zero.crc = 0#8 := rfl

@[simp] theorem Header.setMagic0_idx (h : Header) (b : Byte) : (h.setMagic 0 b).idx = h.idx := rfl
@[simp] theorem Header.setMagic0_magic0 (h : Header) (b : Byte) : (h.setMagic 0 b).magic0 = b := rfl
@[simp] theorem Header.setMagic0_magic1 (h : Header) (b : Byte) : (h.setMagic 0 b).magic1 = h.magic1 := rfl
@[simp] theorem Header.setMagic0_magic2 (h : Header) (b : Byte) : (h.setMagic 0 b).magic2 = h.magic2 := rfl
@[simp] theorem Header.setMagic0_magic3 (h : Header) (b : Byte) : (h.setMagic 0 b).magic3 = h.magic3 := rfl
@[simp] theorem Header.setMagic0_len (h : Header) (b : Byte) : (h.setMagic 0 b).len = h.len := rfl
@[simp] theorem Header.setMagic0_crc (h : Header) (b : Byte) : (h.setMagic 0 b).crc = h.crc := rfl
@[simp] theorem Header.setMagic1_idx (h : Header) (b : Byte) : (h.setMagic 1 b).idx = h.idx := rfl
@[simp] theorem Header.setMagic1_magic0 (h : Header) (b : Byte) : (h.setMagic 1 b).magic0 = h.magic0 := rfl
@[simp] theorem Header.setMagic1_magic1 (h : Header) (b : Byte) : (h.setMagic 1 b).magic1 = b := rfl
@[simp] theorem Header.setMagic1_magic2 (h : Header) (b : Byte) : (h.setMagic 1 b).magic2 = h.magic2 := rfl
@[simp] theorem Header.setMagic1_magic3 (h : Header) (b : Byte) : (h.setMagic 1 b).magic3 = h.magic3 := rfl
@[simp] theorem Header.setMagic1_len (h : Header) (b : Byte) : (h.setMagic 1 b).len = h.len := rfl
@[simp] theorem Header.setMagic1_crc (h : Header) (b : Byte) : (h.setMagic 1 b).crc = h.crc := rfl
@[simp] theorem Header.setMagic2_idx (h : Header) (b : Byte) : (h.setMagic 2 b).idx = h.idx := rfl
@[simp] theorem Header.setMagic2_magic0 (h : Header) (b : Byte) : (h.setMagic 2 b).magic0 = h.magic0 := rfl
@[simp] theorem Header.setMagic2_magic1 (h : Header) (b : Byte) : (h.setMagic 2 b).magic1 = h.magic1 := rfl
@[simp] theorem Header.setMagic2_magic2 (h : Header) (b : Byte) : (h.setMagic 2 b).magic2 = b := rfl
@[simp] theorem Header.setMagic2_magic3 (h : Header) (b : Byte) : (h.setMagic 2 b).magic3 = h.magic3 := rfl
@[simp] theorem Header.setMagic2_len (h : Header) (b : Byte) : (h.setMagic 2 b).len = h.len := rfl
@[simp] theorem Header.setMagic2_crc (h : Header) (b : Byte) : (h.setMagic 2 b).crc = h.crc := rfl
@[simp] theorem Header.setMagic3_idx (h : Header) (b : Byte) : (h.setMagic 3 b).idx = h.idx := rfl
@[simp] theorem Header.setMagic3_magic0 (h : Header) (b : Byte) : (h.setMagic 3 b).magic0 = h.magic0 := rfl
@[simp] theorem Header.setMagic3_magic1 (h : Header) (b : Byte) : (h.setMagic 3 b).magic1 = h.magic1 := rfl
@[simp] theorem Header.setMagic3_magic2 (h : Header) (b : Byte) : (h.setMagic 3 b).magic2 = h.magic2 := rfl
@[simp] theorem Header.setMagic3_magic3 (h : Header) (b : Byte) : (h.setMagic 3 b).magic3 = b := rfl
@[simp] theorem Header.setMagic3_len (h : Header) (b : Byte) : (h.setMagic 3 b).len = h.len := rfl
@[simp] theorem Header.setMagic3_crc (h : Header) (b : Byte) : (h.setMagic 3 b).crc = h.crc := rfl

@[simp] theorem FaultRecord.empty_has_reservedOpcode : FaultRecord.empty.has .reservedOpcode = false := rfl
@[simp] theorem FaultRecord.empty_has_reservedOperand : FaultRecord.empty.has .reservedOperand = false := rfl
@[simp] theorem FaultRecord.empty_has_indexRange : FaultRecord.empty.has .indexRange = false := rfl
@[simp] theorem FaultRecord.empty_has_unwrittenRead : FaultRecord.empty.has .unwrittenRead = false := rfl
@[simp] theorem FaultRecord.empty_has_encNotReady : FaultRecord.empty.has .encNotReady = false := rfl

/-- After recording a fault the record holds it and what it held before. -/
@[simp] theorem FaultRecord.has_add (f : FaultRecord) (r q : Fault) :
    (f.add r).has q = (f.has q || q == r) := by
  cases r <;> cases q <;> simp [FaultRecord.add, FaultRecord.has]

/-- The capacity the operations use is the parameter. -/
@[simp] theorem State.ringCap_eq (s : State) : s.ringCap = s.params.ringCap := rfl

end Sys2Proof.Machine
end

