-- ==== Sys2Proof/Laws/Memory.lean ====
section
/-! SUPPORT. The index spaces: read after write, and that a write keeps the canonical form (20_memory.md R50, R56). -/

namespace Sys2Proof.Machine

variable {α : Type}

@[simp] theorem memRead_nil (i : Nat) : memRead ([] : Space α) i = none := rfl

/-- A read of the element just written gives the value written. -/
@[simp] theorem memRead_memWrite_same (sp : Space α) (i : Nat) (v : α) : memRead (memWrite sp i v) i = some v := by
  induction sp with
  | nil => simp [memWrite, memRead]
  | cons e rest ih =>
    obtain ⟨j, x⟩ := e
    by_cases h : i < j
    · simp [memWrite, memRead, h]
    · by_cases h' : i = j
      · simp [memWrite, memRead, h']
      · simp [memWrite, memRead, h, h', ih]

/-- A write leaves every other element alone. -/
theorem memRead_memWrite_ne (sp : Space α) {i j : Nat} (v : α) (h : j ≠ i) :
    memRead (memWrite sp i v) j = memRead sp j := by
  induction sp with
  | nil => simp [memWrite, memRead, h]
  | cons e rest ih =>
    obtain ⟨k, x⟩ := e
    by_cases h1 : i < k
    · simp [memWrite, memRead, h1, h]
    · by_cases h2 : i = k
      · subst h2; simp [memWrite, memRead, h]
      · simp [memWrite, memRead, h1, h2, ih]

/-- Both at once. -/
theorem memRead_memWrite (sp : Space α) (i j : Nat) (v : α) :
    memRead (memWrite sp i v) j = if j = i then some v else memRead sp j := by
  by_cases h : j = i
  · subst h; simp
  · simp [h, memRead_memWrite_ne sp v h]

/-- An entry after a write is the one written or was there before. -/
theorem mem_memWrite {sp : Space α} {i : Nat} {v : α} {e : Nat × α} (h : e ∈ memWrite sp i v) :
    e = (i, v) ∨ e ∈ sp := by
  induction sp with
  | nil => simp [memWrite] at h; exact .inl h
  | cons d rest ih =>
    obtain ⟨k, x⟩ := d
    by_cases h1 : i < k
    · simp only [memWrite, h1, if_true, List.mem_cons] at h ⊢; tauto
    · by_cases h2 : i = k
      · subst h2; simp only [memWrite, Nat.lt_irrefl, if_false, if_true, List.mem_cons] at h ⊢; tauto
      · simp only [memWrite, h1, h2, if_false, List.mem_cons] at h ⊢
        rcases h with h | h
        · exact .inr (.inl h)
        · rcases ih h with h | h
          · exact .inl h
          · exact .inr (.inr h)

theorem memWf_nil (n : Nat) : memWf n ([] : Space α) := ⟨List.Pairwise.nil, by simp⟩

/-- A write inside the space keeps its canonical form. -/
theorem memWf_memWrite {n i : Nat} {sp : Space α} (v : α) (hi : i < n) (h : memWf n sp) :
    memWf n (memWrite sp i v) := by
  refine ⟨?_, ?_⟩
  · induction sp with
    | nil => simp [memWrite]
    | cons d rest ih =>
      obtain ⟨k, x⟩ := d
      obtain ⟨hp, hb⟩ := h
      rw [List.pairwise_cons] at hp
      have hrest : memWf n rest := ⟨hp.2, fun e he => hb e (List.mem_cons_of_mem _ he)⟩
      by_cases h1 : i < k
      · simp only [memWrite, h1, if_true, List.pairwise_cons, List.mem_cons]
        refine ⟨?_, fun e he => hp.1 e he, hp.2⟩
        rintro e (rfl | he)
        · exact h1
        · exact h1.trans (hp.1 e he)
      · by_cases h2 : i = k
        · subst h2
          simp only [memWrite, Nat.lt_irrefl, if_false, if_true, List.pairwise_cons]
          exact ⟨fun e he => hp.1 e he, hp.2⟩
        · simp only [memWrite, h1, h2, if_false, List.pairwise_cons]
          refine ⟨fun e he => ?_, ih hrest⟩
          rcases mem_memWrite he with rfl | he
          · show k < i; omega
          · exact hp.1 e he
  · intro e he
    rcases mem_memWrite he with rfl | he
    · exact hi
    · exact h.2 e he

/-- In a canonical space nothing is written at or past its end. -/
theorem memRead_none_of_le {n i : Nat} {sp : Space α} (h : memWf n sp) (hi : n ≤ i) : memRead sp i = none := by
  induction sp with
  | nil => rfl
  | cons d rest ih =>
    obtain ⟨k, x⟩ := d
    have hk : k < n := h.2 (k, x) (by simp)
    have hrest : memWf n rest :=
      ⟨(List.pairwise_cons.mp h.1).2, fun e he => h.2 e (List.mem_cons_of_mem _ he)⟩
    simp only [memRead, show i ≠ k by omega, if_false, ih hrest]

/-! The checked accesses (R56). -/

/-- All a checked read can answer. -/
theorem elementRead_ok_iff {n i : Nat} {sp : Space α} {v : α} :
    elementRead n sp i = .ok v ↔ i < n ∧ memRead sp i = some v := by
  unfold elementRead
  split
  · split <;> simp_all
  · simp_all

theorem elementRead_of_written {n i : Nat} {sp : Space α} {v : α} (hi : i < n) (h : memRead sp i = some v) :
    elementRead n sp i = .ok v := elementRead_ok_iff.mpr ⟨hi, h⟩

theorem elementRead_of_unwritten {n i : Nat} {sp : Space α} (hi : i < n) (h : memRead sp i = none) :
    elementRead n sp i = .error .unwrittenRead := by
  simp [elementRead, hi, h]

theorem elementRead_of_le {n i : Nat} {sp : Space α} (hi : n ≤ i) : elementRead n sp i = .error .indexRange := by
  simp [elementRead, Nat.not_lt.mpr hi]

/-- All a checked write can answer. -/
theorem elementWrite_ok_iff {n i : Nat} {sp sp' : Space α} {v : α} :
    elementWrite n sp i v = .ok sp' ↔ i < n ∧ sp' = memWrite sp i v := by
  unfold elementWrite
  split <;> simp_all [eq_comm]

theorem elementWrite_of_lt {n i : Nat} (sp : Space α) (v : α) (hi : i < n) :
    elementWrite n sp i v = .ok (memWrite sp i v) := by
  simp [elementWrite, hi]

theorem elementWrite_of_le {n i : Nat} (sp : Space α) (v : α) (hi : n ≤ i) :
    elementWrite n sp i v = .error .indexRange := by
  simp [elementWrite, Nat.not_lt.mpr hi]

/-- A checked write that answers a space keeps its canonical form. -/
theorem memWf_elementWrite {n i : Nat} {sp sp' : Space α} {v : α} (h : memWf n sp)
    (hw : elementWrite n sp i v = .ok sp') : memWf n sp' := by
  obtain ⟨hi, rfl⟩ := elementWrite_ok_iff.mp hw
  exact memWf_memWrite v hi h

/-- The memory of the reset state is canonical. -/
theorem reset_memory_wf : Memory.wf State.reset := ⟨memWf_nil _, memWf_nil _, memWf_nil _⟩

end Sys2Proof.Machine
end

