-- ==== Sys2Proof/Laws/Ops.lean ====
section
/-! SUPPORT. For each shared operation one lemma that says once all it can answer; later proofs cite these and do not
unfold the operation. -/

namespace Sys2Proof.Machine

/-! Answers. -/

@[simp] theorem done_next_iff {s t : State} : done s = .next t ↔ t = s.answer .done := by
  simp [done, eq_comm]

@[simp] theorem hold_next_iff {s t : State} : hold s = .next t ↔ t = s.answer .held := by
  simp [hold, eq_comm]

@[simp] theorem retByte_next_iff {b : Byte} {s t : State} : retByte b s = .next t ↔ t = s.answer (.byte b) := by
  simp [retByte, eq_comm]

@[simp] theorem retWord_next_iff {w : Word} {s t : State} : retWord w s = .next t ↔ t = s.answer (.word w) := by
  simp [retWord, eq_comm]

@[simp] theorem raiseFault_ne_next {r : Fault} {t : State} : raiseFault r ≠ .next t := by
  simp [raiseFault]

/-- The readiness check lets an answer through only when the encoder is ready. -/
theorem whenReady_next_iff {s t : State} {a : Answer} :
    whenReady s a = .next t ↔ s.encReady = true ∧ a = .next t := by
  unfold whenReady
  split <;> simp_all

theorem whenReady_of_ready {s : State} {a : Answer} (h : s.encReady = true) : whenReady s a = a := by
  simp [whenReady, h]

theorem whenReady_of_not_ready {s : State} {a : Answer} (h : s.encReady = false) :
    whenReady s a = .fault .encNotReady := by
  simp [whenReady, h, raiseFault]

/-! The ring (20_memory.md R52). -/

/-- A pop answers the head and the state without it, or nothing when the ring is empty. -/
theorem ringPop_eq_some_iff {s t : State} {b : Byte} :
    ringPop s = some (b, t) ↔ ∃ rest, s.ring = b :: rest ∧ t = { s with ring := rest } := by
  unfold ringPop
  cases h : s.ring <;> simp [eq_comm]

theorem ringPop_eq_none_iff {s : State} : ringPop s = none ↔ s.ring = [] := by
  unfold ringPop
  cases s.ring <;> simp

theorem ringPop_cons {s : State} {b : Byte} {rest : List Byte} (h : s.ring = b :: rest) :
    ringPop s = some (b, { s with ring := rest }) :=
  ringPop_eq_some_iff.mpr ⟨rest, h, rfl⟩

theorem ringPop_nil {s : State} (h : s.ring = []) : ringPop s = none := ringPop_eq_none_iff.mpr h

/-! Fetching and admitting a command. -/

/-- The schedule's next command, and what is left of it. -/
theorem fetch_eq_some_iff {s t : State} {c : Command} :
    fetch s = some (c, t) ↔ ∃ rest, s.pending = c :: rest ∧ t = { s with pending := rest } := by
  unfold fetch
  cases h : s.pending <;> simp [eq_comm]

theorem fetch_cons {s : State} {c : Command} {rest : List Command} (h : s.pending = c :: rest) :
    fetch s = some (c, { s with pending := rest }) :=
  fetch_eq_some_iff.mpr ⟨rest, h, rfl⟩

/-- When a command is admitted. -/
theorem refuses_eq_none_iff {s : State} {c : Command} :
    refuses s c = none ↔ s.params.admissible = true ∧ (s.started = true ∨ decodeWord c.word = .ok .reset) ∧
      (issuer (opField c.word) = none ∨ issuer (opField c.word) = some c.agent) := by
  unfold refuses
  cases s.params.admissible <;> cases s.started <;> by_cases h : decodeWord c.word = .ok .reset <;>
    cases hi : issuer (opField c.word) <;> simp_all

/-- A settled answer that goes on is the operation's own next state, or the fault record's. -/
theorem settle_next_iff {s t : State} {a : Answer} :
    settle s a = .next t ↔ a = .next t ∨ ∃ r, a = .fault r ∧ t = s.recordFault r := by
  unfold settle
  cases a <;> simp [eq_comm]

/-- All a command word can do. -/
theorem runWord_next {w : Word} {s t : State} (h : runWord w s = .next t) :
    (∃ i, decodeWord w = .ok i ∧ exec i s = .next t) ∨ (∃ r, t = s.recordFault r) := by
  unfold runWord at h
  split at h
  · rcases settle_next_iff.mp h with h | ⟨r, _, rfl⟩
    · simp at h
    · exact .inr ⟨r, rfl⟩
  · rename_i i hi
    rcases settle_next_iff.mp h with h | ⟨r, _, rfl⟩
    · exact .inl ⟨i, hi, h⟩
    · exact .inr ⟨r, rfl⟩

/-- All a step can do: nothing, an operation on the state with its command issued, or a fault recorded on that state. -/
theorem step_next {s t : State} (h : step s = .next t) :
    (s.pending = [] ∧ t = s) ∨
    ∃ c rest, s.pending = c :: rest ∧ refuses s c = none ∧
      ((∃ i, decodeWord c.word = .ok i ∧ exec i { s with pending := rest } = .next t) ∨
        ∃ r, t = State.recordFault { s with pending := rest } r) := by
  unfold step at h
  cases hp : s.pending with
  | nil =>
    have : fetch s = none := by unfold fetch; rw [hp]
    rw [this] at h
    simp at h
    exact .inl ⟨rfl, h.symm⟩
  | cons c rest =>
    rw [fetch_cons hp] at h
    simp only at h
    cases hr : refuses s c with
    | some r => rw [hr] at h; simp at h
    | none =>
      rw [hr] at h
      exact .inr ⟨c, rest, rfl, hr, runWord_next h⟩

/-- A step whose command is admitted runs its word on the state with the command issued. -/
theorem step_of_admitted {s : State} {c : Command} {rest : List Command} (hp : s.pending = c :: rest)
    (hr : refuses s c = none) : step s = runWord c.word { s with pending := rest } := by
  unfold step
  rw [fetch_cons hp]
  simp only [hr]

/-! Bring-up (70_reset_and_hazards.md R232). -/

theorem firstBadChan_eq_none_iff {ids : List Byte} {c : Nat} :
    firstBadChan ids c = none ↔ ids.all recognised = true := by
  induction ids generalizing c with
  | nil => simp [firstBadChan]
  | cons id rest ih =>
    unfold firstBadChan
    by_cases h : recognised id = true
    · simp [h, ih]
    · simp [h]

/-- The first bad entry and its position. -/
theorem firstBadChan_append {pre post : List Byte} {id : Byte} (c : Nat) (hpre : pre.all recognised = true)
    (hid : recognised id = false) : firstBadChan (pre ++ id :: post) c = some (c + pre.length, id) := by
  induction pre generalizing c with
  | nil => simp [firstBadChan, hid]
  | cons d rest ih =>
    simp only [List.all_cons, Bool.and_eq_true] at hpre
    simp only [List.cons_append, firstBadChan, hpre.1, if_true, List.length_cons]
    rw [ih (c + 1) hpre.2]
    congr 2
    omega

/-- All a bring-up can do. -/
theorem bringUp_cases (s : State) :
    (s.cfg.chanMap.all recognised = true ∧ bringUp s = { s with encReady := true }) ∨
    (s.cfg.chanMap.all recognised = false ∧ ∃ c id,
      bringUp s = { s with encReady := false, events := s.events ++ [.cfgErrInit c id] }) := by
  unfold bringUp
  cases h : firstBadChan s.cfg.chanMap 0 with
  | none => exact .inl ⟨firstBadChan_eq_none_iff.mp h, rfl⟩
  | some p =>
    obtain ⟨c, id⟩ := p
    refine .inr ⟨?_, c, id, rfl⟩
    cases hb : s.cfg.chanMap.all recognised with
    | false => rfl
    | true => rw [firstBadChan_eq_none_iff.mpr hb] at h; simp at h

/-! The decoder engine (40_frame_decoder.md R133). -/

/-- A header byte touches the header and the event trace only. -/
theorem headerByte_cases (i : Nat) (b : Byte) (s : State) :
    (i ≤ 3 ∧ b = magic i ∧ headerByte i b s = acceptMagic i b s) ∨
    (i ≤ 3 ∧ b ≠ magic i ∧ headerByte i b s = missMagic i b s) ∨
    (i = 4 ∧ headerByte i b s = acceptLenLo b s) ∨
    (i = 5 ∧ headerByte i b s = acceptLenHi b s) ∨
    (6 ≤ i ∧ headerByte i b s = acceptCrc b s) := by
  unfold headerByte
  by_cases h3 : i ≤ 3
  · by_cases hb : b = magic i <;> simp [h3, hb]
  · by_cases h4 : i = 4
    · simp [h4]
    · by_cases h5 : i = 5
      · simp [h5]
      · have : 6 ≤ i := by omega
        simp [h3, h4, h5, this]

/-- After an element: the frame commits, or the cursor moves past the element. -/
theorem elementDone_cases (k : Nat) (s : State) :
    (k + 1 = payloadTotal s ∧ elementDone k s = commit s) ∨
    (k + 1 ≠ payloadTotal s ∧ elementDone k s = s.setCursor (7 + k + 1)) := by
  unfold elementDone
  by_cases h : k + 1 = payloadTotal s <;> simp [h]

/-- All a payload element can do. -/
theorem payloadElement_next {k : Nat} {s t : State} (h : payloadElement k s = .next t) :
    (k < s.hdr.len.toNat ∧ s.ring = [] ∧ t = s.answer .held) ∨
    (∃ b rest, k < s.hdr.len.toNat ∧ s.ring = b :: rest ∧ k < s.cfg.pktMax.toNat ∧
      t = (copyElement k b { s with ring := rest }).answer .done) ∨
    (∃ b rest, k < s.hdr.len.toNat ∧ s.ring = b :: rest ∧ s.cfg.pktMax.toNat ≤ k ∧
      t = (dropElement k { s with ring := rest }).answer .done) ∨
    (s.hdr.len.toNat ≤ k ∧ k < s.cfg.pktMax.toNat ∧
      t = (elementDone k { s with pkt := memWrite s.pkt k 0#8 }).answer .done) := by
  unfold payloadElement at h
  by_cases hk : k < s.hdr.len.toNat
  · simp only [hk, if_true] at h
    cases hr : s.ring with
    | nil => rw [ringPop_nil hr] at h; simp at h; exact .inl ⟨hk, rfl, h⟩
    | cons b rest =>
      rw [ringPop_cons hr] at h
      by_cases hm : k < s.cfg.pktMax.toNat
      · simp [hm] at h
        exact .inr (.inl ⟨b, rest, hk, rfl, hm, h⟩)
      · simp [hm] at h
        exact .inr (.inr (.inl ⟨b, rest, hk, rfl, by omega, h⟩))
  · simp only [hk, if_false, zeroElement] at h
    cases hw : elementWrite s.cfg.pktMax.toNat s.pkt k 0#8 with
    | error f => rw [hw] at h; simp at h
    | ok pkt =>
      rw [hw] at h
      obtain ⟨hm, rfl⟩ := elementWrite_ok_iff.mp hw
      simp at h
      exact .inr (.inr (.inr ⟨by omega, hm, h⟩))

/-- All a `DEC_STEP` can do (R106). -/
theorem execDecStep_next {s t : State} (h : execDecStep s = .next t) :
    (s.cursor ≤ 6 ∧ s.ring = [] ∧ t = s.answer .held) ∨
    (∃ b rest, s.cursor ≤ 6 ∧ s.ring = b :: rest ∧
      t = (headerByte s.cursor b { s with ring := rest }).answer .done) ∨
    (s.cursor = 7 ∧ s.ring.length < s.hdr.len.toNat ∧ t = s.answer .held) ∨
    (s.cursor = 7 ∧ s.hdr.len.toNat ≤ s.ring.length ∧ crcAccepts s = false ∧ t = (crcFail s).answer .done) ∨
    (s.cursor = 7 ∧ s.hdr.len.toNat ≤ s.ring.length ∧ crcAccepts s = true ∧ payloadElement 0 s = .next t) ∨
    (8 ≤ s.cursor ∧ payloadElement (s.cursor - 7) s = .next t) := by
  unfold execDecStep ringCount at h
  by_cases h6 : s.cursor ≤ 6
  · simp only [h6, if_true] at h
    cases hr : s.ring with
    | nil => rw [ringPop_nil hr] at h; simp at h; exact .inl ⟨h6, rfl, h⟩
    | cons b rest =>
      rw [ringPop_cons hr] at h
      simp at h
      exact .inr (.inl ⟨b, rest, h6, rfl, h⟩)
  · by_cases h7 : s.cursor = 7
    · simp only [h7, show ¬ (7 ≤ 6) by omega, if_false, if_true] at h
      by_cases hc : s.ring.length < s.hdr.len.toNat
      · simp [hc] at h; exact .inr (.inr (.inl ⟨h7, hc, h⟩))
      · simp only [hc, if_false] at h
        cases ha : crcAccepts s with
        | true => rw [ha] at h; exact .inr (.inr (.inr (.inr (.inl ⟨h7, by omega, rfl, by simpa using h⟩))))
        | false => rw [ha] at h; simp at h; exact .inr (.inr (.inr (.inl ⟨h7, by omega, rfl, h⟩)))
    · simp only [h6, h7, if_false, payloadIndex] at h
      exact .inr (.inr (.inr (.inr (.inr ⟨by omega, h⟩))))

/-- All a wire class as an instruction can do: its effect after the pop, or nothing. -/
theorem runWire_next {i : Instr} {eff : State → State} {s t : State} (h : runWire i eff s = .next t) :
    (nextWire s = some i ∧ ∃ b rest, s.ring = b :: rest ∧ t = (eff { s with ring := rest }).answer .done) ∨
    (nextWire s ≠ some i ∧ t = s.answer .held) := by
  unfold runWire at h
  by_cases hn : nextWire s = some i
  · simp only [hn, if_true] at h
    cases hr : s.ring with
    | nil => simp [nextWire, hr] at hn
    | cons b rest =>
      rw [ringPop_cons hr] at h
      simp at h
      exact .inl ⟨hn, b, rest, rfl, h⟩
  · simp [hn] at h
    exact .inr ⟨hn, h⟩

theorem runWire_of_read {i : Instr} {eff : State → State} {s : State} {b : Byte} {rest : List Byte}
    (hn : nextWire s = some i) (hr : s.ring = b :: rest) :
    runWire i eff s = .next ((eff { s with ring := rest }).answer .done) := by
  simp [runWire, hn, ringPop_cons hr, done]

/-! The encoder engine (41_led_encoder.md R166 to R172). -/

/-- All a channel byte can be. -/
theorem chanByte_ok_iff {s : State} {px : Nat} {id v : Byte} :
    chanByte s px id = .ok v ↔
      (id = 0#8 ∧ v = 0#8) ∨ (id ≠ 0#8 ∧ chanIndex px id < s.cfg.pixLen ∧ memRead s.pix (chanIndex px id) = some v) := by
  unfold chanByte
  by_cases h : id = 0#8
  · subst h
    rw [if_pos rfl]
    constructor
    · intro hv
      exact .inl ⟨rfl, (Except.ok.inj hv).symm⟩
    · rintro (⟨_, rfl⟩ | ⟨hn, _⟩)
      · rfl
      · exact absurd rfl hn
  · rw [if_neg h, elementRead_ok_iff]
    exact ⟨fun hv => .inr ⟨h, hv⟩, fun hv => hv.elim (fun h0 => absurd h0.1 h) (fun h1 => h1.2)⟩

/-- After a word: the assembly ends, or moves to the next word. -/
theorem wordDone_cases (p : Nat) (s : State) :
    (p + 1 = s.cfg.fbLen ∧ wordDone p s = (s.encEnd statusDone).emit (.encDone s.cfg.fbLen)) ∨
    (p + 1 ≠ s.cfg.fbLen ∧ wordDone p s = s.setEncPos (p + 1)) := by
  unfold wordDone
  by_cases h : p + 1 = s.cfg.fbLen <;> simp [h]

/-- All a frame-buffer write can do. -/
theorem writeWord_next_iff {p : Nat} {w : Word} {s t : State} :
    writeWord p w s = .next t ↔
      p < s.cfg.fbLen ∧ t = (wordDone p { s with fb := memWrite s.fb p w }).answer .done := by
  unfold writeWord
  by_cases h : p < s.cfg.fbLen
  · simp [elementWrite_of_lt s.fb w h, h]
  · simp [elementWrite_of_le s.fb w (Nat.le_of_not_lt h), h]

/-- All a data word can do (R168 to R170). -/
theorem dataWord_next {p : Nat} {s t : State} (h : dataWord p s = .next t) :
    (∃ v, recognised (chanAt s ((p - 1) % s.cfg.numColors)) = true ∧
      chanByte s ((p - 1) / s.cfg.numColors) (chanAt s ((p - 1) % s.cfg.numColors)) = .ok v ∧
      writeWord p (encodeByte s.cfg.polarity v) s = .next t) ∨
    (recognised (chanAt s ((p - 1) % s.cfg.numColors)) = false ∧
      t = (cfgAbort ((p - 1) % s.cfg.numColors) (chanAt s ((p - 1) % s.cfg.numColors)) s).answer .done) := by
  unfold dataWord at h
  simp only at h
  cases hr : recognised (chanAt s ((p - 1) % s.cfg.numColors)) with
  | false => rw [hr] at h; simp at h; exact .inr ⟨rfl, h⟩
  | true =>
    rw [hr] at h
    simp only [if_true] at h
    cases hc : chanByte s ((p - 1) / s.cfg.numColors) (chanAt s ((p - 1) % s.cfg.numColors)) with
    | error f => rw [hc] at h; simp at h
    | ok v => rw [hc] at h; exact .inl ⟨v, rfl, rfl, h⟩

/-- All an `ENC_STEP` can do (R166). -/
theorem execEncStep_next {s t : State} (h : execEncStep s = .next t) :
    s.encReady = true ∧
    ((s.encBusy = false ∧ t = s.answer .held) ∨
     (s.encBusy = true ∧ s.encPos.toNat = 0 ∧ writeWord 0 (resetWord s.cfg.polarity) s = .next t) ∨
     (s.encBusy = true ∧ 1 ≤ s.encPos.toNat ∧ s.encPos.toNat ≤ s.cfg.dataWords ∧
       dataWord s.encPos.toNat s = .next t) ∨
     (s.encBusy = true ∧ s.cfg.dataWords < s.encPos.toNat ∧
       writeWord s.encPos.toNat (resetWord s.cfg.polarity) s = .next t)) := by
  unfold execEncStep at h
  obtain ⟨hr, h⟩ := whenReady_next_iff.mp h
  refine ⟨hr, ?_⟩
  cases hb : s.encBusy with
  | false => simp [hb] at h; exact .inl ⟨rfl, h⟩
  | true =>
    simp only [hb, if_true] at h
    by_cases h0 : s.encPos.toNat = 0
    · simp only [h0, if_true] at h
      exact .inr (.inl ⟨rfl, h0, h⟩)
    · by_cases hd : s.encPos.toNat ≤ s.cfg.dataWords
      · simp only [h0, hd, if_true, if_false] at h
        exact .inr (.inr (.inl ⟨rfl, by omega, hd, h⟩))
      · simp only [h0, hd, if_false] at h
        exact .inr (.inr (.inr ⟨rfl, by omega, h⟩))

/-! Memory.wf is kept by every operation that writes memory. -/

theorem copyElement_pkt (k : Nat) (b : Byte) (s : State) : (copyElement k b s).pkt = memWrite s.pkt k b := by
  rcases elementDone_cases k { s with pkt := memWrite s.pkt k b } with ⟨_, h⟩ | ⟨_, h⟩ <;>
    simp [copyElement, h, commit]

theorem dropElement_pkt (k : Nat) (s : State) : (dropElement k s).pkt = s.pkt := by
  rcases elementDone_cases k s with ⟨_, h⟩ | ⟨_, h⟩ <;> simp [dropElement, h, commit]

theorem headerByte_pkt (i : Nat) (b : Byte) (s : State) : (headerByte i b s).pkt = s.pkt := by
  rcases headerByte_cases i b s with ⟨_, _, h⟩ | ⟨_, _, h⟩ | ⟨_, h⟩ | ⟨_, h⟩ | ⟨_, h⟩ <;>
    simp [h, acceptMagic, missMagic, acceptLenLo, acceptLenHi, acceptCrc]

theorem wordDone_fb (p : Nat) (s : State) : (wordDone p s).fb = s.fb := by
  rcases wordDone_cases p s with ⟨_, h⟩ | ⟨_, h⟩ <;> simp [h]

end Sys2Proof.Machine
end

