-- ==== Sys2Proof/Laws/Drain.lean ====
section
/-! SUPPORT. `DEC_DRAIN` has enough fuel: every `DEC_STEP` that takes effect lowers `drainFuel`, so the repetition ends
where `DEC_STEP` holds (30_encoding.md R93, 40_frame_decoder.md R134). No invariant is needed. -/

namespace Sys2Proof.Machine

/-- What is left of the frame in progress at a cursor. -/
def frameFuel (pktMax cursor : Nat) : Nat := if 7 ≤ cursor then pktMax + 8 - cursor else 0

theorem drainFuel_eq (s : State) :
    drainFuel s = s.ring.length * (s.cfg.pktMax.toNat + 2) + frameFuel s.cfg.pktMax.toNat s.cursor := rfl

theorem frameFuel_le (p c : Nat) : frameFuel p c ≤ p + 1 := by
  unfold frameFuel
  split <;> omega

/-- A step that pops a byte lowers the fuel. -/
theorem drainFuel_pop {s t : State} {b : Byte} {rest : List Byte} (hs : s.ring = b :: rest) (ht : t.ring = rest)
    (hp : t.cfg = s.cfg) : drainFuel t < drainFuel s := by
  have := frameFuel_le s.cfg.pktMax.toNat t.cursor
  rw [drainFuel_eq, drainFuel_eq, hs, ht, hp, List.length_cons, Nat.succ_mul]
  omega

/-- A step that pops nothing lowers it when it moves the frame on. -/
theorem drainFuel_keep {s t : State} (hr : t.ring = s.ring) (hp : t.cfg = s.cfg)
    (hc : frameFuel s.cfg.pktMax.toNat t.cursor < frameFuel s.cfg.pktMax.toNat s.cursor) :
    drainFuel t < drainFuel s := by
  rw [drainFuel_eq, drainFuel_eq, hr, hp]
  omega

@[simp] theorem elementDone_ring (k : Nat) (s : State) : (elementDone k s).ring = s.ring := by
  unfold elementDone; split <;> rfl

@[simp] theorem elementDone_cfg (k : Nat) (s : State) : (elementDone k s).cfg = s.cfg := by
  unfold elementDone; split <;> rfl

/-- After an element the cursor is 0, or the next element's. -/
theorem elementDone_cursor (k : Nat) (s : State) :
    (elementDone k s).cursor = 0 ∨ (elementDone k s).cursor = (7 + k + 1) % 2 ^ 32 := by
  unfold elementDone
  split
  · exact .inl rfl
  · exact .inr (by simp [State.cursor, State.setCursor])

@[simp] theorem headerByte_ring (i : Nat) (b : Byte) (s : State) : (headerByte i b s).ring = s.ring := by
  unfold headerByte
  repeat' split
  all_goals rfl

@[simp] theorem headerByte_cfg (i : Nat) (b : Byte) (s : State) : (headerByte i b s).cfg = s.cfg := by
  unfold headerByte
  repeat' split
  all_goals rfl

/-- A zero fill lowers the fuel. -/
theorem drainFuel_zeroElement {k : Nat} {s t : State} (hk : s.cursor = 7 + k) (h : zeroElement k s = .next t) :
    drainFuel t < drainFuel s := by
  unfold zeroElement elementWrite at h
  by_cases hlt : k < s.cfg.pktMax.toNat
  · simp only [hlt, if_true, done_next_iff] at h
    subst h
    refine drainFuel_keep (by simp [State.answer]) (by simp [State.answer]) ?_
    have hc := elementDone_cursor k { s with pkt := memWrite s.pkt k 0#8 }
    rw [show ((elementDone k { s with pkt := memWrite s.pkt k 0#8 }).answer .done).cursor =
      (elementDone k { s with pkt := memWrite s.pkt k 0#8 }).cursor from rfl]
    rcases Nat.lt_or_ge (7 + k + 1) (2 ^ 32) with hw | hw
    · rw [Nat.mod_eq_of_lt hw] at hc
      unfold frameFuel
      rcases hc with hc | hc <;> rw [hc, hk] <;> split <;> split <;> omega
    · have h0 : (7 + k + 1) % 2 ^ 32 = 0 := by
        have : s.cursor < 2 ^ 32 := s.hdr.idx.isLt
        omega
      rw [h0] at hc
      unfold frameFuel
      rcases hc with hc | hc <;> rw [hc, hk] <;> split <;> split <;> omega
  · simp [hlt] at h

/-- A payload element lowers the fuel, or holds. -/
theorem drainFuel_payloadElement {k : Nat} {s t : State} (hk : s.cursor = 7 + k) (h : payloadElement k s = .next t)
    (hr : t.result ≠ .held) : drainFuel t < drainFuel s := by
  unfold payloadElement at h
  split at h
  · cases hs : s.ring with
    | nil =>
      rw [ringPop_nil hs, hold_next_iff] at h
      exact absurd (by rw [h]; rfl) hr
    | cons b rest =>
      simp only [ringPop_cons hs, done_next_iff] at h
      subst h
      refine drainFuel_pop hs ?_ ?_ <;> split <;> simp [State.answer, copyElement, dropElement]
  · exact drainFuel_zeroElement hk h

/-- Every `DEC_STEP` that takes effect lowers the fuel. -/
theorem drainFuel_decStep {s t : State} (h : exec .decStep s = .next t) (hr : t.result ≠ .held) :
    drainFuel t < drainFuel s := by
  change execDecStep s = .next t at h
  unfold execDecStep at h
  split at h
  · cases hs : s.ring with
    | nil =>
      rw [ringPop_nil hs, hold_next_iff] at h
      exact absurd (by rw [h]; rfl) hr
    | cons b rest =>
      simp only [ringPop_cons hs, done_next_iff] at h
      subst h
      exact drainFuel_pop hs (by simp [State.answer]) (by simp [State.answer])
  · split at h
    · rename_i h7
      split at h
      · rw [hold_next_iff] at h
        exact absurd (by rw [h]; rfl) hr
      · split at h
        · exact drainFuel_payloadElement (by omega) h hr
        · rw [done_next_iff] at h
          subst h
          refine drainFuel_keep rfl rfl ?_
          rw [show ((crcFail s).answer .done).cursor = 0 from rfl, h7]
          simp [frameFuel]
    · exact drainFuel_payloadElement (by unfold payloadIndex; omega) h hr

theorem decDrainFor_ends {fuel : Nat} {s t : State} (hf : drainFuel s < fuel) (h : decDrainFor fuel s = .next t) :
    ∃ u, exec .decStep t = .next u ∧ u.result = .held := by
  induction fuel generalizing s with
  | zero => omega
  | succ n ih =>
    unfold decDrainFor at h
    split at h
    · rename_i u hu
      split at h
      · rename_i hr
        simp only [Host.Outcome.next.injEq] at h
        exact h ▸ ⟨u, hu, hr⟩
      · rename_i hr
        exact ih (by have := drainFuel_decStep hu hr; omega) h
    · simp at h
    · simp at h

/-- Where `DEC_DRAIN` ends, `DEC_STEP` holds. -/
theorem decDrain_ends {s t : State} (h : decDrain s = .next t) :
    ∃ u, exec .decStep t = .next u ∧ u.result = .held :=
  decDrainFor_ends (Nat.lt_succ_self _) h

end Sys2Proof.Machine
end

