-- ==== Sys2Proof/Laws/Encoding.lean ====
section
/-! SUPPORT. The fields of a command word built from its fields, and a command word built again from its fields
(30_encoding.md R85, R87). -/

namespace Sys2Proof.Laws

theorem dat_of_append (a : BitVec 4) (b : BitVec 20) (c : BitVec 8) : (a ++ b ++ c).extractLsb' 0 8 = c := by
  apply BitVec.eq_of_getLsbD_eq; intro i hi
  rw [BitVec.getLsbD_extractLsb', BitVec.getLsbD_append]
  simp [hi]

theorem idx_of_append (a : BitVec 4) (b : BitVec 20) (c : BitVec 8) : (a ++ b ++ c).extractLsb' 8 20 = b := by
  apply BitVec.eq_of_getLsbD_eq; intro i hi
  rw [BitVec.getLsbD_extractLsb', BitVec.getLsbD_append, BitVec.getLsbD_append]
  simp [hi]
theorem op_of_append (a : BitVec 4) (b : BitVec 20) (c : BitVec 8) : (a ++ b ++ c).extractLsb' 28 4 = a := by
  apply BitVec.eq_of_getLsbD_eq; intro i hi
  rw [BitVec.getLsbD_extractLsb', BitVec.getLsbD_append, BitVec.getLsbD_append]
  simp [hi, show ¬ (28 + i < 8) by omega, show ¬ (28 + i - 8 < 20) by omega, show 28 + i - 8 - 20 = i by omega]
theorem op_of_reserved (a : BitVec 4) (b : BitVec 28)  : (a ++ b).extractLsb' 28 4 = a := by
  apply BitVec.eq_of_getLsbD_eq; intro i hi
  rw [BitVec.getLsbD_extractLsb', BitVec.getLsbD_append]
  simp [hi]

theorem rest_of_reserved (a : BitVec 4) (b : BitVec 28)  : (a ++ b).extractLsb' 0 28 = b := by
  apply BitVec.eq_of_getLsbD_eq; intro i hi
  rw [BitVec.getLsbD_extractLsb', BitVec.getLsbD_append]
  simp [hi]

/-- A word is its three fields. -/
theorem word_eq_fields (w : Word) : w = w.extractLsb' 28 4 ++ w.extractLsb' 8 20 ++ w.extractLsb' 0 8 := by
  apply BitVec.eq_of_getLsbD_eq; intro i hi
  rw [BitVec.getLsbD_append, BitVec.getLsbD_append]
  by_cases h : i < 8
  · simp [h]
  · by_cases h2 : i - 8 < 20
    · simp [h, h2, show 8 + (i - 8) = i by omega]
    · simp [h, h2, show 28 + (i - 8 - 20) = i by omega]; omega

theorem and_of_fields (a a' : BitVec 4) (b b' : BitVec 20) (c c' : BitVec 8) : (a ++ b ++ c) &&& (a' ++ b' ++ c') = (a &&& a') ++ (b &&& b') ++ (c &&& c') := by
  rw [BitVec.and_append, BitVec.and_append]

theorem fields_inj {a a' : BitVec 4} {b b' : BitVec 20} {c c' : BitVec 8} : (a ++ b ++ c) = (a' ++ b' ++ c') ↔ a = a' ∧ b = b' ∧ c = c' := by
  constructor
  · intro h
    exact ⟨by rw [← op_of_append a b c, h, op_of_append], by rw [← idx_of_append a b c, h, idx_of_append], by rw [← dat_of_append a b c, h, dat_of_append]⟩
  · rintro ⟨rfl, rfl, rfl⟩; rfl

/-- A row of R87's table, field by field. -/
theorem row_match_iff (w : Word) (m o : BitVec 4) (mi oi : BitVec 20) (md od : BitVec 8) :
  (w &&& (m ++ mi ++ md) = o ++ oi ++ od) ↔ (opField w &&& m = o ∧ idxField w &&& mi = oi ∧ datField w &&& md = od) := by
  conv => lhs; lhs; lhs; rw [word_eq_fields w]
  rw [and_of_fields, fields_inj]; rfl

end Sys2Proof.Laws
end

