-- ==== Sys2Proof/Laws/PerInstr.lean ====
section
/-! SUPPORT. Facts stated once for every instruction: a well-formed instruction's encoding has, under its row's mask, its
row's match (spec/opcode_table.json; 30_encoding.md R87, R88 and R75). -/

namespace Sys2Proof.Laws.MatchesRow

/-- The match and the mask of an instruction's row; a wire class whose row fixes no bit has mask 0. -/
def row : Instr → BitVec 32 × BitVec 32
  | .rxByte _ => (0x10000000, 0xFFFFFF00)
  | .decStep => (0x20000000, 0xFFFFFFFF)
  | .pktRead _ => (0x30000000, 0xF00000FF)
  | .sigTake => (0x40000000, 0xFFFFFFFF)
  | .pixWrite _ _ => (0x50000000, 0xF0000000)
  | .encByte _ => (0x60000000, 0xFFFFFF00)
  | .encStart => (0x70000000, 0xFFFFFFFF)
  | .encStep => (0x80000000, 0xFFFFFFFF)
  | .fbRead _ => (0x90000000, 0xF00000FF)
  | .reset => (0xF0000000, 0xFFFFFFFF)
  | .reservedOp0 _ => (0x00000000, 0xF0000000)
  | .reservedOpA _ => (0xA0000000, 0xF0000000)
  | .reservedOpB _ => (0xB0000000, 0xF0000000)
  | .reservedOpC _ => (0xC0000000, 0xF0000000)
  | .reservedOpD _ => (0xD0000000, 0xF0000000)
  | .reservedOpE _ => (0xE0000000, 0xF0000000)
  | .wMagicU _ => (0x55, 0xFF)
  | .wMagicA _ => (0x41, 0xFF)
  | .wMagicR _ => (0x52, 0xFF)
  | .wMagicT _ => (0x54, 0xFF)
  | .wMagicMiss _ => (0, 0)
  | .wLenLo _ => (0, 0)
  | .wLenHi _ => (0, 0)
  | .wCrc _ => (0, 0)
  | .wPayCopy _ => (0, 0)
  | .wPayDrop _ => (0, 0)

/-- The bits of an encoding as one number, bit 0 the least significant. -/
def bits : Encoded → BitVec 32
  | .cmd w => w
  | .wire b => b.setWidth 32

/-- A well-formed instruction matches its row. -/
def Statement (i : Instr) : Prop := i.wellFormed = true → bits (encode i) &&& (row i).2 = (row i).1

/-- A word of three fields under a mask of three fields. -/
theorem and_fields (a m : BitVec 4) (b n : BitVec 20) (c o : BitVec 8) :
    (a ++ b ++ c) &&& (m ++ n ++ o) = (a &&& m) ++ (b &&& n) ++ (c &&& o) := by
  rw [BitVec.and_append, BitVec.and_append]

theorem byte_row (op : BitVec 4) (b : Byte) : (op ++ 0#20 ++ b) &&& 0xFFFFFF00 = (op ++ 0#20 ++ 0#8 : BitVec 32) := by
  have h : (0xFFFFFF00 : BitVec 32) = BitVec.allOnes 4 ++ BitVec.allOnes 20 ++ 0#8 := by decide
  rw [h, and_fields, BitVec.and_allOnes, BitVec.and_allOnes, BitVec.and_zero]

theorem index_row (op : BitVec 4) (i : Index) : (op ++ i ++ 0#8) &&& 0xF00000FF = (op ++ 0#20 ++ 0#8 : BitVec 32) := by
  have h : (0xF00000FF : BitVec 32) = BitVec.allOnes 4 ++ 0#20 ++ BitVec.allOnes 8 := by decide
  rw [h, and_fields, BitVec.and_allOnes, BitVec.and_allOnes, BitVec.and_zero]

theorem both_row (op : BitVec 4) (i : Index) (v : Byte) :
    (op ++ i ++ v) &&& 0xF0000000 = (op ++ 0#20 ++ 0#8 : BitVec 32) := by
  have h : (0xF0000000 : BitVec 32) = BitVec.allOnes 4 ++ 0#20 ++ 0#8 := by decide
  rw [h, and_fields, BitVec.and_allOnes, BitVec.and_zero, BitVec.and_zero]

theorem rest_row (op : BitVec 4) (rest : BitVec 28) : (op ++ rest) &&& 0xF0000000 = (op ++ 0#28 : BitVec 32) := by
  have h : (0xF0000000 : BitVec 32) = BitVec.allOnes 4 ++ 0#28 := by decide
  rw [h, BitVec.and_append, BitVec.and_allOnes, BitVec.and_zero]

theorem rxByte (b : Byte) : Statement (.rxByte b) := fun _ => byte_row _ b
theorem decStep : Statement .decStep := fun _ => by decide
theorem pktRead (i : Index) : Statement (.pktRead i) := fun _ => index_row _ i
theorem sigTake : Statement .sigTake := fun _ => by decide
theorem pixWrite (i : Index) (v : Byte) : Statement (.pixWrite i v) := fun _ => both_row _ i v
theorem encByte (b : Byte) : Statement (.encByte b) := fun _ => byte_row _ b
theorem encStart : Statement .encStart := fun _ => by decide
theorem encStep : Statement .encStep := fun _ => by decide
theorem fbRead (i : Index) : Statement (.fbRead i) := fun _ => index_row _ i
theorem reset : Statement .reset := fun _ => by decide
theorem reservedOp0 (rest : BitVec 28) : Statement (.reservedOp0 rest) := fun _ => rest_row _ rest
theorem reservedOpA (rest : BitVec 28) : Statement (.reservedOpA rest) := fun _ => rest_row _ rest
theorem reservedOpB (rest : BitVec 28) : Statement (.reservedOpB rest) := fun _ => rest_row _ rest
theorem reservedOpC (rest : BitVec 28) : Statement (.reservedOpC rest) := fun _ => rest_row _ rest
theorem reservedOpD (rest : BitVec 28) : Statement (.reservedOpD rest) := fun _ => rest_row _ rest
theorem reservedOpE (rest : BitVec 28) : Statement (.reservedOpE rest) := fun _ => rest_row _ rest
theorem wMagicU (b : Byte) : Statement (.wMagicU b) := by
  intro h
  simp only [Instr.wellFormed, beq_iff_eq] at h
  subst h
  decide
theorem wMagicA (b : Byte) : Statement (.wMagicA b) := by
  intro h
  simp only [Instr.wellFormed, beq_iff_eq] at h
  subst h
  decide
theorem wMagicR (b : Byte) : Statement (.wMagicR b) := by
  intro h
  simp only [Instr.wellFormed, beq_iff_eq] at h
  subst h
  decide
theorem wMagicT (b : Byte) : Statement (.wMagicT b) := by
  intro h
  simp only [Instr.wellFormed, beq_iff_eq] at h
  subst h
  decide
theorem wMagicMiss (b : Byte) : Statement (.wMagicMiss b) := fun _ => BitVec.and_zero
theorem wLenLo (b : Byte) : Statement (.wLenLo b) := fun _ => BitVec.and_zero
theorem wLenHi (b : Byte) : Statement (.wLenHi b) := fun _ => BitVec.and_zero
theorem wCrc (b : Byte) : Statement (.wCrc b) := fun _ => BitVec.and_zero
theorem wPayCopy (b : Byte) : Statement (.wPayCopy b) := fun _ => BitVec.and_zero
theorem wPayDrop (b : Byte) : Statement (.wPayDrop b) := fun _ => BitVec.and_zero

end Sys2Proof.Laws.MatchesRow
end

