-- ==== Sys2Proof/Tests/Slice0.lean ====
section
/-! SUPPORT. The model's own tests: the words of every encoding written out by hand, the checks of WellFormed, worked
examples of the spec on one step each, and for every statement with hypotheses a state that meets them. -/

namespace Sys2Proof.Tests

open Sys2Proof.Machine

/-! ## WellFormed: each check refuses an ill-formed term -/

theorem test_wf_magic_u : (Instr.wMagicU 0x41).wellFormed = false := by decide
theorem test_wf_magic_a : (Instr.wMagicA 0x55).wellFormed = false := by decide
theorem test_wf_magic_r : (Instr.wMagicR 0x72).wellFormed = false := by decide
theorem test_wf_magic_t : (Instr.wMagicT 0x00).wellFormed = false := by decide

/-! ## Decoding: every constructor's word, from 30_encoding.md R75, R85 to R89 -/

-- 95_test_vectors.md V-C1, V-C2, V-C3, V-C12.
theorem test_decode_rx_byte : decodeWord 0x10000055 = .ok (.rxByte 0x55) := by decide
theorem test_decode_dec_step : decodeWord 0x20000000 = .ok .decStep := by decide
theorem test_decode_pkt_read : decodeWord 0x30000100 = .ok (.pktRead 1) := by decide
theorem test_decode_sig_take : decodeWord 0x40000000 = .ok .sigTake := by decide
-- V-C4, V-C13, program P2, V-C5.
theorem test_decode_pix_write : decodeWord 0x500001FF = .ok (.pixWrite 1 0xFF) := by decide
theorem test_decode_pix_write_top : decodeWord 0x5FFFFFFF = .ok (.pixWrite 0xFFFFF 0xFF) := by decide
theorem test_decode_enc_byte : decodeWord 0x600000A5 = .ok (.encByte 0xA5) := by decide
theorem test_decode_enc_start : decodeWord 0x70000000 = .ok .encStart := by decide
theorem test_decode_enc_step : decodeWord 0x80000000 = .ok .encStep := by decide
theorem test_decode_fb_read : decodeWord 0x90000600 = .ok (.fbRead 6) := by decide
theorem test_decode_reset : decodeWord 0xF0000000 = .ok .reset := by decide
-- V-C6, V-C7 and the codes between.
theorem test_decode_reserved :
    decodeWord 0x00000000 = .ok (.reservedOp0 0) ∧ decodeWord 0xA0000000 = .ok (.reservedOpA 0) ∧
    decodeWord 0xB0000001 = .ok (.reservedOpB 1) ∧ decodeWord 0xC8000000 = .ok (.reservedOpC 0x8000000) ∧
    decodeWord 0xDFFFFFFF = .ok (.reservedOpD 0xFFFFFFF) ∧ decodeWord 0xE1234567 = .ok (.reservedOpE 0x1234567) := by
  decide
-- V-C8 to V-C11.
theorem test_decode_reserved_operand :
    decodeWord 0x10000155 = .error .reservedOperand ∧ decodeWord 0x20000001 = .error .reservedOperand ∧
    decodeWord 0x3FFFFF05 = .error .reservedOperand ∧ decodeWord 0xF0000001 = .error .reservedOperand := by
  decide
-- R70, R75: each class at its cursor; PKT_MAX 2 and length 4 for the payload (R118, R119 examples).
theorem test_decode_wire_magic :
    decodeWire 0 0 2 0x55 = some (.wMagicU 0x55) ∧ decodeWire 1 0 2 0x41 = some (.wMagicA 0x41) ∧
    decodeWire 2 0 2 0x52 = some (.wMagicR 0x52) ∧ decodeWire 3 0 2 0x54 = some (.wMagicT 0x54) ∧
    decodeWire 1 0 2 0x55 = some (.wMagicMiss 0x55) := by
  decide
theorem test_decode_wire_fields :
    decodeWire 4 0 2 0x55 = some (.wLenLo 0x55) ∧ decodeWire 5 2 2 0x01 = some (.wLenHi 0x01) ∧
    decodeWire 6 4 2 0xAB = some (.wCrc 0xAB) ∧ decodeWire 8 4 2 0xAD = some (.wPayCopy 0xAD) ∧
    decodeWire 9 4 2 0xBE = some (.wPayDrop 0xBE) ∧ decodeWire 8 1 3 0xAA = none := by
  decide
-- The rows of spec/opcode_table.json, by their match.
theorem test_table_words :
    decodeTableWord 32 0x60000000 = some (.encByte 0) ∧ decodeTableWord 32 0xB0000000 = some (.reservedOpB 0) ∧
    decodeTableWord 8 0x55 = some (.wMagicU 0x55) ∧ decodeTableWord 8 0x52 = some (.wMagicR 0x52) ∧
    decodeTableWord 8 0x00 = some (.wMagicMiss 0) := by
  decide

/-! ## Small states -/

/-- The reset state with `PKT_MAX = m` and a header. -/
def decoderAt (m : Nat) (h : Header) (ring : List Byte) : State :=
  { State.reset with cfg := { State.reset.cfg with pktMax := BitVec.ofNat 32 m }, hdr := h, ring := ring }

/-- The reset state in an assembly at a position, with a channel map and one pixel. -/
def encoderAt (pos : Nat) (chans : List Byte) (pix : Space Byte) : State :=
  { State.reset with
    cfg := { State.reset.cfg with chanMap := chans }, encBusy := true, encPos := BitVec.ofNat 32 pos, pix := pix }

/-- The header of a frame of `n` bytes at a cursor. -/
def frameHeader (cursor n : Nat) (crc : Byte) : Header :=
  { idx := BitVec.ofNat 32 cursor, magic0 := 0x55, magic1 := 0x41, magic2 := 0x52, magic3 := 0x54
    len := BitVec.ofNat 16 n, crc := crc }

/-- A fact about the next state, when there is one. -/
def after (a : Answer) (p : State → Bool) : Bool :=
  match a with
  | .next t => p t
  | _ => false

/-- The answer is that fault. -/
def faults (a : Answer) (r : Fault) : Bool :=
  match a with
  | .fault q => q == r
  | _ => false

/-! ## Worked examples, one step each -/

-- R104 example, R105 with V-D9.
theorem test_rx_byte : after (exec (.rxByte 0x55) State.reset) (fun t => t.ring == [0x55]) = true := by decide
theorem test_rx_overrun :
    after (exec (.rxByte 0x52)
      { State.reset with params := { Config.reference with ringCap := 2 }, ring := [0x55, 0x41] })
      (fun t => t.ring == [0x55, 0x41] && t.events == [.rxOverrun 0x52]) = true := by decide
-- R106 and R108 examples.
theorem test_dec_step_magic :
    after (exec .decStep (decoderAt 4 Header.zero [0x55, 0x41])) (fun t => t.cursor == 1 && t.ring == [0x41]) = true := by
  decide
-- R109 to R111 examples.
theorem test_magic_a :
    after (exec (.wMagicA 0x41) (decoderAt 4 (headerAtMagic 1) [0x41]))
      (fun t => t.cursor == 2 && t.hdr.magic1 == 0x41 && t.ring == []) = true := by decide
theorem test_magic_r :
    after (exec (.wMagicR 0x52) (decoderAt 4 (headerAtMagic 2) [0x52, 0x54]))
      (fun t => t.cursor == 3 && t.ring == [0x54]) = true := by decide
theorem test_magic_t :
    after (exec (.wMagicT 0x54) (decoderAt 4 (headerAtMagic 3) [0x54, 0x04]))
      (fun t => t.cursor == 4 && t.ring == [0x04]) = true := by decide
-- V-D6: the second 'U' at cursor 1 is a mismatch and is consumed.
theorem test_magic_miss :
    after (exec (.wMagicMiss 0x55) (decoderAt 1 (headerAtMagic 1) [0x55, 0x41]))
      (fun t => t.hdr == Header.zero && t.ring == [0x41] && t.events == [.magicMismatch 1 0x55]) = true := by decide
-- R113 and R114 examples.
theorem test_len_lo :
    after (exec (.wLenLo 0x04) (decoderAt 4 (frameHeader 4 0 0) [0x04]))
      (fun t => t.hdr.len == 0x0004 && t.cursor == 5) = true := by decide
theorem test_len_hi :
    after (exec (.wLenHi 0x01) (decoderAt 4 (frameHeader 5 2 0) [0x01]))
      (fun t => t.hdr.len == 0x0102 && t.cursor == 6) = true := by decide
-- R115 example.
theorem test_crc :
    after (exec (.wCrc 0xAB) (decoderAt 4 (frameHeader 6 4 0) [0xAB, 0xDE]))
      (fun t => t.hdr.crc == 0xAB && t.cursor == 7 && t.ring == [0xDE]) = true := by decide
-- R117 and R118 examples; V-D1's last element commits.
theorem test_pay_copy_first :
    after (exec .decStep (decoderAt 4 (frameHeader 7 4 0xAB) [0xDE, 0xAD, 0xBE, 0xEF]))
      (fun t => memRead t.pkt 0 == some 0xDE && t.cursor == 8 && t.ring == [0xAD, 0xBE, 0xEF]) = true := by decide
theorem test_pay_copy_last :
    after (exec (.wPayCopy 0xEF) (decoderAt 4 (frameHeader 10 4 0xAB) [0xEF]))
      (fun t => memRead t.pkt 3 == some 0xEF && t.newData && t.hdr == Header.zero &&
        t.events == [.frameCommit 4]) = true := by decide
-- R119 example.
theorem test_pay_drop :
    after (exec (.wPayDrop 0xBE) (decoderAt 2 (frameHeader 9 4 0) [0xBE, 0xEF]))
      (fun t => t.pkt == [] && t.ring == [0xEF] && t.cursor == 10) = true := by decide
-- R120 example.
theorem test_zero_fill :
    after (exec .decStep (decoderAt 3 (frameHeader 8 1 0) []))
      (fun t => memRead t.pkt 1 == some 0 && t.cursor == 9) = true := by decide
-- R121 example with V-D10's hook: xor of 01 02 is 03, not 00.
theorem test_crc_fail :
    after (exec .decStep
      { decoderAt 2 (frameHeader 7 2 0) [0x01, 0x02] with
        params := { Config.reference with crcHook := .xorPayload } })
      (fun t => t.hdr == Header.zero && t.ring == [0x01, 0x02] && t.events == [.crcFail 0 2]) = true := by decide
-- R129 example, V-D14.
theorem test_pkt_read :
    after (exec (.pktRead 1) { State.reset with pkt := [(0, 0xDE), (1, 0xAD)] })
      (fun t => t.result == .byte 0xAD) = true := by decide
theorem test_pkt_read_faults :
    faults (exec (.pktRead 0) State.reset) .unwrittenRead = true ∧
    faults (exec (.pktRead 4) State.reset) .indexRange = true := by decide
-- R130, V-D15.
theorem test_sig_take :
    after (exec .sigTake { State.reset with newData := true }) (fun t => !t.newData && t.result == .done) = true := by
  decide
theorem test_sig_take_held : after (exec .sigTake State.reset) (fun t => t.result == .held) = true := by decide
-- R151 example, V-B8.
theorem test_pix_write :
    after (exec (.pixWrite 1 0xFF) State.reset) (fun t => t.pix == [(1, 0xFF)]) = true := by decide
theorem test_pix_write_range : faults (exec (.pixWrite 4 0) State.reset) .indexRange = true := by decide
-- R161: V-E1 to V-E3; V-E5 and V-E15.
theorem test_enc_byte : after (exec (.encByte 0x01) State.reset) (fun t => t.result == .word 0x888E8888) = true := by
  decide
theorem test_encode_vectors :
    encodeByte 0 0x00 = 0x88888888 ∧ encodeByte 0 0xFF = 0xEEEEEEEE ∧ encodeByte 0 0xA5 = 0x8E8EE8E8 ∧
    encodeByte 1 0xA5 = 0x71711717 ∧ encodeByte 0 0x80 = 0x8888E888 := by decide
-- R165 example, V-B10.
theorem test_enc_start :
    after (exec .encStart State.reset) (fun t => t.encBusy && t.encPos == 0) = true := by decide
theorem test_enc_start_not_ready :
    faults (exec .encStart { State.reset with encReady := false }) .encNotReady = true := by decide
-- R166 example; program P2, step 8: pixel 0, green.
theorem test_enc_step_pre :
    after (exec .encStep (encoderAt 0 [2, 1, 3] []))
      (fun t => memRead t.fb 0 == some 0x00000000 && t.encPos == 1) = true := by decide
theorem test_enc_step_data :
    after (exec .encStep (encoderAt 1 [2, 1, 3] [(0, 0x01), (1, 0xFF)]))
      (fun t => memRead t.fb 1 == some 0xEEEEEEEE && t.encPos == 2) = true := by decide
-- R175 with V-B6, V-B7 (FB_LEN is 7).
theorem test_fb_read :
    after (exec (.fbRead 2) { State.reset with fb := [(2, 0x888E8888)] })
      (fun t => t.result == .word 0x888E8888) = true := by decide
theorem test_fb_read_faults :
    faults (exec (.fbRead 0) State.reset) .unwrittenRead = true ∧
    faults (exec (.fbRead 7) State.reset) .indexRange = true := by decide
-- V-B9: the second entry is bad.
theorem test_reset_bad_map :
    after (exec .reset (State.powerOn { Config.reference with chanMap := [2, 7, 3] }))
      (fun t => !t.encReady && t.events == [.cfgErrInit 1 7]) = true := by decide
-- V-S2, V-S3.
theorem test_reset_keeps_faults :
    after (exec .reset { encoderAt 3 [2, 1, 3] [] with faults := FaultRecord.empty.add .indexRange })
      (fun t => t.faults.has .indexRange && !t.encBusy && t.encPos == 0 && t.encStatus == 0) = true := by decide
-- V-C7: the step records the fault and changes nothing else.
theorem test_reserved_step :
    after (step (State.reset.withFetchWord 32 0xA0000000))
      (fun t => t == { State.reset with
        faults := FaultRecord.empty.add .reservedOpcode, result := .faulted .reservedOpcode }) = true := by decide
-- A wire byte placed by the host is the one the next step's DEC_STEP runs.
theorem test_fetch_wire : after (step (State.reset.withFetchWord 8 0x52)) (fun t => t.cursor == 3) = true := by decide
-- V-P1: bits 7 to 1 as zero symbols, then bit 0 as a one symbol.
theorem test_slots :
    slots 0x888E8888 =
      [true, false, false, false, true, false, false, false, true, false, false, false, true, false, false, false,
        true, false, false, false, true, false, false, false, true, false, false, false, true, true, true, false] := by
  decide
-- R173: V-R1 to V-R3, V-R6, V-R9.
theorem test_reset_words :
    ceilResetWords 50 = 3 ∧ ceilResetWords 0 = 0 ∧ ceilResetWords 1 = 1 ∧ ceilResetWords 21 = 2 ∧
    ceilResetWords 280 = 14 ∧ ceilResetWords 4294967295 = 214748365 := by decide
-- R92, R93: program P2's line 3, and RX_FRAME's bytes (R70).
theorem test_assemble :
    assemble { agent := none, mnemonic := .pixWrite, operands := [.dec 1, .hex 0xFF] } =
      some { agent := .host, word := 0x500001FF } := by decide
/-- A character or a pixel that does not fit makes no operations (log entry 13). -/
theorem test_pseudo_operands :
    assemble { agent := none, mnemonic := .rxByte, operands := [.chr 'é'] } = none ∧
    rxStr "UA" = some [.rxByte 0x55, .rxByte 0x41] ∧ rxStr "é" = none ∧
    pixSet 1 1 2 3 4 = some [.pixWrite 4 1, .pixWrite 5 2, .pixWrite 6 3, .pixWrite 7 4] ∧
    pixSet 0x40000 1 2 3 4 = none := by decide
/-- R8 bounds `RING_CAP` from below only. -/
theorem test_admitted :
    ({ Config.reference with ringCap := 2 ^ 40 }).admissible = true := by decide
/-- DEC_DRAIN over a frame and a half: R93, R134. -/
theorem test_dec_drain :
    after (decDrain { State.reset with ring := frameBytes 1 0 [7] ++ [0x55, 0x41] })
      (fun t => t.newData && t.cursor == 2 && !decEnabled t) = true := by decide
/-- R252: a run ends with its consumer held, and not while a byte is still to be delivered. -/
theorem test_run_end :
    normalEnd { State.reset with pending := [{ agent := .cons, word := 0x40000000 }] } = true ∧
    normalEnd { State.reset with pending := [{ agent := .uart, word := 0x10000055 }] } = false ∧
    normalEnd { State.reset with ring := [0x55] } = false ∧
    normalEnd (State.reset.recordFault .indexRange) = false := by decide
/-- Lines of the shape R92 gives, with the words R87 gives. -/
theorem test_read_lines :
    assembleText "HOST: PIX_WRITE 1, 0xFF".toList = some { agent := .host, word := 0x500001FF } ∧
    assembleText "RX_BYTE 'U'".toList = some { agent := .uart, word := 0x10000055 } ∧
    assembleText "FB_READ 2 -> 0x888E8888".toList = some { agent := .periph, word := 0x90000200 } ∧
    assembleText "RX_BYTE 256".toList = none := by decide
theorem test_rx_frame :
    rxFrame 3 0x00 [0x11] = [.rxByte 0x55, .rxByte 0x41, .rxByte 0x52, .rxByte 0x54, .rxByte 0x03, .rxByte 0x00,
      .rxByte 0x00, .rxByte 0x11] := by decide

/-! ## Witnesses: states that meet the hypotheses of the statements -/

theorem witness_decode_reads_back :
    (Instr.wPayCopy 7).wellFormed = true ∧ (Instr.wPayCopy 7).allowedAt ⟨7, 1, 1⟩ = true ∧
    (Instr.wPayDrop 7).allowedAt ⟨8, 2, 1⟩ = true ∧ (Instr.wMagicMiss 0x54).allowedAt ⟨0, 0, 1⟩ = true ∧
    (Instr.wMagicT 0x54).allowedAt ⟨3, 0, 1⟩ = true := by decide

theorem witness_reserved_opcode_words :
    BitVec.extractLsb' 28 4 (0x00000000 : Word) ∈ [0x0#4, 0xA#4, 0xB#4, 0xC#4, 0xD#4, 0xE#4] ∧
    BitVec.extractLsb' 28 4 (0xEFFFFFFF : Word) ∈ [0x0#4, 0xA#4, 0xB#4, 0xC#4, 0xD#4, 0xE#4] := by decide

theorem witness_reserved_operand_words :
    (BitVec.extractLsb' 28 4 (0x60000100 : Word) ∈ [0x1#4, 0x6#4] ∧ BitVec.extractLsb' 8 20 (0x60000100 : Word) ≠ 0#20) ∧
    (BitVec.extractLsb' 28 4 (0xF0000001 : Word) ∈ [0x2#4, 0x4#4, 0x7#4, 0x8#4, 0xF#4] ∧
      BitVec.extractLsb' 0 8 (0xF0000001 : Word) ≠ 0#8) ∧
    (BitVec.extractLsb' 28 4 (0x90000001 : Word) ∈ [0x3#4, 0x9#4] ∧
      BitVec.extractLsb' 0 8 (0x90000001 : Word) ≠ 0#8) := by decide

theorem witness_assembled_line :
    assemble { agent := some .dec, mnemonic := .rxByte, operands := [.chr 'U'] } =
      some { agent := .dec, word := 0x10000055 } ∧
    (Literal.hex 0xFF).value = some 0xFF ∧ (Literal.dec 0xFFFFF).value = some 0xFFFFF ∧
    (Literal.dec 256).value = some 256 ∧ (Literal.dec 0x100000).value = some 0x100000 ∧
    (Literal.chr 'é').value = none ∧ ('U').toNat < 128 ∧ 128 ≤ ('é').toNat := by decide

/-- One command to be issued. -/
def oneCommand (a : Agent) (w : Word) : State := State.reset.issueNext a w

theorem witness_step_runs :
    (oneCommand .uart 0x10000055).pending = { agent := .uart, word := 0x10000055 } :: [] ∧
    (oneCommand .uart 0x10000055).params.admissible = true ∧ (oneCommand .uart 0x10000055).started = true ∧
    decodeWord 0x10000055 = .ok (.rxByte 0x55) ∧ issuer (opField 0x10000055) = some .uart := by decide

/-- The power-on state with the first RESET to be issued. -/
def firstReset : State :=
  { State.powerOn Config.reference with pending := [{ agent := .platform, word := 0xF0000000 }] }

theorem witness_first_reset :
    firstReset.params.admissible = true ∧ firstReset.started = false ∧ decodeWord 0xF0000000 = .ok .reset ∧
    issuer (opField 0xF0000000) = some .platform ∧ after (step firstReset) (fun t => t.started) = true := by decide

theorem witness_step_faults :
    (oneCommand .cons 0x30000000).params.admissible = true ∧ decodeWord 0x30000000 = .ok (.pktRead 0) ∧
    issuer (opField 0x30000000) = some .cons ∧
    faults (exec (.pktRead 0) { oneCommand .cons 0x30000000 with pending := [] }) .unwrittenRead = true := by decide

theorem witness_step_faults_reserved :
    decodeWord 0xA0000000 = .ok (.reservedOpA 0) ∧ issuer (opField 0xA0000000) = none ∧
    faults (exec (.reservedOpA 0) { oneCommand .uart 0xA0000000 with pending := [] }) .reservedOpcode = true := by decide

theorem witness_step_refuses :
    ({ Config.reference with ringCap := 0 }).admissible = false ∧
    ((State.powerOn Config.reference).params.admissible = true ∧ (State.powerOn Config.reference).started = false ∧
      decodeWord 0x20000000 ≠ .ok .reset) ∧
    (State.reset.params.admissible = true ∧ State.reset.started = true ∧
      issuer (opField 0x10000055) = some .uart ∧ Agent.uart ≠ Agent.dec) := by decide

theorem witness_fault_record_grows :
    after (step (oneCommand .uart 0x10000055)) (fun _ => true) = true ∧
    (FaultRecord.empty.add .indexRange).has .indexRange = true := by decide

theorem witness_reads_return :
    after (exec (.pktRead 0) { State.reset with pkt := [(0, 7)] }) (fun t => t.result == .byte 7) = true ∧
    after (exec (.encByte 0) State.reset) (fun t => t.result == .word 0x88888888) = true ∧
    faults (exec (.pktRead 0) State.reset) .unwrittenRead = true := by decide

theorem witness_config_loaded : State.reset.cfg = loadCfg State.reset.params ∧
    after (step (oneCommand .platform 0xF0000000)) (fun _ => true) = true := by decide

theorem witness_rx_room :
    ({ State.reset with ring := List.replicate 63 0 }).ring.length < State.reset.ringCap := by decide

theorem witness_rx_full :
    State.reset.ringCap ≤ ({ State.reset with ring := List.replicate 64 0 }).ring.length := by decide

theorem witness_magic_cursors :
    (decoderAt 4 (headerAtMagic 0) [0x55]).hdr.idx = 0#32 ∧ (decoderAt 4 (headerAtMagic 1) [0x41]).hdr.idx = 1#32 ∧
    (decoderAt 4 (headerAtMagic 2) [0x52]).hdr.idx = 2#32 ∧ (decoderAt 4 (headerAtMagic 3) [0x54]).hdr.idx = 3#32 ∧
    (decoderAt 4 (headerAtMagic 3) [0x54]).ring = 0x54#8 :: [] := by decide

theorem witness_magic_miss :
    (decoderAt 4 (headerAtMagic 3) [0x55]).cursor ≤ 3 ∧
    (0x55 : Byte) ≠ magic (decoderAt 4 (headerAtMagic 3) [0x55]).cursor ∧
    (decoderAt 4 Header.zero [0x55, 0x55, 0x41, 0x52, 0x54, 9]).ring =
      [0x55#8, 0x55#8, 0x41#8, 0x52#8, 0x54#8] ++ [9#8] ∧
    (decoderAt 4 Header.zero [0x58]).hdr = Header.zero ∧ (0x58 : Byte) ≠ 0x55#8 := by decide

theorem witness_header_bytes :
    (decoderAt 4 (frameHeader 4 0 0) [9]).hdr.idx = 4#32 ∧ (decoderAt 4 (frameHeader 5 9 0) [9]).hdr.idx = 5#32 ∧
    (decoderAt 4 (frameHeader 6 9 0) [9]).hdr.idx = 6#32 ∧ (decoderAt 4 (frameHeader 6 9 0) [9]).ring = 9#8 :: [] := by
  decide

/-- A frame of two bytes at cursor 7, both in the ring, with `PKT_MAX = 1`. -/
def atCheck : State := decoderAt 1 (frameHeader 7 2 0) [1, 2]

theorem witness_pay_copy :
    7 ≤ atCheck.cursor ∧ atCheck.ring = 1#8 :: [2] ∧ atCheck.cursor - 7 < atCheck.hdr.len.toNat ∧
    atCheck.cursor - 7 < atCheck.cfg.pktMax.toNat ∧ atCheck.hdr.len.toNat ≤ atCheck.ring.length ∧
    crcCheck atCheck.params.crcHook atCheck.hdr.crc atCheck.hdr.len (atCheck.ring.take atCheck.hdr.len.toNat) =
      true := by decide

/-- The same frame at its second byte, past the Packet Buffer. -/
def atDrop : State := decoderAt 1 (frameHeader 8 2 0) [2]

theorem witness_pay_drop :
    7 ≤ atDrop.cursor ∧ atDrop.ring = 2#8 :: [] ∧ atDrop.cursor - 7 < atDrop.hdr.len.toNat ∧
    atDrop.cfg.pktMax.toNat ≤ atDrop.cursor - 7 ∧ atDrop.cursor ≠ 7 := by decide

theorem witness_zero_fill :
    7 ≤ (decoderAt 1 (frameHeader 7 0 0) []).cursor ∧
    (decoderAt 1 (frameHeader 7 0 0) []).hdr.len.toNat ≤ (decoderAt 1 (frameHeader 7 0 0) []).cursor - 7 ∧
    (decoderAt 1 (frameHeader 7 0 0) []).cursor - 7 < (decoderAt 1 (frameHeader 7 0 0) []).cfg.pktMax.toNat ∧
    crcCheck .acceptAll 0 0 [] = true := by decide

/-- The frame of V-D10, whose CRC is wrong. -/
def badCrc : State := { atCheck with params := { Config.reference with crcHook := .xorPayload } }

theorem witness_crc_fail :
    badCrc.hdr.idx = 7#32 ∧ badCrc.hdr.len.toNat ≤ badCrc.ring.length ∧
    crcCheck badCrc.params.crcHook badCrc.hdr.crc badCrc.hdr.len (badCrc.ring.take badCrc.hdr.len.toNat) = false := by
  decide

theorem witness_decoder_waits :
    ((decoderAt 4 (frameHeader 6 2 0) []).cursor ≤ 6 ∧ (decoderAt 4 (frameHeader 6 2 0) []).ring = []) ∧
    ((decoderAt 4 (frameHeader 7 2 0) [1]).hdr.idx = 7#32 ∧
      (decoderAt 4 (frameHeader 7 2 0) [1]).ring.length < (decoderAt 4 (frameHeader 7 2 0) [1]).hdr.len.toNat) ∧
    after (exec .sigTake (decoderAt 4 (frameHeader 6 2 0) [])) (fun _ => true) = true ∧
    after (exec .decStep (decoderAt 4 (frameHeader 7 2 0) ([1] ++ [2]))) (fun _ => true) = true := by
  decide

/-- A state in the middle of a payload satisfies the decoder's invariants. -/
theorem witness_dec_step_enabled : SfdInv atDrop where
  ring_le := by decide
  cursor_le := by decide
  payload_held := by decide
  len_zero := by decide
  len_hi_zero := by decide
  crc_zero := by decide
  magic_matched := by decide
  pkt_wf := by decide

theorem witness_runs_wire_class : nextWire atCheck = some (.wPayCopy 1) ∧ nextWire atDrop = some (.wPayDrop 2) := by
  decide

theorem witness_wire_class_held : nextWire atCheck ≠ some (.wLenLo 1) := by decide

/-- Past both the payload and the Packet Buffer. -/
def pastEnd : State := decoderAt 1 (frameHeader 8 1 0) []

theorem witness_engines_outside :
    (7 ≤ pastEnd.cursor ∧ pastEnd.hdr.len.toNat ≤ pastEnd.cursor - 7 ∧
      pastEnd.cfg.pktMax.toNat ≤ pastEnd.cursor - 7 ∧ pastEnd.cursor ≠ 7) ∧
    (8 ≤ (decoderAt 1 (frameHeader 8 2 0) []).cursor ∧
      (decoderAt 1 (frameHeader 8 2 0) []).cursor - 7 < (decoderAt 1 (frameHeader 8 2 0) []).hdr.len.toNat) ∧
    ((encoderAt 7 [2, 1, 3] []).encReady = true ∧ (encoderAt 7 [2, 1, 3] []).encBusy = true ∧
      (encoderAt 7 [2, 1, 3] []).cfg.fbLen ≤ (encoderAt 7 [2, 1, 3] []).encPos.toNat) := by decide

theorem witness_packet_untouched :
    after (exec .decStep badCrc) (fun _ => true) = true ∧ badCrc.cursor = 7 ∧
    crcCheck badCrc.params.crcHook badCrc.hdr.crc badCrc.hdr.len (badCrc.ring.take badCrc.hdr.len.toNat) = false ∧
    after (exec .decStep (decoderAt 4 Header.zero [0x55])) (fun _ => true) = true ∧
    decodeWord 0x10000055 = .ok (.rxByte 0x55) ∧ after (exec (.rxByte 0x55) State.reset) (fun _ => true) = true := by
  decide

/-- One byte in the Packet Buffer's last element. -/
def packetWritten : State := { State.reset with pkt := [(3, 0xEF)] }

theorem witness_pkt_read :
    BitVec.toNat (3 : Index) < packetWritten.cfg.pktMax.toNat ∧ memRead packetWritten.pkt 3 = some 0xEF ∧
    memRead packetWritten.pkt 0 = none ∧ packetWritten.cfg.pktMax.toNat ≤ BitVec.toNat (4 : Index) := by decide

theorem witness_sig_take :
    ({ State.reset with newData := true }).newData = true ∧ State.reset.newData = false := by decide

/-- A zero-length frame and one byte of the next, in the ring. -/
def wholeFrame : State := { State.reset with ring := [0x55, 0x41, 0x52, 0x54, 0x00, 0x00, 0xAB, 0x58] }

theorem witness_whole_frame :
    wholeFrame.hdr = Header.zero ∧ BitVec.toNat (0 : Half) = ([] : List Byte).length ∧
    1 ≤ wholeFrame.cfg.pktMax.toNat ∧ wholeFrame.cfg.pktMax.toNat ≤ 2 ^ 20 ∧
    wholeFrame.ring = [0x55#8, 0x41#8, 0x52#8, 0x54#8, BitVec.extractLsb' 0 8 (0 : Half),
      BitVec.extractLsb' 8 8 (0 : Half), 0xAB] ++ [] ++ [0x58] ∧
    crcCheck wholeFrame.params.crcHook 0xAB 0 [] = true := by decide

/-- V-D16: two frames of one byte. -/
def twoFrames : State := { State.reset with ring := frameBytes 1 0 [0xAA] ++ (frameBytes 1 0 [0xBB] ++ []) }

theorem witness_signals_collapse :
    twoFrames.hdr = Header.zero ∧ BitVec.toNat (1 : Half) = ([0xAA] : List Byte).length ∧
    1 ≤ twoFrames.cfg.pktMax.toNat ∧ twoFrames.cfg.pktMax.toNat ≤ 2 ^ 20 ∧
    crcCheck twoFrames.params.crcHook 0 1 [0xAA] = true ∧ crcCheck twoFrames.params.crcHook 0 1 [0xBB] = true := by decide

/-- V-D8: a frame of five bytes and a ring of four. -/
def stalled : State :=
  { State.reset with
    params := { Config.reference with ringCap := 4 }, hdr := frameHeader 7 5 0, ring := [1, 2, 3, 4] }

theorem witness_stall_inv : SfdInv stalled where
  ring_le := by decide
  cursor_le := by decide
  payload_held := by decide
  len_zero := by decide
  len_hi_zero := by decide
  crc_zero := by decide
  magic_matched := by decide
  pkt_wf := by decide

theorem witness_stalled : Stalled stalled ∧ after (exec (.rxByte 5) stalled) (fun _ => true) = true ∧
    stalled.ring.length = stalled.ringCap := by
  exact ⟨⟨by decide, by decide⟩, by decide, by decide⟩

theorem witness_interleavings :
    (liveRun [.rxByte 0x55, .rxByte 0x41, .decStep, .decStep] State.reset).isSome = true ∧
    (liveRun [.rxByte 0x55, .decStep, .rxByte 0x41, .decStep] State.reset).isSome = true ∧
    bytesOf [.rxByte 0x55, .rxByte 0x41, .decStep, .decStep] = bytesOf [.rxByte 0x55, .decStep, .rxByte 0x41, .decStep] ∧
    decStepsOf [.rxByte 0x55, .rxByte 0x41, .decStep, .decStep] =
      decStepsOf [.rxByte 0x55, .decStep, .rxByte 0x41, .decStep] := by decide

theorem witness_pix_write :
    BitVec.toNat (3 : Index) < 4 * State.reset.cfg.numPixels.toNat ∧
    4 * State.reset.cfg.numPixels.toNat ≤ BitVec.toNat (4 : Index) := by decide

theorem witness_encoder_ready :
    State.reset.encReady = true ∧ State.reset.encBusy = false ∧ (encoderAt 0 [1] []).encReady = true ∧
    (encoderAt 0 [1] []).encBusy = true := by decide

theorem witness_encode_fields :
    (0xE : BitVec 4) = (if (0 : BitVec 1) = 0#1 then 0xE#4 else 0x1#4) ∧
    (0x7 : BitVec 4) = (if (1 : BitVec 1) = 0#1 then 0x8#4 else 0x7#4) := by decide

theorem witness_not_ready : ({ State.reset with encReady := false }).encReady = false := by decide

theorem witness_reset_words :
    ((encoderAt 0 [2, 1, 3] []).encPos.toNat < (encoderAt 0 [2, 1, 3] []).cfg.fbLen ∧
      (encoderAt 0 [2, 1, 3] []).encPos = 0#32) ∧
    ((encoderAt 4 [2, 1, 3] []).encPos.toNat < (encoderAt 4 [2, 1, 3] []).cfg.fbLen ∧
      (encoderAt 4 [2, 1, 3] []).cfg.chanMap.length * (encoderAt 4 [2, 1, 3] []).cfg.numPixels.toNat <
        (encoderAt 4 [2, 1, 3] []).encPos.toNat) := by decide

/-- V-B1's board, at the last data word, with the red byte written or not. -/
def lastData (chans : List Byte) (pix : Space Byte) : State := encoderAt chans.length chans pix

theorem witness_data_word :
    (lastData [2, 0, 1] [(0, 0x01)]).encReady = true ∧ (lastData [2, 0, 1] [(0, 0x01)]).encBusy = true ∧
    (lastData [2, 0, 1] [(0, 0x01)]).encPos.toNat = 2 + 1 ∧
    2 < (lastData [2, 0, 1] [(0, 0x01)]).cfg.chanMap.length * (lastData [2, 0, 1] [(0, 0x01)]).cfg.numPixels.toNat ∧
    (0 : Nat) = 2 / (lastData [2, 0, 1] [(0, 0x01)]).cfg.chanMap.length ∧
    (2 : Nat) = 2 % (lastData [2, 0, 1] [(0, 0x01)]).cfg.chanMap.length ∧
    (lastData [2, 0, 1] [(0, 0x01)]).cfg.chanMap[2]? = some 1 ∧
    memRead (lastData [2, 0, 1] [(0, 0x01)]).pix (4 * 0) = some 0x01 := by decide

theorem witness_unwritten_pixel :
    (lastData [1] []).encReady = true ∧ (lastData [1] []).encBusy = true ∧ (lastData [1] []).encPos.toNat = 0 + 1 ∧
    0 < (lastData [1] []).cfg.chanMap.length * (lastData [1] []).cfg.numPixels.toNat ∧
    (lastData [1] []).cfg.chanMap[0]? = some 1 ∧ memRead (lastData [1] []).pix (4 * 0) = none := by decide

theorem witness_bad_channel :
    (lastData [2, 4] []).encReady = true ∧ (lastData [2, 4] []).encBusy = true ∧
    (lastData [2, 4] []).encPos.toNat = 1 + 1 ∧
    1 < (lastData [2, 4] []).cfg.chanMap.length * (lastData [2, 4] []).cfg.numPixels.toNat ∧
    (lastData [2, 4] []).cfg.chanMap[1]? = some 4 ∧ 4 ≤ BitVec.toNat (4 : Byte) := by decide

theorem witness_whole_strip :
    (encoderAt 0 [0, 1] [(0, 0x80)]).encReady = true ∧ (encoderAt 0 [0, 1] [(0, 0x80)]).encBusy = true ∧
    (encoderAt 0 [0, 1] [(0, 0x80)]).encPos = 0#32 ∧ (encoderAt 0 [0, 1] [(0, 0x80)]).cfg.fbLen < 2 ^ 32 ∧
    (encoderAt 0 [0, 1] [(0, 0x80)]).cfg.numPixels.toNat = 1 ∧
    (encoderAt 0 [0, 1] [(0, 0x80)]).cfg.chanMap[0]? = some 0#8 ∧
    (encoderAt 0 [0, 1] [(0, 0x80)]).cfg.chanMap[1]? = some 1#8 ∧
    memRead (encoderAt 0 [0, 1] [(0, 0x80)]).pix (4 * 0) = some 0x80 := by decide

/-- The reset state with the frame buffer's last word written. -/
def frameWritten : State := { State.reset with fb := [(6, 0)] }

theorem witness_fb_read :
    frameWritten.encReady = true ∧ BitVec.toNat (6 : Index) < frameWritten.cfg.fbLen ∧
    memRead frameWritten.fb 6 = some 0 ∧ memRead frameWritten.fb 0 = none ∧
    frameWritten.cfg.fbLen ≤ BitVec.toNat (7 : Index) := by decide

/-- V-F4's board, one word in all, written. -/
def oneWordFrame : State :=
  { State.reset with cfg := { State.reset.cfg with numPixels := 0, resetDelayUs := 0 }, fb := [(0, 0)] }

theorem witness_pulse_train :
    (∀ i < oneWordFrame.cfg.fbLen, (memRead oneWordFrame.fb i).isSome = true) ∧
    (pulseTrain oneWordFrame).isSome = true ∧
    (0 < State.reset.cfg.fbLen ∧ memRead State.reset.fb 0 = none) := by decide

theorem witness_quiet_time : 20000 ≤ Config.reference.wordPeriodNs := by decide

theorem witness_frame_bytes : memRead frameWritten.fb 6 = some 0 ∧ 3 < 4 := by decide

theorem witness_reset_maps :
    (∀ chan ∈ Config.reference.chanMap, chan.toNat < 4) ∧
    (({ Config.reference with chanMap := [2, 4] }).chanMap = [2] ++ (4 : Byte) :: [] ∧
      (∀ d ∈ ([2] : List Byte), d.toNat < 4) ∧ 4 ≤ BitVec.toNat (4 : Byte)) := by decide

/-- A block whose bring-up failed, with one command to be issued. -/
def failedBlock : State :=
  { (State.powerOn { Config.reference with chanMap := [2, 4] }).issueNext .uart 0x10000055 with started := true }

theorem witness_failed_bring_up : Inv failedBlock ∧ failedBlock.encReady = false ∧
    after (step failedBlock) (fun _ => true) = true := by
  refine ⟨⟨by decide, by decide, by decide, ?_, ?_⟩, by decide, by decide⟩
  · exact ⟨by decide, by decide, by decide, by decide, by decide, by decide, by decide, by decide⟩
  · exact ⟨by decide, by decide, by decide, by decide, by decide, by decide, by decide⟩

/-- A block with one command to be issued. -/
theorem witness_invariants_kept : Inv (oneCommand .uart 0x10000055) ∧
    after (step (oneCommand .uart 0x10000055)) (fun t => t.ring == [0x55]) = true := by
  refine ⟨⟨by decide, by decide, by decide, ?_, ?_⟩, by decide⟩
  · exact ⟨by decide, by decide, by decide, by decide, by decide, by decide, by decide, by decide⟩
  · exact ⟨by decide, by decide, by decide, by decide, by decide, by decide, by decide⟩

theorem witness_units :
    isSfd .decStep = true ∧ isBse .encStep = true ∧
    State.reset.sfd = (encoderAt 3 [1] [(0, 7)]).sfd ∧ State.reset.events = (encoderAt 3 [1] [(0, 7)]).events ∧
    State.reset.bse = ({ State.reset with newData := true, ring := [1] }).bse := by decide

end Sys2Proof.Tests
end

/-! ## The two units share nothing (00_scope.md R2)

One equation says all of it. Put one unit of a state `s`, with the trace, into another block `t`; an operation of that
unit answers on the mixed block what it answers on `s`, and leaves what it makes of `s`, put into `t` in the same way.
With `t` the state `s` itself this is the frame of the other unit; with `t` a state that agrees with `s` on the unit it is
noninterference. The equation is proved operation by operation, by the shape of the operation. -/

namespace Sys2Proof.Machine

/-! What it is to belong to one unit. -/

/-- An answer about the unit of another state, put into the block `t`; what is answered to the agent stays. -/
def carry (put : State → State → State) (t : State) : Answer → Answer
  | .next u => .next ((put t u).answer u.result)
  | .fault r => .fault r
  | .refused r => .refused r

/-- The operation `f` belongs to the unit that `put` puts into a block: it runs the same in every block. -/
def LocalTo (put : State → State → State) (f : State → Answer) : Prop :=
  ∀ s t, f (put t s) = carry put t (f s)

/-- The effect `eff` belongs to the unit that `put` puts into a block. -/
def EffectOf (put : State → State → State) (eff : State → State) : Prop :=
  ∀ s t, eff (put t s) = put t (eff s)

/-- `put t s` is the block `t` with the unit `own` and the trace of `s`; it keeps the `other` unit of `t`, and an answer
is no part of either unit. -/
structure PutsUnit {β γ : Type} (put : State → State → State) (own : State → β) (other : State → γ) : Prop where
  own_put : ∀ s t, own (put t s) = own s
  other_put : ∀ s t, other (put t s) = other t
  events_put : ∀ s t, (put t s).events = s.events
  put_of_agree : ∀ {s t}, own s = own t → s.events = t.events → put t s = t
  put_answer : ∀ s t r, put t (s.answer r) = put t s
  own_answer : ∀ s r, own (s.answer r) = own s
  other_answer : ∀ s r, other (s.answer r) = other s

section Unit

variable {β γ : Type} {put : State → State → State} {own : State → β} {other : State → γ} {f g : State → Answer}

/-- An operation of one unit leaves the other unit as it is. -/
theorem LocalTo.other_eq (hf : LocalTo put f) (hp : PutsUnit put own other) {s t : State} (h : f s = .next t) :
    other t = other s := by
  have hself : f s = carry put s (f s) := by
    simpa only [hp.put_of_agree rfl rfl] using hf s s
  rw [h] at hself
  have ht : t = (put s t).answer t.result := Host.Outcome.next.inj hself
  calc other t = other ((put s t).answer t.result) := congrArg other ht
    _ = other s := by rw [hp.other_answer, hp.other_put]

/-- An operation of one unit cannot tell apart two states that agree on that unit and on the trace. -/
theorem LocalTo.agree (hf : LocalTo put f) (hp : PutsUnit put own other) {s t : State} (hown : own s = own t)
    (hev : s.events = t.events) : Agree own (f s) (f t) := by
  have ht : f t = carry put t (f s) := by
    simpa only [hp.put_of_agree hown hev] using hf s t
  rw [ht]
  cases f s with
  | next u => exact ⟨by rw [hp.own_answer, hp.own_put], rfl, (hp.events_put u t).symm⟩
  | fault r => exact rfl
  | refused r => exact rfl

/-- A choice belongs to a unit when its condition reads that unit only. -/
theorem LocalTo.ite {c : State → Prop} [DecidablePred c] (hc : ∀ s t, c (put t s) ↔ c s) (hf : LocalTo put f)
    (hg : LocalTo put g) : LocalTo put (fun s => if c s then f s else g s) := by
  intro s t
  by_cases h : c s
  · simpa only [hc, h, if_true] using hf s t
  · simpa only [hc, h, if_false] using hg s t

theorem EffectOf.ite {c : State → Prop} [DecidablePred c] {a b : State → State} (hc : ∀ s t, c (put t s) ↔ c s)
    (ha : EffectOf put a) (hb : EffectOf put b) : EffectOf put (fun s => if c s then a s else b s) := by
  intro s t
  by_cases h : c s
  · simpa only [hc, h, if_true] using ha s t
  · simpa only [hc, h, if_false] using hb s t

theorem PutsUnit.localTo_done (hp : PutsUnit put own other) {eff : State → State} (he : EffectOf put eff) :
    LocalTo put (fun s => done (eff s)) := by
  intro s t
  simp only [done, carry, he s t, hp.put_answer, State.answer_result]

theorem PutsUnit.localTo_hold (hp : PutsUnit put own other) : LocalTo put hold := by
  intro s t
  simp only [hold, carry, hp.put_answer, State.answer_result]

end Unit

/-! The frame decoder. -/

/-- The block `t` with the SFD, and the trace, of `s`. -/
def State.withSfdOf (t s : State) : State :=
  { t with
    params := { t.params with ringCap := s.params.ringCap, crcHook := s.params.crcHook }
    cfg := { t.cfg with ringCap := s.cfg.ringCap, pktMax := s.cfg.pktMax }
    hdr := s.hdr
    ring := s.ring
    pkt := s.pkt
    newData := s.newData
    events := s.events }

theorem sfd_putsUnit : PutsUnit State.withSfdOf State.sfd State.bse where
  own_put _ _ := rfl
  other_put _ _ := rfl
  events_put _ _ := rfl
  put_of_agree := by
    intro s t hown hev
    obtain ⟨hhook, hcap, hcfgCap, hpktMax, hhdr, hring, hpkt, hnew⟩ := SfdView.mk.inj hown
    simp only [State.ringCap_eq] at hcap
    simp only [State.withSfdOf, hhook, hcap, hcfgCap, hpktMax, hhdr, hring, hpkt, hnew, hev]
  put_answer _ _ _ := rfl
  own_answer _ _ := rfl
  other_answer _ _ := rfl

@[simp] theorem State.withSfdOf_pktMax (t s : State) : (t.withSfdOf s).cfg.pktMax = s.cfg.pktMax := rfl
@[simp] theorem State.withSfdOf_pkt (t s : State) : (t.withSfdOf s).pkt = s.pkt := rfl

/-- What the engine reads next is a matter of the SFD. -/
@[simp] theorem nextWire_withSfdOf (t s : State) : nextWire (t.withSfdOf s) = nextWire s := rfl

/-- An operation that holds on an empty ring, and else pops a byte and has an effect of the SFD. -/
theorem LocalTo.of_pop {f : State → Answer} {eff : Byte → State → State}
    (hnil : ∀ s, s.ring = [] → f s = hold s)
    (hcons : ∀ s b rest, s.ring = b :: rest → f s = done (eff b { s with ring := rest }))
    (heff : ∀ b, EffectOf State.withSfdOf (eff b)) : LocalTo State.withSfdOf f := by
  intro s t
  cases h : s.ring with
  | nil => rw [hnil s h, hnil (t.withSfdOf s) h, sfd_putsUnit.localTo_hold]
  | cons b rest =>
    rw [hcons s b rest h, hcons (t.withSfdOf s) b rest h]
    exact sfd_putsUnit.localTo_done (heff b) { s with ring := rest } t

theorem headerByte_effectOf (i : Nat) (b : Byte) : EffectOf State.withSfdOf (headerByte i b) :=
  .ite (fun _ _ => Iff.rfl)
    (.ite (fun _ _ => Iff.rfl) (fun _ _ => rfl) (fun _ _ => rfl))
    (.ite (fun _ _ => Iff.rfl) (fun _ _ => rfl) (.ite (fun _ _ => Iff.rfl) (fun _ _ => rfl) (fun _ _ => rfl)))

theorem elementDone_effectOf (k : Nat) : EffectOf State.withSfdOf (elementDone k) :=
  .ite (fun _ _ => Iff.rfl) (fun _ _ => rfl) (fun _ _ => rfl)

theorem copyElement_effectOf (k : Nat) (b : Byte) : EffectOf State.withSfdOf (copyElement k b) :=
  fun s t => elementDone_effectOf k { s with pkt := memWrite s.pkt k b } t

theorem dropElement_effectOf (k : Nat) : EffectOf State.withSfdOf (dropElement k) := elementDone_effectOf k

theorem zeroElement_localTo (k : Nat) : LocalTo State.withSfdOf (zeroElement k) := by
  intro s t
  cases h : elementWrite s.cfg.pktMax.toNat s.pkt k 0#8 with
  | error f => simp [zeroElement, h, raiseFault, carry]
  | ok pkt =>
    simp only [zeroElement, State.withSfdOf_pktMax, State.withSfdOf_pkt, h]
    exact sfd_putsUnit.localTo_done (elementDone_effectOf k) { s with pkt := pkt } t

theorem payloadElement_localTo (k : Nat) : LocalTo State.withSfdOf (payloadElement k) := by
  refine .ite (fun _ _ => Iff.rfl) ?_ (zeroElement_localTo k)
  refine .of_pop (eff := fun b s => if k < s.cfg.pktMax.toNat then copyElement k b s else dropElement k s)
    ?_ ?_ fun b => .ite (fun _ _ => Iff.rfl) (copyElement_effectOf k b) (dropElement_effectOf k)
  · intro s h
    simp only [ringPop_nil h]
  · intro s b rest h
    simp only [ringPop_cons h]

/-! The operations of the SFD. -/

theorem execRxByte_localTo (b : Byte) : LocalTo State.withSfdOf (execRxByte b) :=
  .ite (fun _ _ => Iff.rfl) (sfd_putsUnit.localTo_done fun _ _ => rfl) (sfd_putsUnit.localTo_done fun _ _ => rfl)

theorem execDecStep_localTo : LocalTo State.withSfdOf execDecStep := by
  refine .ite (fun _ _ => Iff.rfl) ?headerByte <| .ite (fun _ _ => Iff.rfl)
    (.ite (fun _ _ => Iff.rfl) sfd_putsUnit.localTo_hold <|
      .ite (fun _ _ => Iff.rfl) (payloadElement_localTo 0) (sfd_putsUnit.localTo_done fun _ _ => rfl))
    (fun s t => payloadElement_localTo (payloadIndex s) s t)
  case headerByte =>
    refine .of_pop (eff := fun b s => headerByte s.cursor b s) ?_ ?_
      fun b s t => headerByte_effectOf s.cursor b s t
    · intro s h
      simp only [ringPop_nil h]
    · intro s b rest h
      simp only [ringPop_cons h, State.cursor]

theorem execPktRead_localTo (i : Index) : LocalTo State.withSfdOf (execPktRead i) := by
  intro s t
  simp only [execPktRead, State.withSfdOf_pktMax, State.withSfdOf_pkt]
  cases elementRead s.cfg.pktMax.toNat s.pkt i.toNat with
  | error r => rfl
  | ok b => rfl

theorem execSigTake_localTo : LocalTo State.withSfdOf execSigTake :=
  .ite (fun _ _ => Iff.rfl) (sfd_putsUnit.localTo_done fun _ _ => rfl) sfd_putsUnit.localTo_hold

/-- A wire class runs where the SFD reads it, on the SFD's own ring (log entry 5). -/
theorem runWire_localTo (i : Instr) {eff : State → State} (heff : EffectOf State.withSfdOf eff) :
    LocalTo State.withSfdOf (runWire i eff) := by
  refine .ite (fun s t => by rw [nextWire_withSfdOf]) ?_ sfd_putsUnit.localTo_hold
  refine .of_pop (eff := fun _ => eff) ?_ ?_ fun _ => heff
  · intro s h
    simp only [ringPop_nil h]
  · intro s b rest h
    simp only [ringPop_cons h]

/-- Every operation of the SFD runs the same in every block. -/
theorem exec_localTo_sfd {i : Instr} (hi : isSfd i = true) : LocalTo State.withSfdOf (exec i) := by
  cases i with
  | rxByte b => exact execRxByte_localTo b
  | decStep => exact execDecStep_localTo
  | pktRead n => exact execPktRead_localTo n
  | sigTake => exact execSigTake_localTo
  | wMagicU b => exact runWire_localTo (.wMagicU b) fun _ _ => rfl
  | wMagicA b => exact runWire_localTo (.wMagicA b) fun _ _ => rfl
  | wMagicR b => exact runWire_localTo (.wMagicR b) fun _ _ => rfl
  | wMagicT b => exact runWire_localTo (.wMagicT b) fun _ _ => rfl
  | wMagicMiss b => exact fun s t => runWire_localTo (.wMagicMiss b) (eff := missMagic s.cursor b) (fun _ _ => rfl) s t
  | wLenLo b => exact runWire_localTo (.wLenLo b) fun _ _ => rfl
  | wLenHi b => exact runWire_localTo (.wLenHi b) fun _ _ => rfl
  | wCrc b => exact runWire_localTo (.wCrc b) fun _ _ => rfl
  | wPayCopy b => exact fun s t => runWire_localTo (.wPayCopy b) (copyElement_effectOf (payloadIndex s) b) s t
  | wPayDrop b => exact fun s t => runWire_localTo (.wPayDrop b) (dropElement_effectOf (payloadIndex s)) s t
  | _ => cases hi

/-! The LED encoder. -/

/-- The block `t` with the BSE, and the trace, of `s`. -/
def State.withBseOf (t s : State) : State :=
  { t with
    cfg :=
      { t.cfg with
        numPixels := s.cfg.numPixels, chanMap := s.cfg.chanMap, polarity := s.cfg.polarity,
        resetDelayUs := s.cfg.resetDelayUs }
    pix := s.pix
    fb := s.fb
    encBusy := s.encBusy
    encPos := s.encPos
    encStatus := s.encStatus
    encReady := s.encReady
    events := s.events }

theorem bse_putsUnit : PutsUnit State.withBseOf State.bse State.sfd where
  own_put _ _ := rfl
  other_put _ _ := rfl
  events_put _ _ := rfl
  put_of_agree := by
    intro s t hown hev
    obtain ⟨hpixels, hmap, hpol, hdelay, hpix, hfb, hbusy, hpos, hstatus, hready⟩ := BseView.mk.inj hown
    simp only [State.withBseOf, hpixels, hmap, hpol, hdelay, hpix, hfb, hbusy, hpos, hstatus, hready, hev]
  put_answer _ _ _ := rfl
  own_answer _ _ := rfl
  other_answer _ _ := rfl

@[simp] theorem State.withBseOf_pixLen (t s : State) : (t.withBseOf s).cfg.pixLen = s.cfg.pixLen := rfl
@[simp] theorem State.withBseOf_fbLen (t s : State) : (t.withBseOf s).cfg.fbLen = s.cfg.fbLen := rfl
@[simp] theorem State.withBseOf_numColors (t s : State) : (t.withBseOf s).cfg.numColors = s.cfg.numColors := rfl
@[simp] theorem State.withBseOf_polarity (t s : State) : (t.withBseOf s).cfg.polarity = s.cfg.polarity := rfl
@[simp] theorem State.withBseOf_pix (t s : State) : (t.withBseOf s).pix = s.pix := rfl
@[simp] theorem State.withBseOf_fb (t s : State) : (t.withBseOf s).fb = s.fb := rfl

@[simp] theorem chanAt_withBseOf (t s : State) (c : Nat) : chanAt (t.withBseOf s) c = chanAt s c := rfl
@[simp] theorem chanByte_withBseOf (t s : State) (px : Nat) (id : Byte) :
    chanByte (t.withBseOf s) px id = chanByte s px id := rfl

theorem LocalTo.whenReady {f : State → Answer} (hf : LocalTo State.withBseOf f) :
    LocalTo State.withBseOf (fun s => whenReady s (f s)) :=
  .ite (fun _ _ => Iff.rfl) hf (fun _ _ => rfl)

theorem wordDone_effectOf (p : Nat) : EffectOf State.withBseOf (wordDone p) :=
  .ite (fun _ _ => Iff.rfl) (fun _ _ => rfl) (fun _ _ => rfl)

theorem writeWord_localTo (p : Nat) (w : Word) : LocalTo State.withBseOf (writeWord p w) := by
  intro s t
  simp only [writeWord, State.withBseOf_fbLen, State.withBseOf_fb]
  cases elementWrite s.cfg.fbLen s.fb p w with
  | error r => rfl
  | ok fb => exact bse_putsUnit.localTo_done (wordDone_effectOf p) { s with fb := fb } t

theorem dataWord_localTo (p : Nat) : LocalTo State.withBseOf (dataWord p) := by
  refine .ite (fun _ _ => Iff.rfl) ?_
    (fun s t => bse_putsUnit.localTo_done
      (eff := cfgAbort ((p - 1) % s.cfg.numColors) (chanAt s ((p - 1) % s.cfg.numColors))) (fun _ _ => rfl) s t)
  intro s t
  simp only [State.withBseOf_numColors, State.withBseOf_polarity, chanAt_withBseOf, chanByte_withBseOf]
  cases chanByte s ((p - 1) / s.cfg.numColors) (chanAt s ((p - 1) % s.cfg.numColors)) with
  | error r => rfl
  | ok v => exact writeWord_localTo p (encodeByte s.cfg.polarity v) s t

/-! The operations of the BSE. -/

theorem execPixWrite_localTo (i : Index) (v : Byte) : LocalTo State.withBseOf (execPixWrite i v) := by
  intro s t
  simp only [execPixWrite, State.withBseOf_pixLen, State.withBseOf_pix]
  cases elementWrite s.cfg.pixLen s.pix i.toNat v with
  | error r => rfl
  | ok pix => rfl

theorem execEncByte_localTo (b : Byte) : LocalTo State.withBseOf (execEncByte b) := .whenReady fun _ _ => rfl

theorem execEncStart_localTo : LocalTo State.withBseOf execEncStart :=
  .whenReady <| .ite (fun _ _ => Iff.rfl) bse_putsUnit.localTo_hold (bse_putsUnit.localTo_done fun _ _ => rfl)

theorem execEncStep_localTo : LocalTo State.withBseOf execEncStep :=
  .whenReady <| .ite (fun _ _ => Iff.rfl)
    (.ite (fun _ _ => Iff.rfl) (fun s t => writeWord_localTo 0 (resetWord s.cfg.polarity) s t) <|
      .ite (fun _ _ => Iff.rfl) (fun s t => dataWord_localTo s.encPos.toNat s t)
        (fun s t => writeWord_localTo s.encPos.toNat (resetWord s.cfg.polarity) s t))
    bse_putsUnit.localTo_hold

theorem execFbRead_localTo (i : Index) : LocalTo State.withBseOf (execFbRead i) := by
  refine .whenReady ?_
  intro s t
  simp only [State.withBseOf_fbLen, State.withBseOf_fb]
  cases elementRead s.cfg.fbLen s.fb i.toNat with
  | error r => rfl
  | ok w => rfl

/-- Every operation of the BSE runs the same in every block. -/
theorem exec_localTo_bse {i : Instr} (hi : isBse i = true) : LocalTo State.withBseOf (exec i) := by
  cases i with
  | pixWrite n v => exact execPixWrite_localTo n v
  | encByte b => exact execEncByte_localTo b
  | encStart => exact execEncStart_localTo
  | encStep => exact execEncStep_localTo
  | fbRead n => exact execFbRead_localTo n
  | _ => cases hi

/-- Settles O60: both halves of R2 follow, for each unit, from its operations running the same in every block. -/
theorem unitsShareNothing : Obligations.UnitsShareNothing := by
  unfold Obligations.UnitsShareNothing
  refine ⟨?_, ?_, ?_, ?_⟩
  · intro i s t hi h
    exact (exec_localTo_sfd hi).other_eq sfd_putsUnit h
  · intro i s t hi h
    exact (exec_localTo_bse hi).other_eq bse_putsUnit h
  · intro i s t hi hsfd hev
    exact (exec_localTo_sfd hi).agree sfd_putsUnit hsfd hev
  · intro i s t hi hbse hev
    exact (exec_localTo_bse hi).agree bse_putsUnit hbse hev

end Sys2Proof.Machine

/-! ## The fault record (10_state.md R44)

Cut the block the other way: the fault record on one side, and on the other everything else. That no operation writes
or reads the record is one equation again: every operation belongs to that rest in the sense of `LocalTo`. For the
operations of a unit it follows from what is known of the unit, which is a part of the rest. -/

namespace Sys2Proof.Machine

section Rest

variable {β γ β' γ' : Type} {put put' : State → State → State} {own : State → β} {other : State → γ}
  {own' : State → β'} {other' : State → γ'} {f : State → Answer}

/-- What an operation of one unit leaves is its own state with that unit as the operation made it. -/
theorem LocalTo.next_eq (hf : LocalTo put f) (hp : PutsUnit put own other) {s t : State} (h : f s = .next t) :
    t = (put s t).answer t.result := by
  have hself : f s = carry put s (f s) := by
    simpa only [hp.put_of_agree rfl rfl] using hf s s
  rw [h] at hself
  exact Host.Outcome.next.inj hself

/-- An operation of one unit belongs to every larger part of the block: putting the unit commutes with putting the
part. -/
theorem LocalTo.widen (hf : LocalTo put f) (hp : PutsUnit put own other) (hp' : PutsUnit put' own' other')
    (hcomm : ∀ s t u, put (put' t s) u = put' t (put s u)) : LocalTo put' f := by
  intro s t
  have hsame : put (put' t s) s = put' t s := by rw [hcomm, hp.put_of_agree rfl rfl]
  have hmixed : f (put' t s) = carry put (put' t s) (f s) := by simpa only [hsame] using hf s (put' t s)
  rw [hmixed]
  cases h : f s with
  | fault r => rfl
  | refused r => rfl
  | next u =>
    have hu : put' t u = put (put' t s) u :=
      calc put' t u = put' t ((put s u).answer u.result) := congrArg (put' t) (hf.next_eq hp h)
        _ = put (put' t s) u := by rw [hp'.put_answer, hcomm]
    simp only [carry, hu]

end Rest

/-- A state without its fault record, and without what was answered last. -/
def State.rest (s : State) : State := { s with faults := FaultRecord.empty, result := .idle }

/-- The fault record of `t`, and what it answered last, with all the rest of `s`. -/
def State.withRestOf (t s : State) : State := { s with faults := t.faults, result := t.result }

theorem rest_putsUnit : PutsUnit State.withRestOf State.rest State.faults where
  own_put _ _ := rfl
  other_put _ _ := rfl
  events_put _ _ := rfl
  put_of_agree := by
    intro s t hrest _
    calc t.withRestOf s = t.withRestOf s.rest := rfl
      _ = t.withRestOf t.rest := by rw [hrest]
      _ = t := rfl
  put_answer _ _ _ := rfl
  own_answer _ _ := rfl
  other_answer _ _ := rfl

theorem bringUp_effectOf_rest : EffectOf State.withRestOf bringUp := by
  intro s t
  have hmap : (t.withRestOf s).cfg.chanMap = s.cfg.chanMap := rfl
  unfold bringUp
  rw [hmap]
  cases firstBadChan s.cfg.chanMap 0 with
  | none => rfl
  | some bad => rfl

/-- RESET leaves the record as it is and does not look at it (70_reset_and_hazards.md R230). -/
theorem execReset_localTo_rest : LocalTo State.withRestOf execReset :=
  rest_putsUnit.localTo_done fun s t => bringUp_effectOf_rest (resetState s) t

/-- No operation has to do with the fault record. -/
theorem exec_localTo_rest (i : Instr) : LocalTo State.withRestOf (exec i) := by
  cases i with
  | reset => exact execReset_localTo_rest
  | reservedOp0 | reservedOpA | reservedOpB | reservedOpC | reservedOpD | reservedOpE => exact fun _ _ => rfl
  | pixWrite | encByte | encStart | encStep | fbRead =>
    exact (exec_localTo_bse rfl).widen bse_putsUnit rest_putsUnit fun _ _ _ => rfl
  | _ => exact (exec_localTo_sfd rfl).widen sfd_putsUnit rest_putsUnit fun _ _ _ => rfl

/-- No operation writes the fault record; only the step that settles a fault does. -/
theorem exec_faults {i : Instr} {s t : State} (h : exec i s = .next t) : t.faults = s.faults :=
  (exec_localTo_rest i).other_eq rest_putsUnit h

/-- No operation reads the fault record. -/
theorem exec_with_faults (i : Instr) (s : State) (f : FaultRecord) :
    exec i { s with faults := f } = carry State.withRestOf { s with faults := f } (exec i s) :=
  exec_localTo_rest i s { s with faults := f }

theorem FaultRecord.empty_has (r : Fault) : FaultRecord.empty.has r = false := by
  cases r <;> rfl

/-- What is in the fault record stays there. -/
theorem step_keeps_recorded {s t : State} {r : Fault} (h : step s = .next t) (hr : s.faults.has r = true) :
    t.faults.has r = true := by
  obtain ⟨_, rfl⟩ | ⟨c, later, _, _, ⟨i, _, hexec⟩ | ⟨q, rfl⟩⟩ := step_next h
  · exact hr
  · rw [exec_faults hexec]
    exact hr
  · rw [State.recordFault_faults, FaultRecord.has_add, hr, Bool.true_or]

/-- Settles O10: every operation belongs to the rest of the block, so only a recorded fault changes the record, and that
adds a reason. -/
theorem faultRecordOnlyGrows : Obligations.FaultRecordOnlyGrows := by
  unfold Obligations.FaultRecordOnlyGrows
  refine ⟨FaultRecord.empty_has, fun s t r => step_keeps_recorded, fun s t => exec_faults, fun i s f => ⟨?_, ?_⟩⟩
  · intro t h
    rw [exec_with_faults, h]
    rfl
  · intro r h
    rw [exec_with_faults, h]
    rfl

end Sys2Proof.Machine

/-! ## A recorded fault (60_exceptions.md R208) -/

namespace Sys2Proof.Machine

theorem settle_fault (s : State) (r : Fault) : settle s (.fault r) = .next (s.recordFault r) := rfl

/-- A recorded fault changes the fault record, and what is answered, only. -/
theorem State.recordFault_frame (s : State) (r : Fault) :
    { s.recordFault r with faults := s.faults, result := s.result } = s := rfl

theorem State.recordFault_has (s : State) (r : Fault) : (s.recordFault r).faults.has r = true := by
  rw [State.recordFault_faults, FaultRecord.has_add, beq_self_eq_true, Bool.or_true]

end Sys2Proof.Machine

/-! ## What an operation answers its agent (30_encoding.md R94) -/

namespace Sys2Proof.Machine

/-- The step ended without a value for the agent: it took effect, or it was held. -/
def State.AnswersNoValue (t : State) : Prop := t.result = .done ∨ t.result = .held

theorem State.answersNoValue_done (s : State) : (s.answer .done).AnswersNoValue := .inl rfl

theorem State.answersNoValue_held (s : State) : (s.answer .held).AnswersNoValue := .inr rfl

theorem answersNoValue_of_done {s t : State} (h : done s = .next t) : t.AnswersNoValue :=
  done_next_iff.mp h ▸ s.answersNoValue_done

theorem answersNoValue_of_hold {s t : State} (h : hold s = .next t) : t.AnswersNoValue :=
  hold_next_iff.mp h ▸ s.answersNoValue_held

theorem State.AnswersNoValue.not_byte {t : State} (h : t.AnswersNoValue) : ¬ ∃ b, t.result = .byte b := by
  rintro ⟨b, hb⟩
  rcases h with h | h <;> cases hb.symm.trans h

theorem State.AnswersNoValue.not_word {t : State} (h : t.AnswersNoValue) : ¬ ∃ w, t.result = .word w := by
  rintro ⟨w, hw⟩
  rcases h with h | h <;> cases hw.symm.trans h

/-- The three operations whose row in R86's map has a result. -/
def returnsValue : Instr → Bool
  | .pktRead _ | .encByte _ | .fbRead _ => true
  | _ => false

/-! The three reads. -/

theorem execPktRead_result {n : Index} {s t : State} (h : execPktRead n s = .next t) : ∃ b, t.result = .byte b := by
  unfold execPktRead at h
  cases he : elementRead s.cfg.pktMax.toNat s.pkt n.toNat with
  | error r => simp [he] at h
  | ok b =>
    rw [he] at h
    obtain rfl := retByte_next_iff.mp h
    exact ⟨b, rfl⟩

theorem execEncByte_result {b : Byte} {s t : State} (h : execEncByte b s = .next t) : ∃ w, t.result = .word w := by
  obtain ⟨_, h⟩ := whenReady_next_iff.mp h
  obtain rfl := retWord_next_iff.mp h
  exact ⟨_, rfl⟩

theorem execFbRead_result {n : Index} {s t : State} (h : execFbRead n s = .next t) : ∃ w, t.result = .word w := by
  obtain ⟨_, h⟩ := whenReady_next_iff.mp h
  cases he : elementRead s.cfg.fbLen s.fb n.toNat with
  | error r => simp [he] at h
  | ok w =>
    rw [he] at h
    obtain rfl := retWord_next_iff.mp h
    exact ⟨w, rfl⟩

/-! Every other operation. -/

theorem execRxByte_answersNoValue {b : Byte} {s t : State} (h : execRxByte b s = .next t) : t.AnswersNoValue := by
  unfold execRxByte at h
  split at h <;> exact answersNoValue_of_done h

theorem payloadElement_answersNoValue {k : Nat} {s t : State} (h : payloadElement k s = .next t) :
    t.AnswersNoValue := by
  obtain ⟨_, _, rfl⟩ | ⟨_, _, _, _, _, rfl⟩ | ⟨_, _, _, _, _, rfl⟩ | ⟨_, _, rfl⟩ := payloadElement_next h
  · exact State.answersNoValue_held _
  all_goals exact State.answersNoValue_done _

theorem execDecStep_answersNoValue {s t : State} (h : execDecStep s = .next t) : t.AnswersNoValue := by
  obtain ⟨_, _, rfl⟩ | ⟨_, _, _, _, rfl⟩ | ⟨_, _, rfl⟩ | ⟨_, _, _, rfl⟩ | ⟨_, _, _, h⟩ | ⟨_, h⟩ := execDecStep_next h
  · exact State.answersNoValue_held _
  · exact State.answersNoValue_done _
  · exact State.answersNoValue_held _
  · exact State.answersNoValue_done _
  · exact payloadElement_answersNoValue h
  · exact payloadElement_answersNoValue h

theorem execSigTake_answersNoValue {s t : State} (h : execSigTake s = .next t) : t.AnswersNoValue := by
  unfold execSigTake at h
  split at h
  · exact answersNoValue_of_done h
  · exact answersNoValue_of_hold h

theorem execPixWrite_answersNoValue {n : Index} {v : Byte} {s t : State} (h : execPixWrite n v s = .next t) :
    t.AnswersNoValue := by
  unfold execPixWrite at h
  cases hw : elementWrite s.cfg.pixLen s.pix n.toNat v with
  | error r => simp [hw] at h
  | ok pix =>
    rw [hw] at h
    exact answersNoValue_of_done h

theorem execEncStart_answersNoValue {s t : State} (h : execEncStart s = .next t) : t.AnswersNoValue := by
  obtain ⟨_, h⟩ := whenReady_next_iff.mp h
  split at h
  · exact answersNoValue_of_hold h
  · exact answersNoValue_of_done h

theorem writeWord_answersNoValue {p : Nat} {w : Word} {s t : State} (h : writeWord p w s = .next t) :
    t.AnswersNoValue := by
  obtain ⟨_, rfl⟩ := writeWord_next_iff.mp h
  exact State.answersNoValue_done _

theorem dataWord_answersNoValue {p : Nat} {s t : State} (h : dataWord p s = .next t) : t.AnswersNoValue := by
  obtain ⟨_, _, _, h⟩ | ⟨_, rfl⟩ := dataWord_next h
  · exact writeWord_answersNoValue h
  · exact State.answersNoValue_done _

theorem execEncStep_answersNoValue {s t : State} (h : execEncStep s = .next t) : t.AnswersNoValue := by
  obtain ⟨_, ⟨_, rfl⟩ | ⟨_, _, h⟩ | ⟨_, _, _, h⟩ | ⟨_, _, h⟩⟩ := execEncStep_next h
  · exact State.answersNoValue_held _
  · exact writeWord_answersNoValue h
  · exact dataWord_answersNoValue h
  · exact writeWord_answersNoValue h

theorem execReset_answersNoValue {s t : State} (h : execReset s = .next t) : t.AnswersNoValue :=
  answersNoValue_of_done h

theorem runWire_answersNoValue {i : Instr} {eff : State → State} {s t : State} (h : runWire i eff s = .next t) :
    t.AnswersNoValue := by
  obtain ⟨_, _, _, _, rfl⟩ | ⟨_, rfl⟩ := runWire_next h
  · exact State.answersNoValue_done _
  · exact State.answersNoValue_held _

theorem exec_answersNoValue {i : Instr} {s t : State} (hi : returnsValue i = false) (h : exec i s = .next t) :
    t.AnswersNoValue := by
  cases i with
  | pktRead | encByte | fbRead => cases hi
  | rxByte => exact execRxByte_answersNoValue h
  | decStep => exact execDecStep_answersNoValue h
  | sigTake => exact execSigTake_answersNoValue h
  | pixWrite => exact execPixWrite_answersNoValue h
  | encStart => exact execEncStart_answersNoValue h
  | encStep => exact execEncStep_answersNoValue h
  | reset => exact execReset_answersNoValue h
  | reservedOp0 | reservedOpA | reservedOpB | reservedOpC | reservedOpD | reservedOpE =>
    exact absurd h raiseFault_ne_next
  | _ => exact runWire_answersNoValue h

/-- Settles O11, operation by operation: the three reads answer their value, every other operation none. -/
theorem onlyReadsReturnValues : Obligations.OnlyReadsReturnValues := by
  unfold Obligations.OnlyReadsReturnValues
  refine fun i s => ⟨fun t h => ?_, fun r h => ⟨s.recordFault r, by rw [h, settle_fault], rfl⟩⟩
  cases i with
  | pktRead n =>
    obtain ⟨b, hb⟩ := execPktRead_result h
    simp [hb]
  | encByte b =>
    obtain ⟨w, hw⟩ := execEncByte_result h
    simp [hw]
  | fbRead n =>
    obtain ⟨w, hw⟩ := execFbRead_result h
    simp [hw]
  | _ =>
    have hnone := exec_answersNoValue rfl h
    exact ⟨iff_of_false hnone.not_byte (by simp), iff_of_false hnone.not_word (by simp)⟩

end Sys2Proof.Machine

/-! ## Command words that stand for no operation (30_encoding.md R88, R89) -/

namespace Sys2Proof.Machine

/-- A word whose operation faults leaves the reason recorded. -/
theorem runWord_of_fault {w : Word} {i : Instr} {s : State} {r : Fault} (hw : decodeWord w = .ok i)
    (hi : exec i s = .fault r) : runWord w s = .next (s.recordFault r) := by
  simp only [runWord, hw, hi, settle_fault]

/-- A word that does not decode is settled before any operation runs. -/
theorem runWord_of_error {w : Word} {e : DecodeError} (s : State) (hw : decodeWord w = .error e) :
    runWord w s = .next (s.recordFault .reservedOperand) := by
  simp only [runWord, hw, raiseFault, settle_fault]

theorem decodeWord_of_reservedOp {w : Word} (hop : opField w ∈ [0x0#4, 0xA#4, 0xB#4, 0xC#4, 0xD#4, 0xE#4]) :
    ∃ i, decodeWord w = .ok i ∧ ∀ s, exec i s = .fault .reservedOpcode := by
  simp only [List.mem_cons, List.not_mem_nil, or_false] at hop
  rcases hop with h | h | h | h | h | h
  · exact ⟨.reservedOp0 (restField w), by simp [decodeWord, h], fun _ => rfl⟩
  · exact ⟨.reservedOpA (restField w), by simp [decodeWord, h], fun _ => rfl⟩
  · exact ⟨.reservedOpB (restField w), by simp [decodeWord, h], fun _ => rfl⟩
  · exact ⟨.reservedOpC (restField w), by simp [decodeWord, h], fun _ => rfl⟩
  · exact ⟨.reservedOpD (restField w), by simp [decodeWord, h], fun _ => rfl⟩
  · exact ⟨.reservedOpE (restField w), by simp [decodeWord, h], fun _ => rfl⟩

/-- Settles O4: the word decodes to its reserved code's instruction, whose fault is settled into the record. -/
theorem reservedOpcodesFault : Obligations.ReservedOpcodesFault := by
  unfold Obligations.ReservedOpcodesFault
  refine ⟨fun _ _ => ⟨rfl, rfl, rfl, rfl, rfl, rfl⟩, fun w s hop => ?_⟩
  obtain ⟨i, hw, hi⟩ := decodeWord_of_reservedOp hop
  exact ⟨s.recordFault .reservedOpcode, runWord_of_fault hw (hi s), s.recordFault_has _, s.recordFault_frame _⟩

/-! The must-be-zero fields, by which of `idx` and `dat` a row of R86 leaves unused. -/

theorem mbz_of_false {b : Bool} (i : Instr) (h : b = false) : mbz b i = .error .reservedOperand := by
  rw [h]; rfl

theorem decodeWord_of_idx_ne_zero {w : Word} (hop : opField w ∈ [0x1#4, 0x6#4]) (hidx : idxField w ≠ 0#20) :
    decodeWord w = .error .reservedOperand := by
  have hz : (idxField w == 0#20) = false := beq_false_of_ne hidx
  simp only [List.mem_cons, List.not_mem_nil, or_false] at hop
  rcases hop with h | h <;> simp [decodeWord, h, mbz_of_false _ hz]

theorem decodeWord_of_idx_or_dat_ne_zero {w : Word} (hop : opField w ∈ [0x2#4, 0x4#4, 0x7#4, 0x8#4, 0xF#4])
    (hfield : idxField w ≠ 0#20 ∨ datField w ≠ 0#8) : decodeWord w = .error .reservedOperand := by
  have hz : (idxField w == 0#20 && datField w == 0#8) = false := by
    rw [Bool.and_eq_false_iff]
    exact hfield.imp beq_false_of_ne beq_false_of_ne
  simp only [List.mem_cons, List.not_mem_nil, or_false] at hop
  rcases hop with h | h | h | h | h <;> simp [decodeWord, h, mbz_of_false _ hz]

theorem decodeWord_of_dat_ne_zero {w : Word} (hop : opField w ∈ [0x3#4, 0x9#4]) (hdat : datField w ≠ 0#8) :
    decodeWord w = .error .reservedOperand := by
  have hz : (datField w == 0#8) = false := beq_false_of_ne hdat
  simp only [List.mem_cons, List.not_mem_nil, or_false] at hop
  rcases hop with h | h <;> simp [decodeWord, h, mbz_of_false _ hz]

/-- Settles O5: the word decodes to no instruction, so no operation runs and nothing else is checked. -/
theorem reservedOperandsFault : Obligations.ReservedOperandsFault := by
  unfold Obligations.ReservedOperandsFault
  intro w s hword
  have hw : decodeWord w = .error .reservedOperand := by
    rcases hword with ⟨hop, hidx⟩ | ⟨hop, hfield⟩ | ⟨hop, hdat⟩
    · exact decodeWord_of_idx_ne_zero hop hidx
    · exact decodeWord_of_idx_or_dat_ne_zero hop hfield
    · exact decodeWord_of_dat_ne_zero hop hdat
  exact ⟨s.recordFault .reservedOperand, runWord_of_error s hw, s.recordFault_has _, rfl, s.recordFault_frame _⟩

end Sys2Proof.Machine

/-! ## The encoded word by bit field (30_encoding.md R77, R79; 41_led_encoder.md R160, R161) -/

namespace Sys2Proof.Machine

/-- A field of a field is a field of the word. -/
theorem field_of_field {a n start len : Nat} (w : Word) (h : start + len ≤ n) :
    (w.extractLsb' a n).extractLsb' start len = w.extractLsb' (a + start) len := by
  ext k hk
  simp [show start + k < n by omega, Nat.add_assoc]

/-- A field of the low half is the field of the high half before the exchange. -/
theorem swapHalves_low {start len : Nat} (w : Word) (h : start + len ≤ 16) :
    (swapHalves w).extractLsb' start len = w.extractLsb' (16 + start) len := by
  rw [swapHalves, BitVec.extractLsb'_append_eq_of_add_le h, field_of_field w h]

/-- A field of the high half is the field of the low half before the exchange. -/
theorem swapHalves_high {start len : Nat} (w : Word) (h : start + len ≤ 16) :
    (swapHalves w).extractLsb' (16 + start) len = w.extractLsb' start len := by
  rw [swapHalves, BitVec.extractLsb'_append_eq_of_le (Nat.le_add_right 16 start), Nat.add_sub_cancel_left,
    field_of_field w h, Nat.zero_add]

theorem nibble_append_zero {n : Nat} (x : BitVec n) (y : BitVec 4) : (x ++ y).extractLsb' (4 * 0) 4 = y :=
  BitVec.extractLsb'_append_eq_right

theorem nibble_append_succ {n : Nat} (x : BitVec n) (y : BitVec 4) (i : Nat) :
    (x ++ y).extractLsb' (4 * (i + 1)) 4 = x.extractLsb' (4 * i) 4 :=
  BitVec.extractLsb'_append_eq_of_le (by omega)

/-- R160: nibble `i` of the pre-swap word is the symbol of bit `i`. -/
theorem preSwap_nibble {i : Nat} (pol : BitVec 1) (b : Byte) (hi : i < 8) :
    (preSwap pol b).extractLsb' (4 * i) 4 = symOf pol (b.getLsbD i) := by
  unfold preSwap
  interval_cases i <;> simp only [nibble_append_succ, nibble_append_zero]
  exact BitVec.extractLsb'_eq_self

/-- R79: the low half of the final word holds the symbols of bits 4 to 7. -/
theorem encodeByte_low_nibble {i : Nat} (pol : BitVec 1) (b : Byte) (hi : i < 4) :
    (encodeByte pol b).extractLsb' (4 * i) 4 = symOf pol (b.getLsbD (4 + i)) := by
  rw [encodeByte, swapHalves_low _ (by omega), ← preSwap_nibble pol b (by omega : 4 + i < 8), Nat.mul_add]

/-- R79: the high half of the final word holds the symbols of bits 0 to 3. -/
theorem encodeByte_high_nibble {i : Nat} (pol : BitVec 1) (b : Byte) (hi : i < 4) :
    (encodeByte pol b).extractLsb' (16 + 4 * i) 4 = symOf pol (b.getLsbD i) := by
  rw [encodeByte, swapHalves_high _ (by omega), preSwap_nibble pol b (by omega : i < 8)]

/-- Settles O37: each field of the final word is one of its eight nibbles; the worked examples are computed. -/
theorem encodedWordByBitField : Obligations.EncodedWordByBitField := by
  unfold Obligations.EncodedWordByBitField
  refine ⟨by decide, by decide, by decide, ?_⟩
  rintro pol b one zero rfl rfl
  exact ⟨fun i hi => preSwap_nibble pol b hi, rfl,
    encodeByte_high_nibble pol b (i := 3) (by decide), encodeByte_high_nibble pol b (i := 2) (by decide),
    encodeByte_high_nibble pol b (i := 1) (by decide), encodeByte_high_nibble pol b (i := 0) (by decide),
    encodeByte_low_nibble pol b (i := 3) (by decide), encodeByte_low_nibble pol b (i := 2) (by decide),
    encodeByte_low_nibble pol b (i := 1) (by decide), encodeByte_low_nibble pol b (i := 0) (by decide)⟩

end Sys2Proof.Machine

/-! ## What the decoder engine reads (30_encoding.md R75; 40_frame_decoder.md R106, R117)

A wire byte at the head of the ring has a class, and `DEC_STEP` is that class: every rule about a byte is proved of the
class alone. -/

namespace Sys2Proof.Machine

/-- The check of R117, due at cursor 7 only: the whole payload is in the ring and its CRC is accepted. -/
def PayloadChecked (s : State) : Prop :=
  s.cursor = 7 → s.hdr.len.toNat ≤ s.ring.length ∧ crcAccepts s = true

theorem payloadChecked_of_header {s : State} (hc : s.cursor ≤ 6) : PayloadChecked s := fun h7 => by omega

/-- Once checked, the byte at the head of the ring is read at the cursor. -/
theorem nextWire_of_checked {s : State} {b : Byte} {rest : List Byte} (hr : s.ring = b :: rest)
    (hcheck : PayloadChecked s) :
    nextWire s = decodeWire s.cursor s.hdr.len.toNat s.cfg.pktMax.toNat b := by
  have hpass : ¬ (s.cursor = 7 ∧ (ringCount s < s.hdr.len.toNat ∨ crcAccepts s = false)) := by
    rintro ⟨h7, hshort | hcrc⟩
    · exact absurd (hcheck h7).1 (Nat.not_le.mpr hshort)
    · exact absurd (hcheck h7).2 (by simp [hcrc])
  simp only [nextWire, hr, hpass, if_false]

/-- What is read has been checked, and stands at the head of the ring. -/
theorem nextWire_eq_some {s : State} {i : Instr} (h : nextWire s = some i) :
    ∃ b rest, s.ring = b :: rest ∧ PayloadChecked s ∧
      decodeWire s.cursor s.hdr.len.toNat s.cfg.pktMax.toNat b = some i := by
  cases hr : s.ring with
  | nil => simp [nextWire, hr] at h
  | cons b rest =>
    by_cases hfail : s.cursor = 7 ∧ (ringCount s < s.hdr.len.toNat ∨ crcAccepts s = false)
    · simp [nextWire, hr, hfail] at h
    · have hcheck : PayloadChecked s := fun h7 => by
        simpa [h7, ringCount] using hfail
      exact ⟨b, rest, rfl, hcheck, nextWire_of_checked hr hcheck ▸ h⟩

theorem execDecStep_of_header {s : State} {b : Byte} {rest : List Byte} (hc : s.cursor ≤ 6) (hr : s.ring = b :: rest) :
    exec .decStep s = done (headerByte s.cursor b { s with ring := rest }) := by
  simp only [exec, execDecStep, hc, if_true, ringPop_cons hr]

theorem execDecStep_of_payload {s : State} (hc : 7 ≤ s.cursor) (hcheck : PayloadChecked s) :
    exec .decStep s = payloadElement (payloadIndex s) s := by
  have h6 : ¬ s.cursor ≤ 6 := by omega
  by_cases h7 : s.cursor = 7
  · obtain ⟨hlen, hcrc⟩ := hcheck h7
    have hheld : ¬ ringCount s < s.hdr.len.toNat := Nat.not_lt.mpr hlen
    simp [exec, execDecStep, payloadIndex, h7, hheld, hcrc]
  · simp only [exec, execDecStep, h6, h7, if_false]

theorem payloadElement_of_byte {k : Nat} {s : State} {b : Byte} {rest : List Byte} (hk : k < s.hdr.len.toNat)
    (hr : s.ring = b :: rest) :
    payloadElement k s = done (if k < s.cfg.pktMax.toNat then copyElement k b { s with ring := rest }
      else dropElement k { s with ring := rest }) := by
  simp only [payloadElement, hk, if_true, ringPop_cons hr]

/-- The class of a payload byte is a matter of its element index and `PKT_MAX`. -/
theorem decodeWire_of_payload {c len pktMax : Nat} (b : Byte) (hc : 7 ≤ c) :
    decodeWire c len pktMax b =
      if c - 7 < len then some (if c - 7 < pktMax then .wPayCopy b else .wPayDrop b) else none := by
  obtain ⟨k, rfl⟩ := Nat.exists_eq_add_of_le' hc
  rfl

/-- Where the effect of a class is the engine's on the same header byte, the engine runs the class. -/
theorem execDecStep_of_headerByte_eq {s : State} {i : Instr} {b : Byte} {rest : List Byte} {eff : State → State}
    (hread : nextWire s = some i) (hc : s.cursor ≤ 6) (hr : s.ring = b :: rest) (hexec : exec i s = runWire i eff s)
    (heff : headerByte s.cursor b { s with ring := rest } = eff { s with ring := rest }) :
    exec .decStep s = exec i s := by
  rw [execDecStep_of_header hc hr, hexec, runWire_of_read hread hr, heff, done]

/-- At a magic cursor the engine runs the class `hit` of the matching byte, or the mismatch. -/
theorem execDecStep_of_read_magic {s : State} {i hit : Instr} {b : Byte} {rest : List Byte}
    (hread : nextWire s = some i) (hc : s.cursor ≤ 3) (hr : s.ring = b :: rest)
    (hi : (if b = magic s.cursor then hit else .wMagicMiss b) = i)
    (hhit : exec hit s = runWire hit (acceptMagic s.cursor b) s) : exec .decStep s = exec i s := by
  by_cases hb : b = magic s.cursor
  · rw [if_pos hb] at hi
    subst hi
    exact execDecStep_of_headerByte_eq hread (by omega) hr hhit (by rw [headerByte, if_pos hc, if_pos hb])
  · rw [if_neg hb] at hi
    subst hi
    exact execDecStep_of_headerByte_eq hread (by omega) hr rfl (by rw [headerByte, if_pos hc, if_neg hb])

theorem execDecStep_of_read_header {s : State} {i : Instr} (hread : nextWire s = some i) (hc : s.cursor ≤ 6) :
    exec .decStep s = exec i s := by
  obtain ⟨b, rest, hr, _, hi⟩ := nextWire_eq_some hread
  have hcases : s.cursor = 0 ∨ s.cursor = 1 ∨ s.cursor = 2 ∨ s.cursor = 3 ∨ s.cursor = 4 ∨ s.cursor = 5 ∨
      s.cursor = 6 := by omega
  rcases hcases with h | h | h | h | h | h | h <;> rw [h] at hi <;> replace hi := Option.some.inj hi
  · exact execDecStep_of_read_magic (hit := .wMagicU b) hread (by omega) hr (by rw [h]; exact hi) (by rw [h]; rfl)
  · exact execDecStep_of_read_magic (hit := .wMagicA b) hread (by omega) hr (by rw [h]; exact hi) (by rw [h]; rfl)
  · exact execDecStep_of_read_magic (hit := .wMagicR b) hread (by omega) hr (by rw [h]; exact hi) (by rw [h]; rfl)
  · exact execDecStep_of_read_magic (hit := .wMagicT b) hread (by omega) hr (by rw [h]; exact hi) (by rw [h]; rfl)
  · subst hi
    exact execDecStep_of_headerByte_eq (eff := acceptLenLo b) hread hc hr rfl (by rw [h]; rfl)
  · subst hi
    exact execDecStep_of_headerByte_eq (eff := acceptLenHi b) hread hc hr rfl (by rw [h]; rfl)
  · subst hi
    exact execDecStep_of_headerByte_eq (eff := acceptCrc b) hread hc hr rfl (by rw [h]; rfl)

theorem execDecStep_of_read_payload {s : State} {i : Instr} (hread : nextWire s = some i) (hc : 7 ≤ s.cursor) :
    exec .decStep s = exec i s := by
  obtain ⟨b, rest, hr, hcheck, hi⟩ := nextWire_eq_some hread
  rw [decodeWire_of_payload b hc] at hi
  by_cases hk : payloadIndex s < s.hdr.len.toNat
  · replace hi := Option.some.inj ((if_pos hk).symm.trans hi)
    rw [execDecStep_of_payload hc hcheck, payloadElement_of_byte hk hr]
    by_cases hmax : payloadIndex s < s.cfg.pktMax.toNat
    · obtain rfl := (if_pos hmax).symm.trans hi
      rw [if_pos hmax]
      exact (runWire_of_read hread hr).symm
    · obtain rfl := (if_neg hmax).symm.trans hi
      rw [if_neg hmax]
      exact (runWire_of_read hread hr).symm
  · cases (if_neg hk).symm.trans hi

/-- `DEC_STEP` is the class of the byte it reads. -/
theorem execDecStep_of_read {s : State} {i : Instr} (hread : nextWire s = some i) : exec .decStep s = exec i s :=
  (le_or_gt s.cursor 6).elim (execDecStep_of_read_header hread) (execDecStep_of_read_payload hread)

/-- A checked byte is read as its class `i`, which has its effect on the state without the byte; so has `DEC_STEP`. -/
theorem class_runs_of_checked {s : State} {i : Instr} {b : Byte} {rest : List Byte} {eff : State → State}
    (hcheck : PayloadChecked s) (hr : s.ring = b :: rest)
    (hclass : decodeWire s.cursor s.hdr.len.toNat s.cfg.pktMax.toNat b = some i) (hexec : exec i s = runWire i eff s) :
    exec i s = .next ((eff { s with ring := rest }).answer .done) ∧ exec .decStep s = exec i s := by
  have hread : nextWire s = some i := by rw [nextWire_of_checked hr hcheck, hclass]
  exact ⟨hexec.trans (runWire_of_read hread hr), execDecStep_of_read hread⟩

end Sys2Proof.Machine

/-! ## The bytes of the header (40_frame_decoder.md R108 to R115) -/

namespace Sys2Proof.Machine

/-- The cursor register holds the cursor. -/
theorem State.cursor_of_idx {s : State} {n : Nat} (h : s.hdr.idx = BitVec.ofNat 32 n) : s.cursor = n % 2 ^ 32 := by
  rw [State.cursor, h, BitVec.toNat_ofNat]

/-- The byte at a header cursor is read as its class, without any check. -/
theorem class_runs_at_cursor {s : State} {i : Instr} {b : Byte} {rest : List Byte} {eff : State → State} {c : Nat}
    (hcur : s.cursor = c) (hc : c ≤ 6) (hr : s.ring = b :: rest)
    (hclass : decodeWire c s.hdr.len.toNat s.cfg.pktMax.toNat b = some i) (hexec : exec i s = runWire i eff s) :
    exec i s = .next ((eff { s with ring := rest }).answer .done) ∧ exec .decStep s = exec i s := by
  subst hcur
  exact class_runs_of_checked (payloadChecked_of_header hc) hr hclass hexec

/-- Settles O16: the four classes, each at its own cursor. -/
theorem magicBytesAdvanceTheCursor : Obligations.MagicBytesAdvanceTheCursor := by
  unfold Obligations.MagicBytesAdvanceTheCursor
  intro s rest len pktMax
  refine ⟨fun hidx hr => ⟨rfl, ?_⟩, fun hidx hr => ⟨rfl, ?_⟩, fun hidx hr => ⟨rfl, ?_⟩, fun hidx hr => ⟨rfl, ?_⟩⟩
  · exact class_runs_at_cursor (eff := acceptMagic 0 0x55#8) (State.cursor_of_idx hidx) (by decide) hr rfl rfl
  · exact class_runs_at_cursor (eff := acceptMagic 1 0x41#8) (State.cursor_of_idx hidx) (by decide) hr rfl rfl
  · exact class_runs_at_cursor (eff := acceptMagic 2 0x52#8) (State.cursor_of_idx hidx) (by decide) hr rfl rfl
  · exact class_runs_at_cursor (eff := acceptMagic 3 0x54#8) (State.cursor_of_idx hidx) (by decide) hr rfl rfl

/-- Settles O18: the three classes, each at its own cursor. -/
theorem lengthAndCrcBytesAreStored : Obligations.LengthAndCrcBytesAreStored := by
  unfold Obligations.LengthAndCrcBytesAreStored
  intro s b rest len pktMax hr
  refine ⟨fun hidx => ⟨rfl, ?_⟩, fun hidx => ⟨rfl, ?_⟩, fun hidx => ⟨rfl, ?_⟩⟩
  · exact class_runs_at_cursor (eff := acceptLenLo b) (State.cursor_of_idx hidx) (by decide) hr rfl rfl
  · exact class_runs_at_cursor (eff := acceptLenHi b) (State.cursor_of_idx hidx) (by decide) hr rfl rfl
  · exact class_runs_at_cursor (eff := acceptCrc b) (State.cursor_of_idx hidx) (by decide) hr rfl rfl

/-! Resynchronisation (R112). -/

theorem decodeWire_of_miss {c len pktMax : Nat} {b : Byte} (hc : c ≤ 3) (hb : b ≠ magic c) :
    decodeWire c len pktMax b = some (.wMagicMiss b) := by
  match c, hc, hb with
  | 0, _, hb | 1, _, hb | 2, _, hb | 3, _, hb => exact congrArg some (if_neg hb)

/-- A byte that does not match is popped, clears the header and is logged. -/
theorem magic_miss {s : State} {b : Byte} {rest : List Byte} {c : Nat} (hcur : s.cursor = c) (hc : c ≤ 3)
    (hr : s.ring = b :: rest) (hb : b ≠ magic c) :
    exec (.wMagicMiss b) s = .next { s with
        ring := rest, hdr := Header.zero, events := s.events ++ [.magicMismatch c b], result := .done } ∧
      exec .decStep s = exec (.wMagicMiss b) s := by
  subst hcur
  exact class_runs_at_cursor (eff := missMagic s.cursor b) rfl (by omega) hr (decodeWire_of_miss hc hb) rfl

theorem State.cursor_of_clear {s : State} (hclear : s.hdr = Header.zero) : s.cursor = 0 := by
  rw [State.cursor, hclear, Header.zero_idx, BitVec.toNat_zero]

/-- At a clear header a byte other than `U` leaves only the pop and the event. -/
theorem execDecStep_of_miss_clear {s : State} {b : Byte} {rest : List Byte} (hclear : s.hdr = Header.zero)
    (hr : s.ring = b :: rest) (hb : b ≠ 0x55#8) :
    exec .decStep s = .next { s with ring := rest, events := s.events ++ [.magicMismatch 0 b], result := .done } := by
  obtain ⟨hmiss, hstep⟩ := magic_miss (State.cursor_of_clear hclear) (by decide) hr hb
  rw [hstep, hmiss, hclear]

theorem runInstrs_decRun_succ {n : Nat} {s t : State} (h : exec .decStep s = .next t) :
    runInstrs (decRun (n + 1)) s = runInstrs (decRun n) t := by
  simp only [decRun, List.replicate_succ, runInstrs, h]

/-- At a clear header the first of two `U` is accepted and the second clears the header again, itself included. -/
theorem runInstrs_decRun_double_u {s : State} {rest : List Byte} (n : Nat) (hclear : s.hdr = Header.zero)
    (hr : s.ring = 0x55#8 :: 0x55#8 :: rest) :
    runInstrs (decRun (n + 2)) s =
      runInstrs (decRun n) { s with ring := rest, events := s.events ++ [.magicMismatch 1 0x55#8], result := .done } := by
  obtain ⟨haccept, hstep⟩ := class_runs_at_cursor (i := .wMagicU 0x55#8) (eff := acceptMagic 0 0x55#8)
    (State.cursor_of_clear hclear) (by decide) hr rfl rfl
  rw [runInstrs_decRun_succ (hstep.trans haccept)]
  obtain ⟨hmiss, hstep⟩ := magic_miss (b := 0x55#8) (rest := rest) (c := 1)
    (s := (acceptMagic 0 0x55#8 { s with ring := 0x55#8 :: rest }).answer .done) rfl (by decide) rfl (by decide)
  rw [runInstrs_decRun_succ (hstep.trans hmiss), ← hclear]
  rfl

/-- At a clear header every byte before the next `U` is dropped, each with its event. -/
theorem runInstrs_decRun_of_misses {s : State} {bs rest : List Byte} (hclear : s.hdr = Header.zero)
    (hr : s.ring = bs ++ rest) (hbs : ∀ b ∈ bs, b ≠ 0x55#8) (hdone : s.result = .done) :
    runInstrs (decRun bs.length) s =
      .next { s with ring := rest, events := s.events ++ bs.map (.magicMismatch 0) } := by
  induction bs generalizing s with
  | nil =>
    rw [List.nil_append] at hr
    rw [List.map_nil, List.append_nil, ← hr]
    rfl
  | cons b bs ih =>
    obtain ⟨hb, hbs⟩ := List.forall_mem_cons.mp hbs
    rw [List.length_cons, runInstrs_decRun_succ (execDecStep_of_miss_clear hclear hr hb), ih ?clear rfl hbs rfl]
    case clear => exact hclear
    simp only [hdone, List.map_cons, List.append_assoc, List.singleton_append]

/-- Settles O17: a mismatch is one rule; of `UUART` the second `U` clears the header and the rest is dropped. -/
theorem magicMissResynchronises : Obligations.MagicMissResynchronises := by
  unfold Obligations.MagicMissResynchronises
  refine ⟨fun s b rest len pktMax hc hr hb => ⟨decodeWire_of_miss hc hb, magic_miss rfl hc hr hb⟩,
    fun s b rest hclear hr hb => execDecStep_of_miss_clear hclear hr hb, fun s rest hclear hr => ?_⟩
  have hdrop := runInstrs_decRun_of_misses (bs := [0x41#8, 0x52#8, 0x54#8]) (rest := rest)
    (s := { s with
      ring := [0x41#8, 0x52#8, 0x54#8] ++ rest, events := s.events ++ [.magicMismatch 1 0x55#8], result := .done })
    hclear rfl (by decide) rfl
  rw [runInstrs_decRun_double_u 3 hclear hr]
  refine hdrop.trans ?_
  rw [List.append_assoc]
  rfl

end Sys2Proof.Machine

/-! ## The elements of the payload (40_frame_decoder.md R117 to R122) -/

namespace Sys2Proof.Machine

/-- The completion test of R122 at the element the cursor stands at: the frame commits, or the cursor moves on by one. -/
theorem elementDone_at_cursor {s : State} (hc : 7 ≤ s.cursor) :
    (elementDone (s.cursor - 7) s).answer .done =
      if s.cursor - 7 + 1 = max s.hdr.len.toNat s.cfg.pktMax.toNat then
        { s with
          newData := true, hdr := Header.zero, events := s.events ++ [.frameCommit s.hdr.len], result := .done }
      else { s with hdr := { s.hdr with idx := s.hdr.idx + 1#32 }, result := .done } := by
  have hnext : BitVec.ofNat 32 (7 + (s.cursor - 7) + 1) = s.hdr.idx + 1#32 := by
    rw [Nat.add_sub_cancel' hc, State.cursor, BitVec.ofNat_add, BitVec.ofNat_toNat, BitVec.setWidth_eq]
  obtain ⟨hlast, hdone⟩ | ⟨hmore, hdone⟩ := elementDone_cases (s.cursor - 7) s
  · rw [hdone]
    exact (if_pos hlast).symm
  · rw [hdone, State.setCursor, hnext]
    exact (if_neg hmore).symm

/-- Settles O19: the class `W_PAY_COPY`, and what a write of the Packet Buffer reads back. -/
theorem payloadByteIsCopied : Obligations.PayloadByteIsCopied := by
  unfold Obligations.PayloadByteIsCopied
  intro s b rest hc hr hk hmax hcheck
  have hclass : decodeWire s.cursor s.hdr.len.toNat s.cfg.pktMax.toNat b = some (.wPayCopy b) := by
    rw [decodeWire_of_payload b hc, if_pos hk, if_pos hmax]
  obtain ⟨hrun, hstep⟩ := class_runs_of_checked hcheck hr hclass rfl
  have hpkt : ((copyElement (payloadIndex s) b { s with ring := rest }).answer .done).pkt =
      memWrite s.pkt (s.cursor - 7) b := copyElement_pkt _ _ _
  refine ⟨_, hclass, hrun, hstep.trans hrun, ?_, fun j hj => ?_, ?_⟩
  · rw [hpkt, memRead_memWrite_same]
  · rw [hpkt, memRead_memWrite_ne _ _ hj]
  · rw [hpkt]
    exact elementDone_at_cursor (s := { s with ring := rest, pkt := memWrite s.pkt (s.cursor - 7) b }) hc

/-- Settles O20: the class `W_PAY_DROP`, whose only effect is the completion test. -/
theorem excessPayloadByteIsDropped : Obligations.ExcessPayloadByteIsDropped := by
  unfold Obligations.ExcessPayloadByteIsDropped
  intro s b rest hc hr hk hmax hcheck
  have hclass : decodeWire s.cursor s.hdr.len.toNat s.cfg.pktMax.toNat b = some (.wPayDrop b) := by
    rw [decodeWire_of_payload b hc, if_pos hk, if_neg (Nat.not_lt.mpr hmax)]
  obtain ⟨hrun, hstep⟩ := class_runs_of_checked hcheck hr hclass rfl
  exact ⟨_, hclass, hrun, hstep.trans hrun, elementDone_at_cursor (s := { s with ring := rest }) hc⟩

/-! Past the payload (R120). -/

/-- The completion test writes no element. -/
theorem elementDone_pkt (k : Nat) (s : State) : (elementDone k s).pkt = s.pkt := dropElement_pkt k s

theorem zeroElement_of_lt {k : Nat} {s : State} (hk : k < s.cfg.pktMax.toNat) :
    zeroElement k s = .next ((elementDone k { s with pkt := memWrite s.pkt k 0#8 }).answer .done) := by
  rw [zeroElement, elementWrite_of_lt _ _ hk]
  rfl

/-- The payload is empty when cursor 7 is past it, so its check asks for no byte. -/
theorem payloadChecked_of_past {s : State} (hpast : s.hdr.len.toNat ≤ s.cursor - 7)
    (hcrc : s.cursor = 7 → crcCheck s.params.crcHook s.hdr.crc s.hdr.len [] = true) : PayloadChecked s := by
  intro h7
  have hlen : s.hdr.len.toNat = 0 := by omega
  refine ⟨by omega, ?_⟩
  rw [crcAccepts, hlen]
  exact hcrc h7

/-- Settles O21: past the payload an element is zero-filled, whatever the ring holds. -/
theorem packetTailIsZeroFilled : Obligations.PacketTailIsZeroFilled := by
  unfold Obligations.PacketTailIsZeroFilled
  intro s hc hpast hmax hcrc
  have hstep : exec .decStep s =
      .next ((elementDone (s.cursor - 7) { s with pkt := memWrite s.pkt (s.cursor - 7) 0#8 }).answer .done) := by
    rw [execDecStep_of_payload hc (payloadChecked_of_past hpast hcrc), payloadElement, payloadIndex,
      if_neg (Nat.not_lt.mpr hpast), zeroElement_of_lt hmax]
  have hpkt : ((elementDone (s.cursor - 7) { s with pkt := memWrite s.pkt (s.cursor - 7) 0#8 }).answer .done).pkt =
      memWrite s.pkt (s.cursor - 7) 0#8 := elementDone_pkt _ _
  refine ⟨_, hstep, ?_, fun j hj => ?_, ?_⟩
  · rw [hpkt, memRead_memWrite_same]
  · rw [hpkt, memRead_memWrite_ne _ _ hj]
  · rw [hpkt]
    exact elementDone_at_cursor (s := { s with pkt := memWrite s.pkt (s.cursor - 7) 0#8 }) hc

/-! The check at cursor 7 (R117, R121). -/

/-- At cursor 7 the payload is waited for, then its CRC checked. -/
theorem execDecStep_at_check {s : State} (h7 : s.cursor = 7) :
    exec .decStep s =
      if s.ring.length < s.hdr.len.toNat then hold s
      else if crcAccepts s then payloadElement 0 s else done (crcFail s) := by
  have h6 : ¬ s.cursor ≤ 6 := by omega
  rw [exec, execDecStep, if_neg h6, if_pos h7, ringCount]

/-- Settles O22: the check at cursor 7 fails; the reference hook's never does. -/
theorem crcFailureDiscardsTheHeader : Obligations.CrcFailureDiscardsTheHeader := by
  unfold Obligations.CrcFailureDiscardsTheHeader
  refine ⟨fun s hidx hlen hcrc => ?_, fun _ _ _ => rfl⟩
  have hfail : ¬ crcAccepts s = true := ne_true_of_eq_false hcrc
  rw [execDecStep_at_check (State.cursor_of_idx hidx), if_neg (Nat.not_lt.mpr hlen), if_neg hfail]
  rfl

end Sys2Proof.Machine

/-! ## `RX_BYTE` (40_frame_decoder.md R104, R105) -/

namespace Sys2Proof.Machine

/-- All an `RX_BYTE` can do. -/
theorem execRxByte_cases (b : Byte) (s : State) :
    (s.ring.length < s.ringCap ∧ exec (.rxByte b) s = .next ((ringPush b s).answer .done)) ∨
    (s.ringCap ≤ s.ring.length ∧ exec (.rxByte b) s = .next ((s.emit (.rxOverrun b)).answer .done)) := by
  by_cases h : s.ring.length < s.ringCap
  · exact .inl ⟨h, if_pos h⟩
  · exact .inr ⟨Nat.le_of_not_lt h, if_neg h⟩

theorem execRxByte_of_full (b : Byte) {s : State} (hfull : s.ringCap ≤ s.ring.length) :
    exec (.rxByte b) s = .next { s with events := s.events ++ [.rxOverrun b], result := .done } :=
  if_neg (Nat.not_lt.mpr hfull)

/-- Settles O15: the other branch of `RX_BYTE` is not taken. -/
theorem fullRingDropsTheByte : Obligations.FullRingDropsTheByte := by
  unfold Obligations.FullRingDropsTheByte
  exact fun b s hfull => execRxByte_of_full b hfull

end Sys2Proof.Machine

/-! ## A waiting decoder (40_frame_decoder.md R107, R116)

A decoder that waits is held as `DEC_STEP` and reads no byte of any class, so of the operations only `RX_BYTE` and RESET
can end the wait: the others leave the SFD alone, but for the signal that `SIG_TAKE` takes. -/

namespace Sys2Proof.Machine

/-- The engine is held, and no wire byte is read. -/
structure DecoderWaits (s : State) : Prop where
  held : exec .decStep s = hold s
  reads_none : nextWire s = none

theorem decoderWaits_of_empty_ring {s : State} (hc : s.cursor ≤ 6) (hr : s.ring = []) : DecoderWaits s where
  held := by rw [exec, execDecStep, if_pos hc, ringPop_nil hr]
  reads_none := by rw [nextWire, hr]

theorem decoderWaits_of_short_payload {s : State} (h7 : s.cursor = 7) (hshort : s.ring.length < s.hdr.len.toNat) :
    DecoderWaits s where
  held := by rw [execDecStep_at_check h7, if_pos hshort]
  reads_none := by
    refine Option.eq_none_iff_forall_ne_some.mpr fun i hi => ?_
    obtain ⟨_, _, _, hcheck, _⟩ := nextWire_eq_some hi
    exact absurd (hcheck h7).1 (Nat.not_le.mpr hshort)

/-- The SFD is as it was, but for a signal taken. -/
structure SfdKept (s t : State) : Prop where
  sfd_eq : t.sfd = { s.sfd with newData := t.newData }
  not_raised : t.newData = true → s.newData = true

theorem SfdKept.of_sfd_eq {s t : State} (h : t.sfd = s.sfd) : SfdKept s t where
  sfd_eq := by rw [h, show t.newData = s.newData from congrArg SfdView.newData h]; rfl
  not_raised := (congrArg SfdView.newData h).symm.trans

theorem sfdKept_of_sigTake {s t : State} (h : execSigTake s = .next t) : SfdKept s t := by
  unfold execSigTake at h
  split at h
  · obtain rfl := done_next_iff.mp h
    exact ⟨rfl, fun hn => by cases hn⟩
  · obtain rfl := hold_next_iff.mp h
    exact .of_sfd_eq rfl

theorem sfdKept_of_pktRead {n : Index} {s t : State} (h : execPktRead n s = .next t) : SfdKept s t := by
  unfold execPktRead at h
  cases he : elementRead s.cfg.pktMax.toNat s.pkt n.toNat with
  | error r => simp [he] at h
  | ok b =>
    rw [he] at h
    obtain rfl := retByte_next_iff.mp h
    exact .of_sfd_eq rfl

/-- No class runs while none is read (log entry 5). -/
theorem sfdKept_of_runWire {i : Instr} {eff : State → State} {s t : State} (hnone : nextWire s = none)
    (h : runWire i eff s = .next t) : SfdKept s t := by
  obtain ⟨hread, _⟩ | ⟨_, rfl⟩ := runWire_next h
  · rw [hnone] at hread
    cases hread
  · exact .of_sfd_eq rfl

/-- While the decoder waits, every operation but `RX_BYTE` and RESET keeps the SFD. -/
theorem DecoderWaits.exec_keeps_sfd {s t : State} {i : Instr} (hw : DecoderWaits s) (hrx : ∀ b, i ≠ .rxByte b)
    (hreset : i ≠ .reset) (h : exec i s = .next t) : SfdKept s t := by
  cases i with
  | rxByte b => exact absurd rfl (hrx b)
  | reset => exact absurd rfl hreset
  | decStep =>
    rw [hw.held] at h
    obtain rfl := hold_next_iff.mp h
    exact .of_sfd_eq rfl
  | pktRead => exact sfdKept_of_pktRead h
  | sigTake => exact sfdKept_of_sigTake h
  | pixWrite | encByte | encStart | encStep | fbRead =>
    exact .of_sfd_eq ((exec_localTo_bse rfl).other_eq bse_putsUnit h)
  | reservedOp0 | reservedOpA | reservedOpB | reservedOpC | reservedOpD | reservedOpE =>
    exact absurd h raiseFault_ne_next
  | _ => exact sfdKept_of_runWire hw.reads_none h

/-- After RESET the header is clear and the ring empty (70_reset_and_hazards.md R230). -/
theorem execReset_decoder {s t : State} (h : exec .reset s = .next t) : t.hdr = Header.zero ∧ t.ring = [] := by
  obtain rfl := done_next_iff.mp h
  obtain ⟨_, hup⟩ | ⟨_, _, _, hup⟩ := bringUp_cases (resetState s) <;> rw [hup] <;> exact ⟨rfl, rfl⟩

theorem State.cursor_eq_of_hdr {s t : State} (h : t.hdr = s.hdr) : t.cursor = s.cursor :=
  congrArg (fun hdr : Header => hdr.idx.toNat) h

/-- With no header byte, no operation but `RX_BYTE` gives the engine one. -/
theorem exec_keeps_empty_ring {s t : State} {i : Instr} (hc : s.cursor ≤ 6) (hr : s.ring = [])
    (hrx : ∀ b, i ≠ .rxByte b) (h : exec i s = .next t) : t.cursor ≤ 6 ∧ t.ring = [] := by
  by_cases hreset : i = .reset
  · subst hreset
    obtain ⟨hhdr, hring⟩ := execReset_decoder h
    exact ⟨(State.cursor_of_clear hhdr).le.trans (Nat.zero_le 6), hring⟩
  · have hkept := ((decoderWaits_of_empty_ring hc hr).exec_keeps_sfd hrx hreset h).sfd_eq
    have hhdr : t.hdr = s.hdr := congrArg SfdView.hdr hkept
    have hring : t.ring = s.ring := congrArg SfdView.ring hkept
    exact ⟨State.cursor_eq_of_hdr hhdr ▸ hc, hring.trans hr⟩

/-- With the whole payload in the ring the check is made, so the engine is not held. -/
theorem execDecStep_of_complete {s t : State} (h7 : s.cursor = 7) (hlen : s.hdr.len.toNat ≤ s.ring.length)
    (h : exec .decStep s = .next t) : t.result = .done := by
  rw [execDecStep_at_check h7, if_neg (Nat.not_lt.mpr hlen)] at h
  split at h
  · obtain ⟨hk, hr, _⟩ | ⟨_, _, _, _, _, rfl⟩ | ⟨_, _, _, _, _, rfl⟩ | ⟨_, _, rfl⟩ := payloadElement_next h
    · rw [hr, List.length_nil] at hlen
      omega
    all_goals rfl
  · rw [done_next_iff.mp h, State.answer_result]

/-- Settles O23: both waits hold `DEC_STEP`; the first is kept by all but `RX_BYTE`, the second ends with the payload. -/
theorem decoderWaitsWithoutLoss : Obligations.DecoderWaitsWithoutLoss := by
  unfold Obligations.DecoderWaitsWithoutLoss
  refine fun s => ⟨fun hc hr => ⟨(decoderWaits_of_empty_ring hc hr).held, fun i t => exec_keeps_empty_ring hc hr⟩,
    fun hidx hshort => ?_⟩
  have h7 : s.cursor = 7 := State.cursor_of_idx hidx
  refine ⟨(decoderWaits_of_short_payload h7 hshort).held, fun bs t hlen h => ?_⟩
  rw [← List.length_append] at hlen
  exact execDecStep_of_complete (s := { s with ring := s.ring ++ bs }) h7 hlen h

end Sys2Proof.Machine

/-! ## The stall (40_frame_decoder.md R126)

A stalled decoder waits for a payload the ring cannot hold. The invariants are kept because the ring only grows, within
its capacity, and the header and the Packet Buffer stay. -/

namespace Sys2Proof.Machine

/-- The invariants bound the ring by its capacity and by the payload still to come, so a longer ring keeps them. -/
theorem SfdInv.of_longer_ring {s t : State} (hinv : SfdInv s) (hcap : t.ringCap = s.ringCap)
    (hmax : t.cfg.pktMax = s.cfg.pktMax) (hhdr : t.hdr = s.hdr) (hpkt : t.pkt = s.pkt)
    (hgrown : s.ring.length ≤ t.ring.length) (hfits : t.ring.length ≤ s.ringCap) : SfdInv t := by
  have hcur : t.cursor = s.cursor := State.cursor_eq_of_hdr hhdr
  have htotal : payloadTotal t = payloadTotal s := by rw [payloadTotal, hhdr, hmax, payloadTotal]
  obtain ⟨_, hcursor, hheld, hlen, hlenHi, hcrc, hmagic, hwf⟩ := hinv
  constructor <;> simp only [hcap, hcur, htotal, hhdr, hmax, hpkt]
  case ring_le => exact hfits
  case payload_held => exact fun h8 => (hheld h8).trans hgrown
  all_goals assumption

theorem Stalled.of_hdr_eq {s t : State} (hst : Stalled s) (hcap : t.ringCap = s.ringCap) (hhdr : t.hdr = s.hdr) :
    Stalled t := by
  obtain ⟨h7, hlong⟩ := hst
  exact ⟨(State.cursor_eq_of_hdr hhdr).trans h7, by rw [hcap, hhdr]; exact hlong⟩

theorem Stalled.decoderWaits {s : State} (hst : Stalled s) (hinv : SfdInv s) : DecoderWaits s := by
  obtain ⟨h7, hlong⟩ := hst
  exact decoderWaits_of_short_payload h7 (hinv.ring_le.trans_lt hlong)

theorem SfdInv.of_kept {s t : State} (hinv : SfdInv s) (hkept : SfdKept s t) : SfdInv t := by
  have hring : t.ring = s.ring := congrArg SfdView.ring hkept.sfd_eq
  exact hinv.of_longer_ring (congrArg SfdView.ringCap hkept.sfd_eq) (congrArg SfdView.pktMax hkept.sfd_eq)
    (congrArg SfdView.hdr hkept.sfd_eq) (congrArg SfdView.pkt hkept.sfd_eq) (hring ▸ le_rfl) (hring ▸ hinv.ring_le)

theorem SfdInv.after_rxByte {b : Byte} {s t : State} (hinv : SfdInv s) (h : exec (.rxByte b) s = .next t) : SfdInv t := by
  obtain ⟨hroom, hexec⟩ | ⟨_, hexec⟩ := execRxByte_cases b s
  all_goals obtain rfl := Host.Outcome.next.inj (hexec.symm.trans h)
  · refine hinv.of_longer_ring rfl rfl rfl rfl ?_ ?_ <;>
      rw [State.answer_ring, ringPush_ring, List.length_append, List.length_singleton] <;> omega
  · exact hinv.of_kept (.of_sfd_eq rfl)

/-- An `RX_BYTE` writes nothing of the SFD but the ring. -/
theorem execRxByte_frame {b : Byte} {s t : State} (h : exec (.rxByte b) s = .next t) :
    t.sfd = { s.sfd with ring := t.ring } := by
  obtain ⟨_, hexec⟩ | ⟨_, hexec⟩ := execRxByte_cases b s
  all_goals
    obtain rfl := Host.Outcome.next.inj (hexec.symm.trans h)
    rfl

/-- No operation but RESET ends the stall or delivers anything. -/
theorem Stalled.exec_keeps {s t : State} {i : Instr} (hst : Stalled s) (hinv : SfdInv s) (hreset : i ≠ .reset)
    (h : exec i s = .next t) :
    Stalled t ∧ SfdInv t ∧ t.hdr = s.hdr ∧ t.pkt = s.pkt ∧ (t.newData = true → s.newData = true) := by
  by_cases hrx : ∃ b, i = .rxByte b
  · obtain ⟨b, rfl⟩ := hrx
    have hframe := execRxByte_frame h
    have hhdr : t.hdr = s.hdr := congrArg SfdView.hdr hframe
    exact ⟨hst.of_hdr_eq (congrArg SfdView.ringCap hframe) hhdr, hinv.after_rxByte h, hhdr,
      congrArg SfdView.pkt hframe, (congrArg SfdView.newData hframe).symm.trans⟩
  · have hkept := (hst.decoderWaits hinv).exec_keeps_sfd (not_exists.mp hrx) hreset h
    have hhdr : t.hdr = s.hdr := congrArg SfdView.hdr hkept.sfd_eq
    exact ⟨hst.of_hdr_eq (congrArg SfdView.ringCap hkept.sfd_eq) hhdr, hinv.of_kept hkept, hhdr,
      congrArg SfdView.pkt hkept.sfd_eq, hkept.not_raised⟩

theorem not_stalled_of_clear {s : State} (hclear : s.hdr = Header.zero) : ¬ Stalled s := by
  rintro ⟨h7, _⟩
  rw [State.cursor_of_clear hclear] at h7
  cases h7

/-- Settles O33: a stalled decoder waits, and only RESET, which clears the header, does more than feed the ring. -/
theorem stallLastsUntilReset : Obligations.StallLastsUntilReset := by
  unfold Obligations.StallLastsUntilReset
  intro s hinv hst
  exact ⟨(hst.decoderWaits hinv).held, fun i t => hst.exec_keeps hinv, fun b hfull => execRxByte_of_full b hfull.ge,
    _, rfl, not_stalled_of_clear (execReset_decoder rfl).1⟩

end Sys2Proof.Machine

/-! ## The lengths of a frame (41_led_encoder.md R173, R174) -/

namespace Sys2Proof.Machine

theorem ceilResetWords_eq (d : Nat) : ceilResetWords d = (d + 19) / 20 := rfl

/-- R173's "no wrap for any 32-bit delay". -/
theorem Cfg.resetWords_toNat (c : Cfg) : c.resetWords.toNat = ceilResetWords c.resetDelayUs.toNat := by
  have hdelay : c.resetDelayUs.toNat < 2 ^ 32 := c.resetDelayUs.isLt
  rw [Cfg.resetWords, BitVec.toNat_ofNat, Nat.mod_eq_of_lt]
  rw [ceilResetWords_eq]
  omega

/-- Settles O48: without a wrap the register's bounds are those of the exact quotient. -/
theorem resetWordsAreTheExactCeiling : Obligations.ResetWordsAreTheExactCeiling := by
  unfold Obligations.ResetWordsAreTheExactCeiling
  refine ⟨fun c => ?_, rfl, rfl⟩
  rw [c.resetWords_toNat, ceilResetWords_eq]
  omega

theorem Cfg.fbLen_eq (c : Cfg) :
    c.fbLen = 1 + c.chanMap.length * c.numPixels.toNat + c.resetWords.toNat := rfl

theorem Cfg.fbBytes_eq (c : Cfg) : c.fbBytes = c.fbLen * 4 := rfl

theorem Cfg.dataWords_eq (c : Cfg) : c.dataWords = c.chanMap.length * c.numPixels.toNat := rfl

/-- The leading reset word alone makes a frame non-empty. -/
theorem Cfg.fbLen_pos (c : Cfg) : 1 ≤ c.fbLen := by
  rw [c.fbLen_eq, Nat.add_assoc]
  exact Nat.le_add_right 1 _

/-- Settles O49: the frame's length in words, which its bytes are four times. -/
theorem frameLengthIsExact : Obligations.FrameLengthIsExact := by
  unfold Obligations.FrameLengthIsExact
  exact fun c => ⟨c.fbLen_eq, c.fbLen_eq ▸ c.fbBytes_eq, c.dataWords_eq, c.fbLen_pos⟩

end Sys2Proof.Machine

/-! ## A failed bring-up (41_led_encoder.md R178) -/

namespace Sys2Proof.Machine

/-- Settles O41: such an operation stops at its readiness check, whose fault is settled into the record. -/
theorem encoderNotReadyFaults : Obligations.EncoderNotReadyFaults := by
  unfold Obligations.EncoderNotReadyFaults
  intro s i hready hi
  have hfault : exec i s = .fault .encNotReady := by
    obtain ⟨b, rfl⟩ | rfl | rfl | ⟨n, rfl⟩ := hi
    all_goals exact whenReady_of_not_ready hready
  exact ⟨hfault, _, (congrArg (settle s) hfault).trans (settle_fault s _), s.recordFault_frame _⟩

end Sys2Proof.Machine

/-! ## The words of an assembly (41_led_encoder.md R167 to R172) -/

namespace Sys2Proof.Machine

/-- The completion test of R172 at the position the assembly stands at: the frame is done, or the position moves on by
one. -/
theorem wordDone_at_position (s : State) :
    (wordDone s.encPos.toNat s).answer .done =
      if s.encPos.toNat + 1 = s.cfg.fbLen then
        { s with
          encBusy := false, encPos := 0#32, encStatus := 1#2
          events := s.events ++ [.encDone s.cfg.fbLen], result := .done }
      else { s with encPos := s.encPos + 1#32, result := .done } := by
  have hnext : BitVec.ofNat 32 (s.encPos.toNat + 1) = s.encPos + 1#32 := by
    rw [BitVec.ofNat_add, BitVec.ofNat_toNat, BitVec.setWidth_eq]
  obtain ⟨hlast, hdone⟩ | ⟨hmore, hdone⟩ := wordDone_cases s.encPos.toNat s
  · rw [hdone]
    exact (if_pos hlast).symm
  · rw [hdone, State.setEncPos, hnext]
    exact (if_neg hmore).symm

/-- A word written at the position of the assembly: what the frame buffer holds then, and the whole next state. -/
theorem writeWord_at_position {s : State} (w : Word) (hpos : s.encPos.toNat < s.cfg.fbLen) :
    ∃ t, writeWord s.encPos.toNat w s = .next t ∧
      memRead t.fb s.encPos.toNat = some w ∧
      (∀ j, j ≠ s.encPos.toNat → memRead t.fb j = memRead s.fb j) ∧
      t = if s.encPos.toNat + 1 = s.cfg.fbLen then
          { s with
            fb := t.fb, encBusy := false, encPos := 0#32, encStatus := 1#2
            events := s.events ++ [.encDone s.cfg.fbLen], result := .done }
        else { s with fb := t.fb, encPos := s.encPos + 1#32, result := .done } := by
  have hfb : ((wordDone s.encPos.toNat { s with fb := memWrite s.fb s.encPos.toNat w }).answer .done).fb =
      memWrite s.fb s.encPos.toNat w := wordDone_fb _ _
  refine ⟨_, writeWord_next_iff.mpr ⟨hpos, rfl⟩, ?_, fun j hj => ?_, ?_⟩
  · rw [hfb, memRead_memWrite_same]
  · rw [hfb, memRead_memWrite_ne _ _ hj]
  · rw [hfb]
    exact wordDone_at_position { s with fb := memWrite s.fb s.encPos.toNat w }

/-- R167, R171: outside the data words an `ENC_STEP` writes the reset word. -/
theorem execEncStep_of_reset_position {s : State} (hready : s.encReady = true) (hbusy : s.encBusy = true)
    (hreset : s.encPos = 0#32 ∨ s.cfg.dataWords < s.encPos.toNat) :
    exec .encStep s = writeWord s.encPos.toNat (resetWord s.cfg.polarity) s := by
  rw [exec, execEncStep, whenReady_of_ready hready, if_pos hbusy]
  obtain hlead | htrail := hreset
  · have h0 : s.encPos.toNat = 0 := congrArg BitVec.toNat hlead
    rw [if_pos h0, h0]
  · have h0 : s.encPos.toNat ≠ 0 := Nat.ne_zero_of_lt htrail
    rw [if_neg h0, if_neg (Nat.not_le.mpr htrail)]

/-- Settles O42: the reset word at the assembly's position, by what any word written there does. -/
theorem encStepWritesResetWords : Obligations.EncStepWritesResetWords := by
  unfold Obligations.EncStepWritesResetWords
  intro s hready hbusy hpos hreset
  rw [execEncStep_of_reset_position hready hbusy hreset]
  exact writeWord_at_position (resetWord s.cfg.polarity) hpos

end Sys2Proof.Machine

/-! ## The configuration (10_state.md R39; 70_reset_and_hazards.md R230, R248)

The parameters and the registers loaded from them are followed as one value. Every operation but RESET keeps it; RESET
loads the registers from the parameters, which it keeps. -/

namespace Sys2Proof.Machine

/-- What a block is configured with: its parameters and the registers. -/
def State.config (s : State) : Params × Cfg := (s.params, s.cfg)

theorem State.config_eq_iff {s : State} {p : Params} {c : Cfg} : s.config = (p, c) ↔ s.params = p ∧ s.cfg = c :=
  Prod.mk_inj

/-! The effects with a choice in them. -/

theorem headerByte_config (i : Nat) (b : Byte) (s : State) : (headerByte i b s).config = s.config := by
  obtain ⟨_, _, h⟩ | ⟨_, _, h⟩ | ⟨_, h⟩ | ⟨_, h⟩ | ⟨_, h⟩ := headerByte_cases i b s
  all_goals
    rw [h]
    rfl

theorem elementDone_config (k : Nat) (s : State) : (elementDone k s).config = s.config := by
  obtain ⟨_, h⟩ | ⟨_, h⟩ := elementDone_cases k s
  all_goals
    rw [h]
    rfl

theorem wordDone_config (p : Nat) (s : State) : (wordDone p s).config = s.config := by
  obtain ⟨_, h⟩ | ⟨_, h⟩ := wordDone_cases p s
  all_goals
    rw [h]
    rfl

theorem bringUp_config (s : State) : (bringUp s).config = s.config := by
  obtain ⟨_, h⟩ | ⟨_, _, _, h⟩ := bringUp_cases s
  all_goals
    rw [h]
    rfl

/-! The operations of the SFD. -/

theorem execRxByte_config {b : Byte} {s t : State} (h : execRxByte b s = .next t) : t.config = s.config := by
  obtain ⟨_, hexec⟩ | ⟨_, hexec⟩ := execRxByte_cases b s
  all_goals
    obtain rfl := Host.Outcome.next.inj (hexec.symm.trans h)
    rfl

theorem payloadElement_config {k : Nat} {s t : State} (h : payloadElement k s = .next t) : t.config = s.config := by
  obtain ⟨_, _, rfl⟩ | ⟨_, _, _, _, _, rfl⟩ | ⟨_, _, _, _, _, rfl⟩ | ⟨_, _, rfl⟩ := payloadElement_next h
  · rfl
  all_goals exact elementDone_config k _

theorem execDecStep_config {s t : State} (h : execDecStep s = .next t) : t.config = s.config := by
  obtain ⟨_, _, rfl⟩ | ⟨_, _, _, _, rfl⟩ | ⟨_, _, rfl⟩ | ⟨_, _, _, rfl⟩ | ⟨_, _, _, h⟩ | ⟨_, h⟩ := execDecStep_next h
  · rfl
  · exact headerByte_config _ _ _
  · rfl
  · rfl
  · exact payloadElement_config h
  · exact payloadElement_config h

theorem execPktRead_config {n : Index} {s t : State} (h : execPktRead n s = .next t) : t.config = s.config := by
  unfold execPktRead at h
  split at h
  · exact absurd h raiseFault_ne_next
  · rw [retByte_next_iff.mp h]
    rfl

theorem execSigTake_config {s t : State} (h : execSigTake s = .next t) : t.config = s.config := by
  unfold execSigTake at h
  split at h
  · rw [done_next_iff.mp h]
    rfl
  · rw [hold_next_iff.mp h]
    rfl

/-- A wire class pops a byte and has its effect, or holds. -/
theorem runWire_config {i : Instr} {eff : State → State} {s t : State} (h : runWire i eff s = .next t)
    (heff : ∀ u, (eff u).config = u.config) : t.config = s.config := by
  obtain ⟨_, _, _, _, rfl⟩ | ⟨_, rfl⟩ := runWire_next h
  · exact heff _
  · rfl

/-! The operations of the BSE. -/

theorem execPixWrite_config {n : Index} {v : Byte} {s t : State} (h : execPixWrite n v s = .next t) :
    t.config = s.config := by
  unfold execPixWrite at h
  split at h
  · exact absurd h raiseFault_ne_next
  · rw [done_next_iff.mp h]
    rfl

theorem execEncByte_config {b : Byte} {s t : State} (h : execEncByte b s = .next t) : t.config = s.config := by
  obtain ⟨_, h⟩ := whenReady_next_iff.mp h
  rw [retWord_next_iff.mp h]
  rfl

theorem execEncStart_config {s t : State} (h : execEncStart s = .next t) : t.config = s.config := by
  obtain ⟨_, h⟩ := whenReady_next_iff.mp h
  split at h
  · rw [hold_next_iff.mp h]
    rfl
  · rw [done_next_iff.mp h]
    rfl

theorem writeWord_config {p : Nat} {w : Word} {s t : State} (h : writeWord p w s = .next t) :
    t.config = s.config := by
  obtain ⟨_, rfl⟩ := writeWord_next_iff.mp h
  exact wordDone_config p _

theorem dataWord_config {p : Nat} {s t : State} (h : dataWord p s = .next t) : t.config = s.config := by
  obtain ⟨_, _, _, h⟩ | ⟨_, rfl⟩ := dataWord_next h
  · exact writeWord_config h
  · rfl

theorem execEncStep_config {s t : State} (h : execEncStep s = .next t) : t.config = s.config := by
  obtain ⟨_, ⟨_, rfl⟩ | ⟨_, _, h⟩ | ⟨_, _, _, h⟩ | ⟨_, _, h⟩⟩ := execEncStep_next h
  · rfl
  · exact writeWord_config h
  · exact dataWord_config h
  · exact writeWord_config h

theorem execFbRead_config {n : Index} {s t : State} (h : execFbRead n s = .next t) : t.config = s.config := by
  obtain ⟨_, h⟩ := whenReady_next_iff.mp h
  split at h
  · exact absurd h raiseFault_ne_next
  · rw [retWord_next_iff.mp h]
    rfl

/-! Every operation, and every step. -/

/-- RESET loads the registers from the parameters. -/
theorem execReset_config {s t : State} (h : execReset s = .next t) : t.config = (s.params, loadCfg s.params) := by
  rw [done_next_iff.mp h]
  exact bringUp_config (resetState s)

/-- No operation but RESET writes a parameter or a register. -/
theorem exec_config {i : Instr} {s t : State} (hreset : i ≠ .reset) (h : exec i s = .next t) :
    t.config = s.config := by
  cases i with
  | reset => exact absurd rfl hreset
  | rxByte => exact execRxByte_config h
  | decStep => exact execDecStep_config h
  | pktRead => exact execPktRead_config h
  | sigTake => exact execSigTake_config h
  | pixWrite => exact execPixWrite_config h
  | encByte => exact execEncByte_config h
  | encStart => exact execEncStart_config h
  | encStep => exact execEncStep_config h
  | fbRead => exact execFbRead_config h
  | reservedOp0 | reservedOpA | reservedOpB | reservedOpC | reservedOpD | reservedOpE =>
    exact absurd h raiseFault_ne_next
  | wPayCopy | wPayDrop => exact runWire_config h fun _ => elementDone_config _ _
  | _ => exact runWire_config h fun _ => rfl

/-- All a step can do to the configuration: nothing, or load the registers from the parameters. -/
theorem step_config {s t : State} (h : step s = .next t) :
    t.config = s.config ∨ t.config = (s.params, loadCfg s.params) := by
  obtain ⟨_, rfl⟩ | ⟨_, _, _, _, ⟨i, _, hexec⟩ | ⟨_, rfl⟩⟩ := step_next h
  · exact .inl rfl
  · by_cases hreset : i = .reset
    · subst hreset
      have hload := execReset_config hexec
      exact .inr hload
    · have hsame := exec_config hreset hexec
      exact .inl hsame
  · exact .inl rfl

/-- Settles O13: a step keeps the configuration, or loads registers that were loaded from the same parameters. -/
theorem configurationNeverChanges : Obligations.ConfigurationNeverChanges := by
  unfold Obligations.ConfigurationNeverChanges
  refine ⟨fun s t h => ?_, fun i s t hreset h => (State.config_eq_iff.mp (exec_config hreset h)).2⟩
  obtain hsame | hload := step_config h
  · obtain ⟨hparams, hcfg⟩ := State.config_eq_iff.mp hsame
    exact ⟨hparams, fun _ => hcfg⟩
  · obtain ⟨hparams, hcfg⟩ := State.config_eq_iff.mp hload
    exact ⟨hparams, fun hloaded => hcfg.trans hloaded.symm⟩

end Sys2Proof.Machine

/-! ## Decoding reads back what is encoded (30_encoding.md R75, R85 to R89) -/

namespace Sys2Proof.Machine

open Sys2Proof.Laws

/-! A command word from its fields (R85). -/

@[simp] theorem opField_append (op : BitVec 4) (idx : Index) (dat : Byte) : opField (op ++ idx ++ dat) = op :=
  op_of_append op idx dat

@[simp] theorem idxField_append (op : BitVec 4) (idx : Index) (dat : Byte) : idxField (op ++ idx ++ dat) = idx :=
  idx_of_append op idx dat

@[simp] theorem datField_append (op : BitVec 4) (idx : Index) (dat : Byte) : datField (op ++ idx ++ dat) = dat :=
  dat_of_append op idx dat

@[simp] theorem opField_append_rest (op : BitVec 4) (rest : BitVec 28) : opField (op ++ rest : Word) = op :=
  op_of_reserved op rest

@[simp] theorem restField_append_rest (op : BitVec 4) (rest : BitVec 28) : restField (op ++ rest : Word) = rest :=
  rest_of_reserved op rest

/-- A word is the operation code and the bits below it. -/
theorem word_eq_op_rest (w : Word) : w = (opField w ++ restField w : Word) := by
  apply BitVec.eq_of_getLsbD_eq
  intro i hi
  rw [BitVec.getLsbD_append, opField, restField, BitVec.getLsbD_extractLsb', BitVec.getLsbD_extractLsb']
  by_cases h : i < 28
  · simp [h]
  · simp [h, show i - 28 < 4 by omega, show 28 + (i - 28) = i by omega]

theorem mbz_eq_ok_iff {isZero : Bool} {i j : Instr} : mbz isZero i = .ok j ↔ isZero = true ∧ i = j := by
  cases isZero <;> simp [mbz]

/-! The words of the two shapes: three fields, or a reserved operation code and the bits below it. -/

theorem cmd32_eq_iff {op : BitVec 4} {idx : Index} {dat : Byte} {w : Word} :
    cmd32 op idx dat = .cmd w ↔ opField w = op ∧ idxField w = idx ∧ datField w = dat := by
  constructor
  · intro h
    obtain rfl := Encoded.cmd.inj h
    exact ⟨opField_append .., idxField_append .., datField_append ..⟩
  · rintro ⟨rfl, rfl, rfl⟩
    exact congrArg Encoded.cmd (word_eq_fields w).symm

theorem reserved_eq_iff {op : BitVec 4} {rest : BitVec 28} {w : Word} :
    Encoded.cmd (op ++ rest) = .cmd w ↔ opField w = op ∧ restField w = rest := by
  constructor
  · intro h
    obtain rfl := Encoded.cmd.inj h
    exact ⟨opField_append_rest .., restField_append_rest ..⟩
  · rintro ⟨rfl, rfl⟩
    exact congrArg Encoded.cmd (word_eq_op_rest w).symm

/-- A command word is read back, whatever the operation and its operands. -/
theorem decodeWord_of_encode {i : Instr} {w : Word} (h : encode i = .cmd w) : decodeWord w = .ok i := by
  cases i
  case rxByte | decStep | pktRead | sigTake | pixWrite | encByte | encStart | encStep | fbRead | reset =>
    obtain ⟨hop, hidx, hdat⟩ := cmd32_eq_iff.mp h
    rw [decodeWord, hop, hidx, hdat]
    rfl
  case reservedOp0 | reservedOpA | reservedOpB | reservedOpC | reservedOpD | reservedOpE =>
    obtain ⟨hop, hrest⟩ := reserved_eq_iff.mp h
    rw [decodeWord, hop, hrest]
    rfl
  all_goals cases h

/-- A word that decodes is the encoding of its instruction. -/
theorem encode_of_decodeWord {i : Instr} {w : Word} (h : decodeWord w = .ok i) : encode i = .cmd w := by
  unfold decodeWord at h
  split at h
  case h_1 hop | h_11 hop | h_12 hop | h_13 hop | h_14 hop | h_15 hop =>
    obtain rfl := Except.ok.inj h
    exact reserved_eq_iff.mpr ⟨BitVec.eq_of_toNat_eq hop, rfl⟩
  case h_2 hop | h_7 hop =>
    obtain ⟨hidx, rfl⟩ := mbz_eq_ok_iff.mp h
    exact cmd32_eq_iff.mpr ⟨BitVec.eq_of_toNat_eq hop, eq_of_beq hidx, rfl⟩
  case h_4 hop | h_10 hop =>
    obtain ⟨hdat, rfl⟩ := mbz_eq_ok_iff.mp h
    exact cmd32_eq_iff.mpr ⟨BitVec.eq_of_toNat_eq hop, rfl, eq_of_beq hdat⟩
  case h_3 hop | h_5 hop | h_8 hop | h_9 hop | h_16 hop =>
    obtain ⟨hzero, rfl⟩ := mbz_eq_ok_iff.mp h
    obtain ⟨hidx, hdat⟩ := Bool.and_eq_true_iff.mp hzero
    exact cmd32_eq_iff.mpr ⟨BitVec.eq_of_toNat_eq hop, eq_of_beq hidx, eq_of_beq hdat⟩
  case h_6 hop =>
    obtain rfl := Except.ok.inj h
    exact cmd32_eq_iff.mpr ⟨BitVec.eq_of_toNat_eq hop, rfl, rfl⟩
  case h_17 => cases h

theorem decodeWord_eq_ok_iff {i : Instr} {w : Word} : decodeWord w = .ok i ↔ encode i = .cmd w :=
  ⟨encode_of_decodeWord, decodeWord_of_encode⟩

/-! A wire byte at a cursor where R75 allows its class. -/

theorem decodeWire_of_allowed {i : Instr} {b : Byte} {c : WireContext} (hwf : i.wellFormed = true)
    (hc : i.allowedAt c = true) (h : encode i = .wire b) : decodeWire c.cursor c.len c.pktMax b = some i := by
  cases i <;> cases h <;> simp only [Instr.wellFormed, Instr.allowedAt, Bool.and_eq_true, decide_eq_true_eq, beq_iff_eq,
    bne_iff_ne, ne_eq] at hwf hc
  case wMagicU | wMagicA | wMagicR | wMagicT =>
    rw [hwf, hc]
    rfl
  case wMagicMiss =>
    obtain ⟨hmagic, hmiss⟩ := hc
    exact decodeWire_of_miss hmagic hmiss
  case wLenLo | wLenHi | wCrc =>
    rw [hc]
    rfl
  case wPayCopy =>
    obtain ⟨⟨hpay, hlen⟩, hmax⟩ := hc
    rw [decodeWire_of_payload b hpay, if_pos hlen, if_pos hmax]
  case wPayDrop =>
    obtain ⟨⟨hpay, hlen⟩, hmax⟩ := hc
    rw [decodeWire_of_payload b hpay, if_pos hlen, if_neg (Nat.not_lt.mpr hmax)]

/-- Settles O2: a command word by its fields, a wire byte by its cursor. -/
theorem decodeReadsBackEveryEncoding : Obligations.DecodeReadsBackEveryEncoding := by
  unfold Obligations.DecodeReadsBackEveryEncoding
  intro i c hwf hc
  cases henc : encode i with
  | cmd w => rw [decodeAt, decodeWord_of_encode henc]
  | wire b => exact decodeWire_of_allowed hwf hc henc

/-! The rows of R87: what a word is under each mask. -/

/-- A word has the operation code `op` and zeros in the fields that a mask of whole fields selects. -/
theorem row_byte_iff (w : Word) (op : BitVec 4) :
    w &&& 0xFFFFFF00 = op ++ 0#20 ++ 0#8 ↔ cmd32 op 0#20 (datField w) = .cmd w := by
  have hmask : (0xFFFFFF00 : Word) = BitVec.allOnes 4 ++ BitVec.allOnes 20 ++ 0#8 := by decide
  rw [hmask, row_match_iff, cmd32_eq_iff]
  simp only [BitVec.and_allOnes, BitVec.and_zero, and_true]

theorem row_none_iff (w : Word) (op : BitVec 4) :
    w &&& 0xFFFFFFFF = op ++ 0#20 ++ 0#8 ↔ cmd32 op 0#20 0#8 = .cmd w := by
  have hmask : (0xFFFFFFFF : Word) = BitVec.allOnes 4 ++ BitVec.allOnes 20 ++ BitVec.allOnes 8 := by decide
  rw [hmask, row_match_iff, cmd32_eq_iff]
  simp only [BitVec.and_allOnes]

theorem row_index_iff (w : Word) (op : BitVec 4) :
    w &&& 0xF00000FF = op ++ 0#20 ++ 0#8 ↔ cmd32 op (idxField w) 0#8 = .cmd w := by
  have hmask : (0xF00000FF : Word) = BitVec.allOnes 4 ++ 0#20 ++ BitVec.allOnes 8 := by decide
  rw [hmask, row_match_iff, cmd32_eq_iff]
  simp only [BitVec.and_allOnes, BitVec.and_zero, true_and]

theorem row_both_iff (w : Word) (op : BitVec 4) :
    w &&& 0xF0000000 = op ++ 0#20 ++ 0#8 ↔ cmd32 op (idxField w) (datField w) = .cmd w := by
  have hmask : (0xF0000000 : Word) = BitVec.allOnes 4 ++ 0#20 ++ 0#8 := by decide
  rw [hmask, row_match_iff, cmd32_eq_iff]
  simp only [BitVec.and_allOnes, BitVec.and_zero, and_true]

/-- Settles O3: a word has its row's match exactly when it is the encoding with its own operand fields. -/
theorem matchAndMaskSelectTheOperation : Obligations.MatchAndMaskSelectTheOperation := by
  unfold Obligations.MatchAndMaskSelectTheOperation
  intro w
  simp only [decodeWord_eq_ok_iff]
  exact ⟨row_byte_iff w 0x1#4, row_none_iff w 0x2#4, row_index_iff w 0x3#4, row_none_iff w 0x4#4,
    row_both_iff w 0x5#4, row_byte_iff w 0x6#4, row_none_iff w 0x7#4, row_none_iff w 0x8#4, row_index_iff w 0x9#4,
    row_none_iff w 0xF#4⟩

/-- Settles O1: each word and wire byte is one evaluation of its decoder. -/
theorem writtenWordsDecode : Obligations.WrittenWordsDecode := by
  unfold Obligations.WrittenWordsDecode
  decide

end Sys2Proof.Machine

/-! ## Operation lines (30_encoding.md R92) -/

namespace Sys2Proof.Machine

/-- The command of a line that names an operation. -/
theorem assemble_of_word {l : Line} {i : Instr} {w : Word} (hline : lineInstr l.mnemonic l.operands = some i)
    (henc : encode i = .cmd w) :
    assemble l = some { agent := l.agent.getD ((issuer (opField w)).getD .platform), word := w } := by
  simp only [assemble, hline, commandOf, henc]

theorem assemble_of_no_operation {l : Line} (hline : lineInstr l.mnemonic l.operands = none) : assemble l = none := by
  simp only [assemble, hline]

/-- The operation has a row in R86's map, issued by `a`. -/
def IssuedBy (a : Agent) (i : Instr) : Prop := ∃ op idx dat, encode i = cmd32 op idx dat ∧ issuer op = some a

theorem IssuedBy.encode_eq {a : Agent} {i : Instr} (h : IssuedBy a i) :
    ∃ w, encode i = .cmd w ∧ issuer (opField w) = some a := by
  obtain ⟨op, idx, dat, henc, hop⟩ := h
  exact ⟨op ++ idx ++ dat, henc, by rw [opField_append, hop]⟩

/-- A line with an operation of `a` assembles to its word, issued by the agent the line names or else by `a`. -/
theorem assemble_of_issuedBy {l : Line} {i : Instr} {a : Agent} (hline : lineInstr l.mnemonic l.operands = some i)
    (hi : IssuedBy a i) :
    ∃ c, assemble l = some c ∧ c.agent = l.agent.getD a ∧ decodeWord c.word = .ok i := by
  obtain ⟨w, henc, hop⟩ := hi.encode_eq
  exact ⟨_, assemble_of_word hline henc, by rw [hop, Option.getD_some], decodeWord_of_encode henc⟩

/-- Every line that names an operation names one of R86's map. -/
theorem issuedBy_of_lineInstr {m : Mnemonic} {ops : List Literal} {i : Instr} (h : lineInstr m ops = some i) :
    ∃ a, IssuedBy a i := by
  unfold lineInstr at h
  split at h
  case h_1 | h_2 | h_3 | h_4 =>
    obtain ⟨_, _, rfl⟩ := Option.map_eq_some_iff.mp h
    exact ⟨_, _, _, _, rfl, rfl⟩
  case h_5 =>
    split at h
    · obtain rfl := Option.some.inj h
      exact ⟨_, _, _, _, rfl, rfl⟩
    · cases h
  case h_6 | h_7 | h_8 | h_9 | h_10 =>
    obtain rfl := Option.some.inj h
    exact ⟨_, _, _, _, rfl, rfl⟩
  case h_11 => cases h

/-- All a line can assemble to. -/
theorem assemble_eq_some {l : Line} {c : Command} (h : assemble l = some c) :
    ∃ i, decodeWord c.word = .ok i ∧ (∀ a, l.agent = some a → c.agent = a) ∧
      (l.agent = none → issuer (opField c.word) = some c.agent) := by
  cases hline : lineInstr l.mnemonic l.operands with
  | none => cases (assemble_of_no_operation hline).symm.trans h
  | some i =>
    obtain ⟨a, hi⟩ := issuedBy_of_lineInstr hline
    obtain ⟨w, henc, hop⟩ := hi.encode_eq
    obtain rfl := Option.some.inj ((assemble_of_word hline henc).symm.trans h)
    refine ⟨i, decodeWord_of_encode henc, fun b hb => ?_, fun hnone => ?_⟩
    · rw [hb, Option.getD_some]
    · rw [hnone, hop]
      rfl

/-! The operands. -/

theorem lineInstr_byte {x : Literal} {v : Byte} (h : byteOf x = some v) :
    lineInstr .rxByte [x] = some (.rxByte v) ∧ lineInstr .encByte [x] = some (.encByte v) := by
  simp only [lineInstr, h, Option.map_some, and_self]

theorem lineInstr_index {x : Literal} {n : Index} (h : indexOf x = some n) :
    lineInstr .pktRead [x] = some (.pktRead n) ∧ lineInstr .fbRead [x] = some (.fbRead n) := by
  simp only [lineInstr, h, Option.map_some, and_self]

theorem lineInstr_pixWrite {x y : Literal} {n : Index} {v : Byte} (hx : indexOf x = some n) (hy : byteOf y = some v) :
    lineInstr .pixWrite [x, y] = some (.pixWrite n v) := by
  simp only [lineInstr, hx, hy]

theorem lineInstr_byte_none {x : Literal} (h : byteOf x = none) :
    lineInstr .rxByte [x] = none ∧ lineInstr .encByte [x] = none := by
  simp only [lineInstr, h, Option.map_none, and_self]

theorem lineInstr_index_none {x : Literal} (h : indexOf x = none) :
    lineInstr .pktRead [x] = none ∧ lineInstr .fbRead [x] = none := by
  simp only [lineInstr, h, Option.map_none, and_self]

theorem lineInstr_pixWrite_none {x y : Literal} (h : indexOf x = none ∨ byteOf y = none) :
    lineInstr .pixWrite [x, y] = none := by
  obtain hx | hy := h
  · simp only [lineInstr, hx]
  · cases hx : indexOf x <;> simp only [lineInstr, hx, hy]

/-- Settles O6: which operation a line names, by its operands, and then the word of that operation. -/
theorem assembledLinesDecode : Obligations.AssembledLinesDecode := by
  unfold Obligations.AssembledLinesDecode
  refine ⟨fun n c => ⟨rfl, rfl, fun hc => asciiCode_eq_some_iff.mpr ⟨hc, rfl⟩, asciiCode_eq_none_iff.mpr⟩,
    fun g x m hx hm => ?byte, fun g x m hx hm => ?index, fun g x y m n hx hy hm hn => ?pixWrite,
    fun g => ⟨rfl, rfl, rfl, rfl, rfl⟩, fun g x y => ⟨fun hx => ?byteTooLarge, fun hx => ?indexTooLarge,
      fun hxy => ?pixelTooLarge⟩, fun l c => assemble_eq_some⟩
  case byte =>
    obtain ⟨hrx, henc⟩ := lineInstr_byte (Literal.field_of_value hx hm)
    exact ⟨assemble_of_issuedBy hrx ⟨_, _, _, rfl, rfl⟩, assemble_of_issuedBy henc ⟨_, _, _, rfl, rfl⟩⟩
  case index =>
    obtain ⟨hpkt, hfb⟩ := lineInstr_index (Literal.field_of_value hx hm)
    exact ⟨assemble_of_issuedBy hpkt ⟨_, _, _, rfl, rfl⟩, assemble_of_issuedBy hfb ⟨_, _, _, rfl, rfl⟩⟩
  case pixWrite =>
    have hline := lineInstr_pixWrite (Literal.field_of_value hx hm) (Literal.field_of_value hy hn)
    exact assemble_of_issuedBy hline ⟨_, _, _, rfl, rfl⟩
  case byteTooLarge =>
    obtain ⟨hrx, henc⟩ := lineInstr_byte_none (Literal.field_eq_none hx)
    exact ⟨assemble_of_no_operation hrx, assemble_of_no_operation henc⟩
  case indexTooLarge =>
    obtain ⟨hpkt, hfb⟩ := lineInstr_index_none (Literal.field_eq_none hx)
    exact ⟨assemble_of_no_operation hpkt, assemble_of_no_operation hfb⟩
  case pixelTooLarge =>
    exact assemble_of_no_operation
      (lineInstr_pixWrite_none (hxy.imp (Literal.field_eq_none ·) (Literal.field_eq_none ·)))

end Sys2Proof.Machine

/-! ## All an operation without an engine can do (40_frame_decoder.md R129, R130; 41_led_encoder.md R151 to R175) -/

namespace Sys2Proof.Machine

theorem execPktRead_next {n : Index} {s t : State} (h : exec (.pktRead n) s = .next t) :
    ∃ b, t = s.answer (.byte b) := by
  change execPktRead n s = .next t at h
  unfold execPktRead at h
  split at h
  · exact absurd h raiseFault_ne_next
  · exact ⟨_, retByte_next_iff.mp h⟩

theorem execSigTake_next {s t : State} (h : exec .sigTake s = .next t) :
    t = s.takeNewData.answer .done ∨ t = s.answer .held := by
  change execSigTake s = .next t at h
  unfold execSigTake at h
  split at h
  · exact .inl (done_next_iff.mp h)
  · exact .inr (hold_next_iff.mp h)

theorem execPixWrite_next {n : Index} {v : Byte} {s t : State} (h : exec (.pixWrite n v) s = .next t) :
    n.toNat < s.cfg.pixLen ∧ t = State.answer { s with pix := memWrite s.pix n.toNat v } .done := by
  change execPixWrite n v s = .next t at h
  unfold execPixWrite at h
  split at h
  · exact absurd h raiseFault_ne_next
  · rename_i pix hpix
    obtain ⟨hn, rfl⟩ := elementWrite_ok_iff.mp hpix
    exact ⟨hn, done_next_iff.mp h⟩

theorem execEncByte_next {b : Byte} {s t : State} (h : exec (.encByte b) s = .next t) :
    t = s.answer (.word (encodeByte s.cfg.polarity b)) := by
  obtain ⟨_, h⟩ := whenReady_next_iff.mp h
  exact retWord_next_iff.mp h

theorem execEncStart_next {s t : State} (h : exec .encStart s = .next t) :
    t = s.answer .held ∨ s.encReady = true ∧ t = s.encBegin.answer .done := by
  obtain ⟨hready, h⟩ := whenReady_next_iff.mp h
  split at h
  · exact .inl (hold_next_iff.mp h)
  · exact .inr ⟨hready, done_next_iff.mp h⟩

theorem execFbRead_next {n : Index} {s t : State} (h : exec (.fbRead n) s = .next t) : ∃ w, t = s.answer (.word w) := by
  obtain ⟨_, h⟩ := whenReady_next_iff.mp h
  split at h
  · exact absurd h raiseFault_ne_next
  · exact ⟨_, retWord_next_iff.mp h⟩

end Sys2Proof.Machine

/-! ## Wire classes as instructions (30_encoding.md R75; log entry 5) -/

namespace Sys2Proof.Machine

theorem exec_wire_of_not_read {i : Instr} {b : Byte} {s : State} (henc : encode i = .wire b)
    (hread : nextWire s ≠ some i) : exec i s = hold s := by
  cases i
  case wMagicU | wMagicA | wMagicR | wMagicT | wMagicMiss | wLenLo | wLenHi | wCrc | wPayCopy | wPayDrop =>
    exact if_neg hread
  all_goals cases henc

/-- All a wire class can do: what `DEC_STEP` does, or nothing. -/
theorem exec_wire_next {i : Instr} {b : Byte} {s t : State} (h : exec i s = .next t) (henc : encode i = .wire b) :
    exec .decStep s = .next t ∨ t = s.answer .held := by
  by_cases hread : nextWire s = some i
  · exact .inl ((execDecStep_of_read hread).trans h)
  · exact .inr (hold_next_iff.mp ((exec_wire_of_not_read henc hread).symm.trans h))

/-- Settles O25: class by class, the effect of `DEC_STEP` on the byte is the effect of its class. -/
theorem decStepRunsTheWireClass : Obligations.DecStepRunsTheWireClass := by
  unfold Obligations.DecStepRunsTheWireClass
  exact fun s i hread => execDecStep_of_read hread

/-- Settles O26: each wire class asks for being read before its effect. -/
theorem wireClassHeldWhereNotRead : Obligations.WireClassHeldWhereNotRead := by
  unfold Obligations.WireClassHeldWhereNotRead
  rintro s i ⟨b, rfl | rfl | rfl | rfl | rfl | rfl | rfl | rfl | rfl | rfl⟩ hread
  all_goals exact exec_wire_of_not_read rfl hread

end Sys2Proof.Machine

/-! ## The invariants of the frame decoder (40_frame_decoder.md R132; 10_state.md R21 to R29)

What R132 says of the header registers is a matter of the header alone; every byte and every element keeps it. -/

namespace Sys2Proof.Machine

/-- What the invariants say of the Frame Header. -/
structure HeaderInv (h : Header) : Prop where
  len_zero : h.idx.toNat ≤ 4 → h.len = 0#16
  len_hi_zero : h.idx.toNat ≤ 5 → h.len.extractLsb' 8 8 = 0#8
  crc_zero : h.idx.toNat ≤ 6 → h.crc = 0#8
  magic_matched : ∀ i < 4, h.magicAt i = if i < h.idx.toNat then magic i else 0#8

theorem SfdInv.header {s : State} (hinv : SfdInv s) : HeaderInv s.hdr where
  len_zero := hinv.len_zero
  len_hi_zero := hinv.len_hi_zero
  crc_zero := hinv.crc_zero
  magic_matched := hinv.magic_matched

theorem SfdInv.of_header {s : State} (hring : s.ring.length ≤ s.ringCap) (hcursor : s.cursor ≤ 6 + payloadTotal s)
    (hheld : 8 ≤ s.cursor → s.hdr.len.toNat - (s.cursor - 7) ≤ s.ring.length) (hheader : HeaderInv s.hdr)
    (hpkt : memWf s.cfg.pktMax.toNat s.pkt) : SfdInv s where
  ring_le := hring
  cursor_le := hcursor
  payload_held := hheld
  len_zero := hheader.len_zero
  len_hi_zero := hheader.len_hi_zero
  crc_zero := hheader.crc_zero
  magic_matched := hheader.magic_matched
  pkt_wf := hpkt

/-! The header registers, byte by byte. -/

theorem Header.magicAt_setMagic {i j : Nat} (h : Header) (b : Byte) (hi : i < 4) (hj : j < 4) :
    (h.setMagic i b).magicAt j = if j = i then b else h.magicAt j := by
  interval_cases i <;> interval_cases j <;> rfl

theorem Header.setMagic_len (h : Header) (i : Nat) (b : Byte) : (h.setMagic i b).len = h.len := by
  unfold Header.setMagic
  split <;> rfl

theorem Header.setMagic_crc (h : Header) (i : Nat) (b : Byte) : (h.setMagic i b).crc = h.crc := by
  unfold Header.setMagic
  split <;> rfl

theorem HeaderInv.zero : HeaderInv Header.zero where
  len_zero _ := rfl
  len_hi_zero _ := rfl
  crc_zero _ := rfl
  magic_matched := by decide

theorem HeaderInv.after_magic {h : Header} {i : Nat} (hinv : HeaderInv h) (hidx : h.idx.toNat = i) (hi : i ≤ 3) :
    HeaderInv { h.setMagic i (magic i) with idx := BitVec.ofNat 32 (i + 1) } := by
  have hnext : (BitVec.ofNat 32 (i + 1)).toNat = i + 1 := (BitVec.toNat_ofNat ..).trans (Nat.mod_eq_of_lt (by omega))
  constructor <;> simp only [hnext]
  case len_zero => exact fun _ => (h.setMagic_len i _).trans (hinv.len_zero (by omega))
  case len_hi_zero => exact fun _ => (congrArg _ (h.setMagic_len i _)).trans (hinv.len_hi_zero (by omega))
  case crc_zero => exact fun _ => (h.setMagic_crc i _).trans (hinv.crc_zero (by omega))
  case magic_matched =>
    intro j hj
    have hold := hinv.magic_matched j hj
    rw [hidx] at hold
    refine (h.magicAt_setMagic _ (by omega) hj).trans ?_
    by_cases hji : j = i
    · rw [if_pos hji, if_pos (by omega), hji]
    · rw [if_neg hji, hold]
      exact if_congr (by omega) rfl rfl

/-- A register that is not read as yet is written, and the cursor moves on within the header. -/
theorem HeaderInv.after_magics {h h' : Header} (hinv : HeaderInv h) (hpast : 4 ≤ h.idx.toNat)
    (hpast' : 4 < h'.idx.toNat) (hmagic : ∀ i < 4, h'.magicAt i = h.magicAt i) (hhi : h'.idx.toNat ≤ 5 → h'.len.extractLsb' 8 8 = 0#8)
    (hcrc : h'.idx.toNat ≤ 6 → h'.crc = 0#8) : HeaderInv h' where
  len_zero hle := absurd hle (Nat.not_le.mpr hpast')
  len_hi_zero := hhi
  crc_zero := hcrc
  magic_matched i hi := by
    rw [hmagic i hi, hinv.magic_matched i hi, if_pos (hi.trans_le hpast), if_pos (hi.trans hpast')]

/-- Every header byte keeps the header's invariants. -/
theorem HeaderInv.after_headerByte {s : State} (hinv : HeaderInv s.hdr) (b : Byte) (hc : s.cursor ≤ 6) :
    HeaderInv (headerByte s.cursor b s).hdr := by
  obtain ⟨h3, rfl, h⟩ | ⟨_, _, h⟩ | ⟨h4, h⟩ | ⟨h5, h⟩ | ⟨h6, h⟩ := headerByte_cases s.cursor b s <;> rw [h]
  · exact hinv.after_magic rfl h3
  · exact .zero
  · refine hinv.after_magics h4.ge (by decide : 4 < 5) (fun _ _ => rfl) (fun _ => ?_) fun _ => hinv.crc_zero hc
    rw [← hinv.len_hi_zero (by rw [← State.cursor]; omega)]
    exact BitVec.extractLsb'_append_eq_left
  · exact hinv.after_magics (by rw [← State.cursor]; omega) (by decide : 4 < 6) (fun _ _ => rfl)
      (fun hle => absurd hle (by decide : ¬ 6 ≤ 5)) fun _ => hinv.crc_zero hc
  · exact hinv.after_magics (by rw [← State.cursor]; omega) (by decide : 4 < 7) (fun _ _ => rfl)
      (fun hle => absurd hle (by decide : ¬ 7 ≤ 5)) fun hle => absurd hle (by decide : ¬ 7 ≤ 6)

/-! The cursor. -/

theorem State.setCursor_cursor {n : Nat} (s : State) (hn : n < 2 ^ 32) : (s.setCursor n).cursor = n :=
  (BitVec.toNat_ofNat ..).trans (Nat.mod_eq_of_lt hn)

/-- R27: a header byte returns the cursor to 0 or advances it by one. -/
theorem headerByte_cursor {c : Nat} (b : Byte) (s : State) (hc : c ≤ 6) :
    (headerByte c b s).cursor = 0 ∨ (headerByte c b s).cursor = c + 1 := by
  obtain ⟨_, _, h⟩ | ⟨_, _, h⟩ | ⟨h4, h⟩ | ⟨h5, h⟩ | ⟨h6, h⟩ := headerByte_cases c b s <;> rw [h]
  · exact .inr (State.setCursor_cursor _ (by omega))
  · exact .inl rfl
  · exact .inr (h4 ▸ rfl)
  · exact .inr (h5 ▸ rfl)
  · exact .inr (hc.antisymm h6 ▸ rfl)

/-! The invariants on the whole, operation by operation. -/

theorem SfdInv.of_sfd_eq {s t : State} (hinv : SfdInv s) (h : t.sfd = s.sfd) : SfdInv t := hinv.of_kept (.of_sfd_eq h)

theorem SfdInv.of_clear {s : State} (hclear : s.hdr = Header.zero) (hring : s.ring.length ≤ s.ringCap)
    (hpkt : memWf s.cfg.pktMax.toNat s.pkt) : SfdInv s := by
  have h0 : s.cursor = 0 := State.cursor_of_clear hclear
  exact .of_header hring (by omega) (fun h8 => by omega) (hclear ▸ .zero) hpkt

theorem headerByte_ringCap (i : Nat) (b : Byte) (s : State) : (headerByte i b s).ringCap = s.ringCap :=
  congrArg (fun config => config.1.ringCap) (headerByte_config i b s)

/-- R107 to R115. At cursor 7 the payload, or the Packet Buffer, has an element to come. -/
theorem SfdInv.after_headerByte {s : State} {b : Byte} {rest : List Byte} (hinv : SfdInv s) (hc : s.cursor ≤ 6)
    (hr : s.ring = b :: rest) (hmax : 1 ≤ s.cfg.pktMax.toNat) :
    SfdInv (headerByte s.cursor b { s with ring := rest }) := by
  have hcursor : (headerByte s.cursor b { s with ring := rest }).cursor ≤ 7 := by
    have := headerByte_cursor b { s with ring := rest } hc
    omega
  have hheader := HeaderInv.after_headerByte (s := { s with ring := rest }) hinv.header b hc
  refine .of_header ?_ ?_ (fun h8 => by omega) hheader ?_
  · rw [headerByte_ring, headerByte_ringCap]
    exact (Nat.le_of_succ_le (by rw [hr]; rfl)).trans hinv.ring_le
  · have : 1 ≤ payloadTotal (headerByte s.cursor b { s with ring := rest }) := by
      rw [payloadTotal, headerByte_cfg]
      exact hmax.trans (Nat.le_max_right ..)
    omega
  · rw [headerByte_pkt, headerByte_cfg]
    exact hinv.pkt_wf

/-- R122: after element `k` of a payload, of which the rest is in the ring. -/
theorem SfdInv.after_element {k : Nat} {s : State} (hheader : HeaderInv s.hdr) (hc : s.cursor = 7 + k)
    (hk : k < payloadTotal s) (hmax : s.cfg.pktMax.toNat ≤ 2 ^ 20) (hring : s.ring.length ≤ s.ringCap)
    (hheld : s.hdr.len.toNat - (k + 1) ≤ s.ring.length) (hpkt : memWf s.cfg.pktMax.toNat s.pkt) :
    SfdInv (elementDone k s) := by
  obtain ⟨_, h⟩ | ⟨hmore, h⟩ := elementDone_cases k s <;> rw [h]
  · exact .of_clear rfl hring hpkt
  · have hlen : s.hdr.len.toNat < 2 ^ 16 := s.hdr.len.isLt
    have htotal : payloadTotal s ≤ 2 ^ 20 := max_le (by omega) hmax
    have hnext : (s.setCursor (7 + k + 1)).cursor = 7 + k + 1 := s.setCursor_cursor (by omega)
    have hpast : 4 < (s.setCursor (7 + k + 1)).hdr.idx.toNat := by rw [← State.cursor]; omega
    refine .of_header hring ?_ (fun _ => ?_) ?_ hpkt
    · change _ ≤ 6 + payloadTotal s
      omega
    · rw [hnext, show 7 + k + 1 - 7 = k + 1 by omega]
      exact hheld
    · refine hheader.after_magics (by rw [← State.cursor]; omega) hpast (fun _ _ => rfl) ?_ ?_
      all_goals
        rw [← State.cursor]
        omega

/-- R117 to R122, where the bytes still owed to the payload are in the ring. -/
theorem SfdInv.after_payloadElement {k : Nat} {s t : State} (hinv : SfdInv s) (hc : s.cursor = 7 + k)
    (hmax : s.cfg.pktMax.toNat ≤ 2 ^ 20) (hheld : s.hdr.len.toNat - k ≤ s.ring.length)
    (h : payloadElement k s = .next t) : SfdInv t := by
  have hring := hinv.ring_le
  obtain ⟨_, _, rfl⟩ | ⟨b, rest, hk, hr, hkmax, rfl⟩ | ⟨b, rest, hk, hr, _, rfl⟩ | ⟨hlen, hkmax, rfl⟩ :=
    payloadElement_next h
  · exact hinv.of_sfd_eq rfl
  · rw [hr, List.length_cons] at hheld hring
    exact SfdInv.of_sfd_eq (.after_element (s := { s with ring := rest, pkt := memWrite s.pkt k b }) hinv.header hc
      (hk.trans_le (Nat.le_max_left ..)) hmax (Nat.le_of_succ_le hring) (by change _ ≤ rest.length; dsimp only; omega)
      (memWf_memWrite b hkmax hinv.pkt_wf)) rfl
  · rw [hr, List.length_cons] at hheld hring
    exact SfdInv.of_sfd_eq (.after_element (s := { s with ring := rest }) hinv.header hc
      (hk.trans_le (Nat.le_max_left ..)) hmax (Nat.le_of_succ_le hring) (by change _ ≤ rest.length; dsimp only; omega)
      hinv.pkt_wf) rfl
  · exact SfdInv.of_sfd_eq (.after_element (s := { s with pkt := memWrite s.pkt k 0#8 }) hinv.header hc
      (hkmax.trans_le (Nat.le_max_right ..)) hmax hring (by dsimp only; omega)
      (memWf_memWrite 0#8 hkmax hinv.pkt_wf)) rfl

/-- `DEC_STEP` keeps the invariants (R132). -/
theorem SfdInv.after_decStep {s t : State} (hinv : SfdInv s) (hpos : 1 ≤ s.cfg.pktMax.toNat)
    (hmax : s.cfg.pktMax.toNat ≤ 2 ^ 20) (h : exec .decStep s = .next t) : SfdInv t := by
  obtain ⟨_, _, rfl⟩ | ⟨b, rest, hc, hr, rfl⟩ | ⟨_, _, rfl⟩ | ⟨_, _, _, rfl⟩ | ⟨h7, hlen, _, h⟩ | ⟨h8, h⟩ :=
    execDecStep_next h
  · exact hinv.of_sfd_eq rfl
  · exact (hinv.after_headerByte hc hr hpos).of_sfd_eq rfl
  · exact hinv.of_sfd_eq rfl
  · exact .of_clear rfl hinv.ring_le hinv.pkt_wf
  · exact hinv.after_payloadElement h7 hmax (by omega) h
  · exact hinv.after_payloadElement (by omega) hmax (hinv.payload_held h8) h

/-- Every operation but RESET keeps the invariants of the decoder. -/
theorem SfdInv.after_exec {i : Instr} {s t : State} (hinv : SfdInv s) (hpos : 1 ≤ s.cfg.pktMax.toNat)
    (hmax : s.cfg.pktMax.toNat ≤ 2 ^ 20) (hreset : i ≠ .reset) (h : exec i s = .next t) : SfdInv t := by
  cases i with
  | reset => exact absurd rfl hreset
  | rxByte => exact hinv.after_rxByte h
  | decStep => exact hinv.after_decStep hpos hmax h
  | pktRead => exact hinv.of_kept (sfdKept_of_pktRead h)
  | sigTake => exact hinv.of_kept (sfdKept_of_sigTake h)
  | pixWrite | encByte | encStart | encStep | fbRead =>
    exact hinv.of_sfd_eq ((exec_localTo_bse rfl).other_eq bse_putsUnit h)
  | reservedOp0 | reservedOpA | reservedOpB | reservedOpC | reservedOpD | reservedOpE =>
    exact absurd h raiseFault_ne_next
  | _ =>
    obtain hstep | rfl := exec_wire_next h rfl
    · exact hinv.after_decStep hpos hmax hstep
    · exact hinv.of_sfd_eq rfl

end Sys2Proof.Machine

/-! ## The invariants of the LED encoder (10_state.md R32 to R37) -/

namespace Sys2Proof.Machine

/-- A view of the encoder decides its invariants. -/
theorem BseInv.of_bse_eq {s t : State} (hinv : BseInv s) (h : t.bse = s.bse) : BseInv t := by
  obtain ⟨hpixels, hmap, hpol, hdelay, hpix, hfb, hbusy, hpos, hstatus, hready⟩ := BseView.mk.inj h
  have hfbLen : t.cfg.fbLen = s.cfg.fbLen := by
    rw [Cfg.fbLen_eq, Cfg.fbLen_eq, Cfg.resetWords, Cfg.resetWords, hpixels, hmap, hdelay]
  have hpixLen : t.cfg.pixLen = s.cfg.pixLen := by rw [Cfg.pixLen, Cfg.pixLen, hpixels]
  obtain ⟨hlt, hzero, hne, hiff, hbr, hpixWf, hfbWf⟩ := hinv
  constructor <;> simp only [hfbLen, hpixLen, hmap, hpix, hfb, hbusy, hpos, hstatus, hready] <;> assumption

theorem BseInv.after_begin {s : State} (hinv : BseInv s) (hready : s.encReady = true) : BseInv s.encBegin where
  pos_lt _ := s.cfg.fbLen_pos
  pos_zero h := by cases h
  status_ne := (by decide : statusNone ≠ 3#2)
  ready_iff := hinv.ready_iff
  busy_ready _ := hready
  pix_wf := hinv.pix_wf
  fb_wf := hinv.fb_wf

theorem BseInv.after_end {s : State} {status : BitVec 2} (hinv : BseInv s) (hstatus : status ≠ 3#2) :
    BseInv (s.encEnd status) where
  pos_lt h := by cases h
  pos_zero _ := rfl
  status_ne := hstatus
  ready_iff := hinv.ready_iff
  busy_ready h := by cases h
  pix_wf := hinv.pix_wf
  fb_wf := hinv.fb_wf

theorem BseInv.after_setEncPos {n : Nat} {s : State} (hinv : BseInv s) (hbusy : s.encBusy = true)
    (hn : n < s.cfg.fbLen) : BseInv (s.setEncPos n) where
  pos_lt _ := ((BitVec.toNat_ofNat ..).trans_le (Nat.mod_le ..)).trans_lt hn
  pos_zero h := absurd hbusy (ne_true_of_eq_false h)
  status_ne := hinv.status_ne
  ready_iff := hinv.ready_iff
  busy_ready := hinv.busy_ready
  pix_wf := hinv.pix_wf
  fb_wf := hinv.fb_wf

/-- R172: a word written ends the assembly, or the next position is inside the frame. -/
theorem BseInv.after_writeWord {p : Nat} {w : Word} {s t : State} (hinv : BseInv s) (hbusy : s.encBusy = true)
    (h : writeWord p w s = .next t) : BseInv t := by
  obtain ⟨hp, rfl⟩ := writeWord_next_iff.mp h
  have hwritten : BseInv { s with fb := memWrite s.fb p w } := { hinv with fb_wf := memWf_memWrite w hp hinv.fb_wf }
  obtain ⟨_, hdone⟩ | ⟨hmore, hdone⟩ := wordDone_cases p { s with fb := memWrite s.fb p w } <;> rw [hdone]
  · exact (hwritten.after_end (by decide : statusDone ≠ 3#2)).of_bse_eq rfl
  · exact (hwritten.after_setEncPos hbusy (Nat.lt_of_le_of_ne hp hmore)).of_bse_eq rfl

theorem BseInv.after_encStep {s t : State} (hinv : BseInv s) (h : execEncStep s = .next t) : BseInv t := by
  obtain ⟨_, ⟨_, rfl⟩ | ⟨hbusy, _, h⟩ | ⟨hbusy, _, _, h⟩ | ⟨hbusy, _, h⟩⟩ := execEncStep_next h
  · exact hinv.of_bse_eq rfl
  · exact hinv.after_writeWord hbusy h
  · obtain ⟨_, _, _, h⟩ | ⟨_, rfl⟩ := dataWord_next h
    · exact hinv.after_writeWord hbusy h
    · exact (hinv.after_end (status := statusCfgAbort) (by decide)).of_bse_eq rfl
  · exact hinv.after_writeWord hbusy h

end Sys2Proof.Machine

/-! ## The invariants of the block (10_state.md; 40_frame_decoder.md R132; 70_reset_and_hazards.md R230) -/

namespace Sys2Proof.Machine

/-- What issuing a command, a recorded fault and every operation keep, a step keeps. -/
theorem step_keeps {P : State → Prop} (hissue : ∀ s rest, P s → P { s with pending := rest })
    (hfault : ∀ s r, P s → P (s.recordFault r)) (hexec : ∀ i s t, P s → exec i s = .next t → P t) {s t : State}
    (hs : P s) (h : step s = .next t) : P t := by
  obtain ⟨_, rfl⟩ | ⟨c, rest, _, _, ⟨i, _, hi⟩ | ⟨r, rfl⟩⟩ := step_next h
  · exact hs
  · exact hexec i _ t (hissue s rest hs) hi
  · exact hfault _ r (hissue s rest hs)

/-- Every operation but RESET leaves `started`. -/
theorem exec_started {i : Instr} {s t : State} (hreset : i ≠ .reset) (h : exec i s = .next t) :
    t.started = s.started := by
  cases i with
  | reset => exact absurd rfl hreset
  | pixWrite | encByte | encStart | encStep | fbRead =>
    exact (congrArg State.started ((exec_localTo_bse rfl).next_eq bse_putsUnit h)).trans rfl
  | reservedOp0 | reservedOpA | reservedOpB | reservedOpC | reservedOpD | reservedOpE =>
    exact absurd h raiseFault_ne_next
  | _ => exact (congrArg State.started ((exec_localTo_sfd rfl).next_eq sfd_putsUnit h)).trans rfl

/-- Every operation but RESET keeps the invariants of the encoder. -/
theorem BseInv.after_exec {i : Instr} {s t : State} (hinv : BseInv s) (hreset : i ≠ .reset) (h : exec i s = .next t) :
    BseInv t := by
  cases i with
  | reset => exact absurd rfl hreset
  | pixWrite n v =>
    obtain ⟨hn, rfl⟩ := execPixWrite_next h
    have hwritten : BseInv { s with pix := memWrite s.pix n.toNat v } :=
      { hinv with pix_wf := memWf_memWrite v hn hinv.pix_wf }
    exact hwritten.of_bse_eq rfl
  | encByte =>
    obtain rfl := execEncByte_next h
    exact hinv.of_bse_eq rfl
  | encStart =>
    obtain rfl | ⟨hready, rfl⟩ := execEncStart_next h
    · exact hinv.of_bse_eq rfl
    · exact (hinv.after_begin hready).of_bse_eq rfl
  | encStep => exact hinv.after_encStep h
  | fbRead =>
    obtain ⟨_, rfl⟩ := execFbRead_next h
    exact hinv.of_bse_eq rfl
  | reservedOp0 | reservedOpA | reservedOpB | reservedOpC | reservedOpD | reservedOpE =>
    exact absurd h raiseFault_ne_next
  | _ => exact hinv.of_bse_eq ((exec_localTo_sfd rfl).other_eq sfd_putsUnit h)

/-- Where the registers hold an admitted block's parameters, `PKT_MAX` is what R8 admits. -/
theorem pktMax_of_admitted {s : State} (hadmitted : s.params.admissible = true) (hloaded : s.cfg = loadCfg s.params) :
    1 ≤ s.cfg.pktMax.toNat ∧ s.cfg.pktMax.toNat ≤ 2 ^ 20 := by
  have hbounds : 1 ≤ s.params.pktMax ∧ s.params.pktMax ≤ 2 ^ 20 := by
    simp only [Params.admissible, Bool.and_eq_true, decide_eq_true_eq] at hadmitted
    tauto
  have hreg : s.cfg.pktMax.toNat = s.params.pktMax := by
    rw [hloaded]
    exact (BitVec.toNat_ofNat ..).trans (Nat.mod_eq_of_lt (by omega))
  rwa [hreg]

/-! What RESET leaves. -/

theorem sfdInv_resetState (s : State) : SfdInv (resetState s) := .of_clear rfl (Nat.zero_le _) (memWf_nil _)

/-- The bring-up check sets `enc_ready` to what the channel map asks for (R232). -/
theorem bseInv_bringUp_resetState (s : State) : BseInv (bringUp (resetState s)) := by
  have hidle : ∀ ready, ready = (resetState s).cfg.chanMap.all recognised →
      BseInv { resetState s with encReady := ready } := fun ready hready =>
    { pos_lt := fun h => by cases h
      pos_zero := fun _ => rfl
      status_ne := (by decide : statusNone ≠ 3#2)
      ready_iff := hready
      busy_ready := fun h => by cases h
      pix_wf := memWf_nil _
      fb_wf := memWf_nil _ }
  obtain ⟨hall, h⟩ | ⟨hbad, _, _, h⟩ := bringUp_cases (resetState s) <;> rw [h]
  · exact hidle true hall.symm
  · exact (hidle false hbad.symm).of_bse_eq rfl

theorem bringUp_sfd (s : State) : (bringUp s).sfd = s.sfd := by
  obtain ⟨_, h⟩ | ⟨_, _, _, h⟩ := bringUp_cases s
  all_goals
    rw [h]
    rfl

theorem bringUp_started (s : State) : (bringUp s).started = s.started := by
  obtain ⟨_, h⟩ | ⟨_, _, _, h⟩ := bringUp_cases s
  all_goals rw [h]

/-- RESET brings an admitted block into the invariants, whatever its state was. -/
theorem inv_of_reset {s t : State} (hadmitted : s.params.admissible = true) (h : exec .reset s = .next t) : Inv t := by
  obtain ⟨hparams, hcfg⟩ := State.config_eq_iff.mp (execReset_config h)
  obtain rfl := done_next_iff.mp h
  exact
    { started := bringUp_started (resetState s)
      admitted := hparams ▸ hadmitted
      cfg_loaded := hcfg.trans (congrArg loadCfg hparams.symm)
      sfd := (sfdInv_resetState s).of_sfd_eq (bringUp_sfd (resetState s))
      bse := (bseInv_bringUp_resetState s).of_bse_eq rfl }

theorem Inv.after_exec {i : Instr} {s t : State} (hinv : Inv s) (h : exec i s = .next t) : Inv t := by
  by_cases hreset : i = .reset
  · subst hreset
    exact inv_of_reset hinv.admitted h
  · obtain ⟨hparams, hcfg⟩ := State.config_eq_iff.mp (exec_config hreset h)
    obtain ⟨hpos, hmax⟩ := pktMax_of_admitted hinv.admitted hinv.cfg_loaded
    exact
      { started := (exec_started hreset h).trans hinv.started
        admitted := hparams ▸ hinv.admitted
        cfg_loaded := hcfg.trans (hinv.cfg_loaded.trans (congrArg loadCfg hparams.symm))
        sfd := hinv.sfd.after_exec hpos hmax hreset h
        bse := hinv.bse.after_exec hreset h }

/-- The invariants are about the two units, the parameters and `started`. -/
theorem Inv.of_units_eq {s t : State} (hinv : Inv s) (hstarted : t.started = s.started) (hconfig : t.config = s.config)
    (hsfd : t.sfd = s.sfd) (hbse : t.bse = s.bse) : Inv t := by
  obtain ⟨hparams, hcfg⟩ := State.config_eq_iff.mp hconfig
  exact
    { started := hstarted.trans hinv.started
      admitted := hparams ▸ hinv.admitted
      cfg_loaded := hcfg.trans (hinv.cfg_loaded.trans (congrArg loadCfg hparams.symm))
      sfd := hinv.sfd.of_sfd_eq hsfd
      bse := hinv.bse.of_bse_eq hbse }

/-- Every step keeps the invariants. -/
theorem Inv.after_step {s t : State} (hinv : Inv s) (h : step s = .next t) : Inv t :=
  step_keeps (P := Inv) (fun _ _ hs => hs.of_units_eq rfl rfl rfl rfl) (fun _ _ hs => hs.of_units_eq rfl rfl rfl rfl)
    (fun _ _ _ hs hi => hs.after_exec hi) hinv h

/-- Settles O58: unit by unit, operation by operation; RESET establishes the invariants. -/
theorem invariantsKeptByEveryStep : Obligations.InvariantsKeptByEveryStep := by
  unfold Obligations.InvariantsKeptByEveryStep
  exact fun s t hinv h => hinv.after_step h

/-- Settles O55: the state after RESET is evaluated. -/
theorem resetStateIsWhatResetLeaves : Obligations.ResetStateIsWhatResetLeaves := by
  unfold Obligations.ResetStateIsWhatResetLeaves
  rfl

/-- Settles O57: the reset state is, but for the answer, what RESET leaves of an admitted block. -/
theorem invariantsHoldAtReset : Obligations.InvariantsHoldAtReset := by
  unfold Obligations.InvariantsHoldAtReset
  have hreset := inv_of_reset (s := State.powerOn Config.reference) (by decide) resetStateIsWhatResetLeaves
  exact hreset.of_units_eq rfl rfl rfl rfl

/-- The encoder's bring-up result is a matter of the channel map, so a step cannot change it. -/
theorem Inv.step_encReady {s t : State} (hinv : Inv s) (h : step s = .next t) : t.encReady = s.encReady := by
  obtain ⟨_, hcfg⟩ := configurationNeverChanges.1 s t h
  rw [(hinv.after_step h).bse.ready_iff, hcfg hinv.cfg_loaded, hinv.bse.ready_iff]

/-- Settles O56: no step changes `enc_ready`. -/
theorem failedBringUpIsForever : Obligations.FailedBringUpIsForever := by
  unfold Obligations.FailedBringUpIsForever
  exact fun s t hinv hfailed h => (hinv.step_encReady h).trans hfailed

end Sys2Proof.Machine

/-! ## A step and its command (20_memory.md R60; 00_scope.md R11; 30_encoding.md R86) -/

namespace Sys2Proof.Machine

/-- The command at the head of the schedule is admitted and stands for `i`. -/
structure Admits (s : State) (c : Command) (rest : List Command) (i : Instr) : Prop where
  issued : s.pending = c :: rest
  not_refused : refuses s c = none
  decodes : decodeWord c.word = .ok i

theorem admits_of_issuer {s : State} {c : Command} {rest : List Command} {i : Instr} (hp : s.pending = c :: rest)
    (ha : s.params.admissible = true) (hs : s.started = true ∨ i = .reset) (hw : decodeWord c.word = .ok i)
    (hi : issuer (opField c.word) = some c.agent ∨ issuer (opField c.word) = none) : Admits s c rest i where
  issued := hp
  not_refused := refuses_eq_none_iff.mpr ⟨ha, hs.imp_right fun hreset => hw.trans (congrArg _ hreset), hi.symm⟩
  decodes := hw

/-- The step of an admitted command is its operation's answer, settled. -/
theorem Admits.step_eq {s : State} {c : Command} {rest : List Command} {i : Instr} (h : Admits s c rest i) :
    step s = settle { s with pending := rest } (exec i { s with pending := rest }) := by
  simp only [step_of_admitted h.issued h.not_refused, runWord, h.decodes]

/-- Settles O7: an admitted command's step is its operation's answer, settled. -/
theorem stepRunsTheIssuedOperation : Obligations.StepRunsTheIssuedOperation := by
  unfold Obligations.StepRunsTheIssuedOperation
  intro s c rest i hp ha hs hw hi
  have hstep := (admits_of_issuer hp ha hs hw hi).step_eq
  refine ⟨fun t h => ?_, fun r h => ?_, fun r h => ?_⟩ <;> rw [hstep, h] <;> rfl

/-- Settles O8: what a fault leaves is the fault record's state. -/
theorem faultedStepOnlyRecords : Obligations.FaultedStepOnlyRecords := by
  unfold Obligations.FaultedStepOnlyRecords
  intro s c rest i r hp ha hs hw hi hfault
  have hstep := (admits_of_issuer hp ha (.inl hs) hw hi).step_eq
  rw [hfault, settle_fault] at hstep
  refine ⟨_, hstep, rfl, rfl, fun q => ?_, rfl⟩
  rw [State.recordFault_faults, FaultRecord.has_add, Bool.or_eq_true, beq_iff_eq]

/-! What is refused. -/

theorem step_of_refused {s : State} {c : Command} {rest : List Command} {r : Refusal} (hp : s.pending = c :: rest)
    (hr : refuses s c = some r) : step s = .refused r := by
  simp only [step, fetch_cons hp, hr]

theorem refuses_of_not_admissible {s : State} (c : Command) (ha : s.params.admissible = false) :
    refuses s c = some .blockNotAdmitted := if_pos ha

theorem refuses_of_not_started {s : State} {c : Command} (ha : s.params.admissible = true) (hs : s.started = false)
    (hw : decodeWord c.word ≠ .ok .reset) : refuses s c = some .beforeReset := by
  rw [refuses, if_neg (ne_false_of_eq_true ha), if_pos ⟨hs, hw⟩]

theorem refuses_of_other_agent {s : State} {c : Command} {a : Agent} (ha : s.params.admissible = true)
    (hs : s.started = true ∨ decodeWord c.word = .ok .reset) (hi : issuer (opField c.word) = some a)
    (hother : a ≠ c.agent) : refuses s c = some .wrongAgent := by
  have hrun : ¬ (s.started = false ∧ decodeWord c.word ≠ .ok .reset) := fun ⟨hstopped, hne⟩ =>
    hs.elim (ne_true_of_eq_false hstopped) hne
  simp only [refuses, ha, Bool.true_eq_false, if_false, hrun, hi, hother]

/-- Settles O9: the three refusals in their order. -/
theorem stepRefusesWhatIsNotAdmitted : Obligations.StepRefusesWhatIsNotAdmitted := by
  unfold Obligations.StepRefusesWhatIsNotAdmitted
  intro s c rest hp
  exact ⟨fun ha => step_of_refused hp (refuses_of_not_admissible c ha),
    fun ha hs hw => step_of_refused hp (refuses_of_not_started ha hs hw),
    fun a ha hs hi hother => step_of_refused hp (refuses_of_other_agent ha hs hi hother)⟩

end Sys2Proof.Machine

/-! ## The event trace (60_exceptions.md R200) -/

namespace Sys2Proof.Machine

/-- `t` has the trace of `s`, with at most one event more. -/
def OneEventAtMost (s t : State) : Prop := t.events = s.events ∨ ∃ e, t.events = s.events ++ [e]

theorem OneEventAtMost.same {s t : State} (h : t.events = s.events) : OneEventAtMost s t := .inl h

theorem OneEventAtMost.emit {s t : State} (e : Event) (h : t.events = s.events ++ [e]) : OneEventAtMost s t :=
  .inr ⟨e, h⟩

/-! The effects with a choice in them. -/

theorem headerByte_events (i : Nat) (b : Byte) (s : State) : OneEventAtMost s (headerByte i b s) := by
  obtain ⟨_, _, h⟩ | ⟨_, _, h⟩ | ⟨_, h⟩ | ⟨_, h⟩ | ⟨_, h⟩ := headerByte_cases i b s <;> rw [h]
  case inr.inl => exact .emit (.magicMismatch i b) rfl
  all_goals exact .same rfl

theorem elementDone_events (k : Nat) (s : State) : OneEventAtMost s (elementDone k s) := by
  obtain ⟨_, h⟩ | ⟨_, h⟩ := elementDone_cases k s <;> rw [h]
  · exact .emit (.frameCommit s.hdr.len) rfl
  · exact .same rfl

theorem wordDone_events (p : Nat) (s : State) : OneEventAtMost s (wordDone p s) := by
  obtain ⟨_, h⟩ | ⟨_, h⟩ := wordDone_cases p s <;> rw [h]
  · exact .emit (.encDone s.cfg.fbLen) rfl
  · exact .same rfl

theorem bringUp_events (s : State) : OneEventAtMost s (bringUp s) := by
  obtain ⟨_, h⟩ | ⟨_, c, id, h⟩ := bringUp_cases s <;> rw [h]
  · exact .same rfl
  · exact .emit (.cfgErrInit c id) rfl

/-! The operations. -/

theorem execRxByte_events {b : Byte} {s t : State} (h : exec (.rxByte b) s = .next t) : OneEventAtMost s t := by
  obtain ⟨_, hexec⟩ | ⟨_, hexec⟩ := execRxByte_cases b s
  all_goals obtain rfl := Host.Outcome.next.inj (hexec.symm.trans h)
  · exact .same rfl
  · exact .emit (.rxOverrun b) rfl

theorem payloadElement_events {k : Nat} {s t : State} (h : payloadElement k s = .next t) : OneEventAtMost s t := by
  obtain ⟨_, _, rfl⟩ | ⟨_, _, _, _, _, rfl⟩ | ⟨_, _, _, _, _, rfl⟩ | ⟨_, _, rfl⟩ := payloadElement_next h
  · exact .same rfl
  all_goals exact elementDone_events k _

theorem execDecStep_events {s t : State} (h : exec .decStep s = .next t) : OneEventAtMost s t := by
  obtain ⟨_, _, rfl⟩ | ⟨b, _, _, _, rfl⟩ | ⟨_, _, rfl⟩ | ⟨_, _, _, rfl⟩ | ⟨_, _, _, h⟩ | ⟨_, h⟩ := execDecStep_next h
  · exact .same rfl
  · exact headerByte_events s.cursor b _
  · exact .same rfl
  · exact .emit (.crcFail s.hdr.crc s.hdr.len) rfl
  · exact payloadElement_events h
  · exact payloadElement_events h

theorem writeWord_events {p : Nat} {w : Word} {s t : State} (h : writeWord p w s = .next t) : OneEventAtMost s t := by
  obtain ⟨_, rfl⟩ := writeWord_next_iff.mp h
  exact wordDone_events p _

theorem execEncStep_events {s t : State} (h : execEncStep s = .next t) : OneEventAtMost s t := by
  obtain ⟨_, ⟨_, rfl⟩ | ⟨_, _, h⟩ | ⟨_, _, _, h⟩ | ⟨_, _, h⟩⟩ := execEncStep_next h
  · exact .same rfl
  · exact writeWord_events h
  · obtain ⟨_, _, _, h⟩ | ⟨_, rfl⟩ := dataWord_next h
    · exact writeWord_events h
    · exact .emit (.cfgErrEncode _ _) rfl
  · exact writeWord_events h

theorem exec_events {i : Instr} {s t : State} (h : exec i s = .next t) : OneEventAtMost s t := by
  cases i with
  | rxByte => exact execRxByte_events h
  | decStep => exact execDecStep_events h
  | pktRead =>
    obtain ⟨_, rfl⟩ := execPktRead_next h
    exact .same rfl
  | sigTake => obtain rfl | rfl := execSigTake_next h <;> exact .same rfl
  | pixWrite =>
    obtain ⟨_, rfl⟩ := execPixWrite_next h
    exact .same rfl
  | encByte =>
    obtain rfl := execEncByte_next h
    exact .same rfl
  | encStart => obtain rfl | ⟨_, rfl⟩ := execEncStart_next h <;> exact .same rfl
  | encStep => exact execEncStep_events h
  | fbRead =>
    obtain ⟨_, rfl⟩ := execFbRead_next h
    exact .same rfl
  | reset =>
    obtain rfl := done_next_iff.mp h
    exact bringUp_events (resetState s)
  | reservedOp0 | reservedOpA | reservedOpB | reservedOpC | reservedOpD | reservedOpE =>
    exact absurd h raiseFault_ne_next
  | _ =>
    obtain hstep | rfl := exec_wire_next h rfl
    · exact execDecStep_events hstep
    · exact .same rfl

/-- Settles O12: operation by operation; a recorded fault emits nothing. -/
theorem atMostOneEventPerStep : Obligations.AtMostOneEventPerStep := by
  unfold Obligations.AtMostOneEventPerStep
  intro s t h
  obtain ⟨_, rfl⟩ | ⟨_, _, _, _, ⟨i, _, hexec⟩ | ⟨_, rfl⟩⟩ := step_next h
  · exact .inl rfl
  · have hgrown := exec_events hexec
    exact hgrown
  · exact .inl rfl

end Sys2Proof.Machine

/-! ## The sequencers (10_state.md R27) -/

namespace Sys2Proof.Machine

/-- A sequencer stays, advances by one, or returns to 0. -/
def Sequences (before after : Nat) : Prop := after = before ∨ after = before + 1 ∨ after = 0

theorem payloadElement_cursor {k : Nat} {s t : State} (hc : s.cursor = 7 + k) (h : payloadElement k s = .next t) :
    Sequences s.cursor t.cursor := by
  have hwidth : s.cursor < 2 ^ 32 := s.hdr.idx.isLt
  have helement : ∀ u, Sequences s.cursor ((elementDone k u).answer .done).cursor := by
    intro u
    obtain h0 | hnext := elementDone_cursor k u
    · exact .inr (.inr h0)
    · have hcur : ((elementDone k u).answer .done).cursor = (s.cursor + 1) % 2 ^ 32 := by rw [hc]; exact hnext
      unfold Sequences
      omega
  obtain ⟨_, _, rfl⟩ | ⟨_, _, _, _, _, rfl⟩ | ⟨_, _, _, _, _, rfl⟩ | ⟨_, _, rfl⟩ := payloadElement_next h
  · exact .inl rfl
  all_goals exact helement _

theorem execDecStep_cursor {s t : State} (h : exec .decStep s = .next t) : Sequences s.cursor t.cursor := by
  obtain ⟨_, _, rfl⟩ | ⟨b, _, hc, _, rfl⟩ | ⟨_, _, rfl⟩ | ⟨_, _, _, rfl⟩ | ⟨h7, _, _, h⟩ | ⟨h8, h⟩ := execDecStep_next h
  · exact .inl rfl
  · exact .inr (headerByte_cursor b _ hc).symm
  · exact .inl rfl
  · exact .inr (.inr rfl)
  · exact payloadElement_cursor h7 h
  · exact payloadElement_cursor (by omega) h

/-- Only the decoder engine and RESET move the cursor. -/
theorem exec_cursor {i : Instr} {s t : State} (h : exec i s = .next t) : Sequences s.cursor t.cursor := by
  cases i with
  | decStep => exact execDecStep_cursor h
  | reset => exact .inr (.inr (State.cursor_of_clear (execReset_decoder h).1))
  | rxByte => exact .inl (State.cursor_eq_of_hdr (congrArg SfdView.hdr (execRxByte_frame h)))
  | pktRead =>
    obtain ⟨_, rfl⟩ := execPktRead_next h
    exact .inl rfl
  | sigTake => obtain rfl | rfl := execSigTake_next h <;> exact .inl rfl
  | pixWrite | encByte | encStart | encStep | fbRead =>
    have hsfd := (exec_localTo_bse rfl).other_eq bse_putsUnit h
    exact .inl (State.cursor_eq_of_hdr (congrArg SfdView.hdr hsfd))
  | reservedOp0 | reservedOpA | reservedOpB | reservedOpC | reservedOpD | reservedOpE =>
    exact absurd h raiseFault_ne_next
  | _ =>
    obtain hstep | rfl := exec_wire_next h rfl
    · exact execDecStep_cursor hstep
    · exact .inl rfl

/-- The position the assembly stands at is the one the word is written to. -/
theorem writeWord_encPos {w : Word} {s t : State} (h : writeWord s.encPos.toNat w s = .next t) :
    Sequences s.encPos.toNat t.encPos.toNat := by
  have hwidth : s.encPos.toNat < 2 ^ 32 := s.encPos.isLt
  obtain ⟨_, rfl⟩ := writeWord_next_iff.mp h
  obtain ⟨_, hdone⟩ | ⟨_, hdone⟩ := wordDone_cases s.encPos.toNat { s with fb := memWrite s.fb s.encPos.toNat w } <;>
    rw [hdone]
  · exact .inr (.inr rfl)
  · rw [State.answer_encPos, State.setEncPos_encPos, BitVec.toNat_ofNat]
    unfold Sequences
    omega

theorem execEncStep_encPos {s t : State} (h : execEncStep s = .next t) : Sequences s.encPos.toNat t.encPos.toNat := by
  obtain ⟨_, ⟨_, rfl⟩ | ⟨_, h0, h⟩ | ⟨_, _, _, h⟩ | ⟨_, _, h⟩⟩ := execEncStep_next h
  · exact .inl rfl
  · exact writeWord_encPos (h0.symm ▸ h)
  · obtain ⟨_, _, _, h⟩ | ⟨_, rfl⟩ := dataWord_next h
    · exact writeWord_encPos h
    · exact .inr (.inr rfl)
  · exact writeWord_encPos h

/-- Only the encoder engine, ENC_START and RESET move the position. -/
theorem exec_encPos {i : Instr} {s t : State} (h : exec i s = .next t) : Sequences s.encPos.toNat t.encPos.toNat := by
  cases i with
  | encStep => exact execEncStep_encPos h
  | encStart =>
    obtain rfl | ⟨_, rfl⟩ := execEncStart_next h
    · exact .inl rfl
    · exact .inr (.inr rfl)
  | reset =>
    have hidle : t.encPos = 0#32 := by
      obtain rfl := done_next_iff.mp h
      obtain ⟨_, hup⟩ | ⟨_, _, _, hup⟩ := bringUp_cases (resetState s) <;> rw [hup] <;> rfl
    exact .inr (.inr (congrArg BitVec.toNat hidle))
  | pixWrite =>
    obtain ⟨_, rfl⟩ := execPixWrite_next h
    exact .inl rfl
  | encByte =>
    obtain rfl := execEncByte_next h
    exact .inl rfl
  | fbRead =>
    obtain ⟨_, rfl⟩ := execFbRead_next h
    exact .inl rfl
  | reservedOp0 | reservedOpA | reservedOpB | reservedOpC | reservedOpD | reservedOpE =>
    exact absurd h raiseFault_ne_next
  | _ =>
    have hbse := (exec_localTo_sfd rfl).other_eq sfd_putsUnit h
    exact .inl (congrArg (fun view : BseView => view.encPos.toNat) hbse)

/-- Settles O59: each sequencer is moved by its own engine, one at a time. -/
theorem sequencersNeverSkip : Obligations.SequencersNeverSkip := by
  unfold Obligations.SequencersNeverSkip
  intro s t _ h
  obtain ⟨_, rfl⟩ | ⟨_, _, _, _, ⟨i, _, hexec⟩ | ⟨_, rfl⟩⟩ := step_next h
  · exact ⟨.inl rfl, .inl rfl⟩
  · have hcursor := exec_cursor hexec
    have hpos := exec_encPos hexec
    exact ⟨hcursor, hpos⟩
  · exact ⟨.inl rfl, .inl rfl⟩

end Sys2Proof.Machine

/-! ## Who writes the Packet Buffer (20_memory.md R64) -/

namespace Sys2Proof.Machine

/-- `DEC_STEP` writes the Packet Buffer in the payload only, once its check has passed. -/
theorem execDecStep_pkt {s t : State} (h : exec .decStep s = .next t)
    (hearly : s.cursor ≤ 6 ∨ s.cursor = 7 ∧ (s.ring.length < s.hdr.len.toNat ∨ crcAccepts s = false)) :
    t.pkt = s.pkt := by
  obtain ⟨_, _, rfl⟩ | ⟨b, rest, _, _, rfl⟩ | ⟨_, _, rfl⟩ | ⟨_, _, _, rfl⟩ | ⟨h7, hlen, hcrc, _⟩ | ⟨h8, _⟩ :=
    execDecStep_next h
  · rfl
  · exact headerByte_pkt s.cursor b { s with ring := rest }
  · rfl
  · rfl
  · obtain h6 | ⟨_, hshort | hfail⟩ := hearly
    · omega
    · omega
    · exact absurd hcrc (ne_true_of_eq_false hfail)
  · omega

/-- Of the commands only `DEC_STEP` and RESET write the Packet Buffer. -/
theorem exec_command_pkt {i : Instr} {w : Word} {s t : State} (henc : encode i = .cmd w) (hdec : i ≠ .decStep)
    (hreset : i ≠ .reset) (h : exec i s = .next t) : t.pkt = s.pkt := by
  cases i with
  | decStep => exact absurd rfl hdec
  | reset => exact absurd rfl hreset
  | rxByte => exact congrArg SfdView.pkt (execRxByte_frame h)
  | pktRead => exact congrArg SfdView.pkt (sfdKept_of_pktRead h).sfd_eq
  | sigTake => exact congrArg SfdView.pkt (sfdKept_of_sigTake h).sfd_eq
  | pixWrite | encByte | encStart | encStep | fbRead =>
    exact congrArg SfdView.pkt ((exec_localTo_bse rfl).other_eq bse_putsUnit h)
  | reservedOp0 | reservedOpA | reservedOpB | reservedOpC | reservedOpD | reservedOpE =>
    exact absurd h raiseFault_ne_next
  | _ => cases henc

/-- Settles O28: a word that decodes is a command, no wire byte. -/
theorem packetWrittenOnlyDuringCommit : Obligations.PacketWrittenOnlyDuringCommit := by
  unfold Obligations.PacketWrittenOnlyDuringCommit
  exact ⟨fun s t h hearly => execDecStep_pkt h hearly,
    fun w i s t hw hdec hreset h => exec_command_pkt (encode_of_decodeWord hw) hdec hreset h⟩

end Sys2Proof.Machine

/-! ## When `DEC_STEP` is enabled (40_frame_decoder.md R134; 30_encoding.md R93) -/

namespace Sys2Proof.Machine

theorem decEnabled_iff {s : State} :
    decEnabled s = true ↔ (s.cursor ≤ 6 ∧ 1 ≤ s.ring.length) ∨ (s.cursor = 7 ∧ s.hdr.len.toNat ≤ s.ring.length) ∨
      8 ≤ s.cursor := by
  simp only [decEnabled, Bool.or_eq_true, Bool.and_eq_true, decide_eq_true_eq, or_assoc]
  rfl

/-- The operation takes effect and returns nothing. -/
def TakesEffect (a : Answer) : Prop := ∃ t, a = .next t ∧ t.result = .done

theorem takesEffect_done (s : State) : TakesEffect (done s) := ⟨_, rfl, rfl⟩

/-- An element inside the payload or the Packet Buffer takes effect, where the ring holds the bytes owed. -/
theorem payloadElement_takesEffect {k : Nat} {s : State} (hk : k < payloadTotal s)
    (hheld : s.hdr.len.toNat - k ≤ s.ring.length) : TakesEffect (payloadElement k s) := by
  by_cases hlen : k < s.hdr.len.toNat
  · cases hr : s.ring with
    | nil =>
      rw [hr, List.length_nil] at hheld
      omega
    | cons b rest =>
      rw [payloadElement_of_byte hlen hr]
      exact takesEffect_done _
  · have hmax : k < s.cfg.pktMax.toNat := (lt_max_iff.mp hk).resolve_left hlen
    rw [payloadElement, if_neg hlen, zeroElement_of_lt hmax]
    exact takesEffect_done _

/-- R134 under the invariants: enabled, `DEC_STEP` takes effect. -/
theorem SfdInv.decStep_takesEffect {s : State} (hinv : SfdInv s) (henabled : decEnabled s = true) :
    TakesEffect (exec .decStep s) := by
  have hcursor := hinv.cursor_le
  obtain ⟨h6, hring⟩ | ⟨h7, hlen⟩ | h8 := decEnabled_iff.mp henabled
  · obtain ⟨b, rest, hr⟩ := List.exists_cons_of_length_pos hring
    rw [execDecStep_of_header h6 hr]
    exact takesEffect_done _
  · rw [execDecStep_at_check h7, if_neg (Nat.not_lt.mpr hlen)]
    split
    · exact payloadElement_takesEffect (by omega) (by omega)
    · exact takesEffect_done _
  · rw [execDecStep_of_payload (by omega) fun h7 => by omega]
    exact payloadElement_takesEffect (by unfold payloadIndex; omega) (hinv.payload_held h8)

/-- R134 in every state: not enabled, `DEC_STEP` is held. -/
theorem execDecStep_of_not_enabled {s : State} (h : decEnabled s = false) : exec .decStep s = hold s := by
  have hnot := mt decEnabled_iff.mpr (ne_true_of_eq_false h)
  by_cases h6 : s.cursor ≤ 6
  · exact (decoderWaits_of_empty_ring h6 (List.eq_nil_of_length_eq_zero (by omega))).held
  · exact (decoderWaits_of_short_payload (by omega) (by omega)).held

/-! `DEC_DRAIN`. -/

theorem decDrainFor_of_held {fuel : Nat} {s : State} (h : exec .decStep s = hold s) :
    decDrainFor (fuel + 1) s = .next s := by
  simp only [decDrainFor, h, hold, State.answer_result, if_true]

theorem decDrainFor_of_done {fuel : Nat} {s t : State} (h : exec .decStep s = .next t) (hdone : t.result = .done) :
    decDrainFor (fuel + 1) s = decDrainFor fuel t := by
  simp only [decDrainFor, h, hdone, reduceCtorEq, if_false]

/-- `n` steps of the decoder lead to `t`, each of them enabled, and there it is not enabled. -/
def DrainsTo (s : State) (n : Nat) (t : State) : Prop :=
  runInstrs (decRun n) s = .next t ∧ decEnabled t = false ∧
    ∀ m < n, ∃ u, runInstrs (decRun m) s = .next u ∧ decEnabled u = true

theorem drainsTo_zero {s : State} (h : decEnabled s = false) : DrainsTo s 0 s :=
  ⟨rfl, h, fun _ hm => absurd hm (Nat.not_lt_zero _)⟩

theorem drainsTo_succ {s t u : State} {n : Nat} (henabled : decEnabled s = true) (hstep : exec .decStep s = .next u)
    (h : DrainsTo u n t) : DrainsTo s (n + 1) t := by
  obtain ⟨hrun, hend, hbefore⟩ := h
  refine ⟨(runInstrs_decRun_succ hstep).trans hrun, hend, fun m hm => ?_⟩
  cases m with
  | zero => exact ⟨s, rfl, henabled⟩
  | succ m =>
    rw [runInstrs_decRun_succ hstep]
    exact hbefore m (Nat.lt_of_succ_lt_succ hm)

/-- With enough fuel the repetition ends where `DEC_STEP` is not enabled. -/
theorem SfdInv.decDrainFor_drains {fuel : Nat} {s : State} (hinv : SfdInv s) (hpos : 1 ≤ s.cfg.pktMax.toNat)
    (hmax : s.cfg.pktMax.toNat ≤ 2 ^ 20) (hfuel : drainFuel s < fuel) :
    ∃ n t, decDrainFor fuel s = .next t ∧ DrainsTo s n t := by
  induction fuel generalizing s with
  | zero => omega
  | succ fuel ih =>
    cases henabled : decEnabled s with
    | false => exact ⟨0, s, decDrainFor_of_held (execDecStep_of_not_enabled henabled), drainsTo_zero henabled⟩
    | true =>
      obtain ⟨u, hstep, hdone⟩ := hinv.decStep_takesEffect henabled
      have hless : drainFuel u < drainFuel s := drainFuel_decStep hstep (by simp [hdone])
      have hcfg : u.cfg = s.cfg := configurationNeverChanges.2 _ s u (by simp) hstep
      obtain ⟨n, t, hdrain, hto⟩ :=
        ih (hinv.after_decStep hpos hmax hstep) (hcfg ▸ hpos) (hcfg ▸ hmax) (by omega)
      exact ⟨n + 1, t, (decDrainFor_of_done hstep hdone).trans hdrain, drainsTo_succ henabled hstep hto⟩

/-- Settles O24: enabled, `DEC_STEP` takes effect; otherwise it is held, which ends `DEC_DRAIN`. -/
theorem decStepEnabledExactly : Obligations.DecStepEnabledExactly := by
  unfold Obligations.DecStepEnabledExactly
  refine ⟨fun s hinv hpos hmax => ?_, fun s hinv => ?_⟩
  · exact hinv.decDrainFor_drains hpos hmax (Nat.lt_succ_self _)
  · rw [← decEnabled_iff]
    cases henabled : decEnabled s with
    | true =>
      obtain ⟨t, hstep, hdone⟩ := hinv.decStep_takesEffect henabled
      exact ⟨t, hstep, iff_of_true hdone rfl, fun hne => absurd hdone hne⟩
    | false =>
      exact ⟨s.answer .held, execDecStep_of_not_enabled henabled, by simp, fun _ => rfl⟩

end Sys2Proof.Machine

/-! ## Engines outside their range (20_memory.md R52, R56; log entry 6) -/

namespace Sys2Proof.Machine

theorem zeroElement_of_le {k : Nat} {s : State} (hk : s.cfg.pktMax.toNat ≤ k) :
    zeroElement k s = .fault .indexRange := by
  rw [zeroElement, elementWrite_of_le _ _ hk]
  rfl

theorem payloadElement_of_empty_ring {k : Nat} {s : State} (hk : k < s.hdr.len.toNat) (hr : s.ring = []) :
    payloadElement k s = hold s := by
  rw [payloadElement, if_pos hk, ringPop_nil hr]

theorem writeWord_of_le {p : Nat} (w : Word) {s : State} (hp : s.cfg.fbLen ≤ p) :
    writeWord p w s = .fault .indexRange := by
  rw [writeWord, elementWrite_of_le _ _ hp]
  rfl

theorem Cfg.dataWords_lt_fbLen (c : Cfg) : c.dataWords < c.fbLen := by
  rw [c.dataWords_eq, c.fbLen_eq]
  omega

/-- Settles O27: the zero fill and the trailing word are writes outside their space, and the pop is of an empty ring. -/
theorem enginesOutsideTheirRangeStop : Obligations.EnginesOutsideTheirRangeStop := by
  unfold Obligations.EnginesOutsideTheirRangeStop
  refine fun s => ⟨fun hc hpast hmax hcrc => ?_, fun hc hk hr => ?_, fun hready hbusy hpos => ?_⟩
  · rw [execDecStep_of_payload hc (payloadChecked_of_past hpast hcrc), payloadElement, payloadIndex,
      if_neg (Nat.not_lt.mpr hpast), zeroElement_of_le hmax]
  · rw [execDecStep_of_payload (by omega) fun h7 => by omega, payloadIndex, payloadElement_of_empty_ring hk hr]
    rfl
  · rw [execEncStep_of_reset_position hready hbusy (.inr (s.cfg.dataWords_lt_fbLen.trans_le hpos)),
      writeWord_of_le _ hpos]

end Sys2Proof.Machine

/-! ## The operations without an engine (40_frame_decoder.md R104, R129, R130; 41_led_encoder.md R151 to R166, R175) -/

namespace Sys2Proof.Machine

/-- Settles O14: the branch of `RX_BYTE` with room. -/
theorem rxByteAppends : Obligations.RxByteAppends := by
  unfold Obligations.RxByteAppends
  exact fun b s hroom => if_pos hroom

/-- Settles O29: the three outcomes of a checked read. -/
theorem pktReadReturnsTheElement : Obligations.PktReadReturnsTheElement := by
  unfold Obligations.PktReadReturnsTheElement
  refine fun n s => ⟨fun b hn hb => ?_, fun hn hnone => ?_, fun hn => ?_⟩ <;> rw [exec, execPktRead]
  · rw [elementRead_of_written hn hb]
    rfl
  · rw [elementRead_of_unwritten hn hnone]
    rfl
  · rw [elementRead_of_le hn]
    rfl

/-- Settles O47: the three outcomes of a checked read, behind the readiness check. -/
theorem fbReadReturnsTheWord : Obligations.FbReadReturnsTheWord := by
  unfold Obligations.FbReadReturnsTheWord
  intro n s hready
  refine ⟨fun w hn hw => ?_, fun hn hnone => ?_, fun hn => ?_⟩ <;> rw [exec, execFbRead, whenReady_of_ready hready]
  · rw [elementRead_of_written hn hw]
    rfl
  · rw [elementRead_of_unwritten hn hnone]
    rfl
  · rw [elementRead_of_le hn]
    rfl

theorem execSigTake_of_raised {s : State} (h : s.newData = true) :
    exec .sigTake s = .next { s with newData := false, result := .done } := if_pos h

theorem execSigTake_of_clear {s : State} (h : s.newData = false) :
    exec .sigTake s = .next { s with result := .held } := if_neg (ne_true_of_eq_false h)

/-- Settles O30: both branches of `SIG_TAKE`. -/
theorem sigTakeConsumesTheSignal : Obligations.SigTakeConsumesTheSignal := by
  unfold Obligations.SigTakeConsumesTheSignal
  exact fun s => ⟨execSigTake_of_raised, execSigTake_of_clear⟩

/-- Settles O35: a checked write of the Pixel Buffer, and what it reads back. -/
theorem pixWriteWritesOneByte : Obligations.PixWriteWritesOneByte := by
  unfold Obligations.PixWriteWritesOneByte
  refine fun n v s => ⟨fun hn => ⟨{ s with pix := memWrite s.pix n.toNat v, result := .done }, ?_,
    memRead_memWrite_same _ _ _, fun j hj => memRead_memWrite_ne _ _ hj, rfl⟩, fun hn => ?_⟩
  · rw [exec, execPixWrite, elementWrite_of_lt (n := s.cfg.pixLen) _ _ hn]
    rfl
  · rw [exec, execPixWrite, elementWrite_of_le (n := s.cfg.pixLen) _ _ hn]
    rfl

/-- Settles O36: `ENC_BYTE` behind the readiness check. -/
theorem encByteReturnsTheWord : Obligations.EncByteReturnsTheWord := by
  unfold Obligations.EncByteReturnsTheWord
  exact fun b s hready => whenReady_of_ready hready

/-- Settles O40: `ENC_START` and `ENC_STEP` behind the readiness check, by whether an assembly runs. -/
theorem encoderStartsOnlyWhenIdle : Obligations.EncoderStartsOnlyWhenIdle := by
  unfold Obligations.EncoderStartsOnlyWhenIdle
  refine fun s hready => ⟨fun hidle => ?_, fun hbusy => (whenReady_of_ready hready).trans (if_pos hbusy)⟩
  have hnot : ¬ s.encBusy = true := ne_true_of_eq_false hidle
  exact ⟨(whenReady_of_ready hready).trans (if_neg hnot), (whenReady_of_ready hready).trans (if_neg hnot)⟩

end Sys2Proof.Machine

/-! ## The encode function, undone and complemented (41_led_encoder.md R162, R163) -/

namespace Sys2Proof.Machine

/-- The half-word exchange, bit by bit. -/
theorem swapHalves_getLsbD {i : Nat} (w : Word) (hi : i < 32) :
    (swapHalves w).getLsbD i = w.getLsbD ((i + 16) % 32) := by
  rw [swapHalves, BitVec.getLsbD_append, BitVec.getLsbD_extractLsb', BitVec.getLsbD_extractLsb']
  by_cases hlow : i < 16
  · simp [hlow, show (i + 16) % 32 = 16 + i by omega]
  · simp [hlow, show i - 16 < 16 by omega, show (i + 16) % 32 = i - 16 by omega]

/-- The half-word exchange undoes itself. -/
theorem swapHalves_swapHalves (w : Word) : swapHalves (swapHalves w) = w := by
  refine BitVec.eq_of_getLsbD_eq fun i hi => ?_
  rw [swapHalves_getLsbD _ hi, swapHalves_getLsbD _ (Nat.mod_lt _ (by decide)),
    show ((i + 16) % 32 + 16) % 32 = i by omega]

theorem swapHalves_complement (w : Word) : swapHalves (~~~ w) = ~~~ swapHalves w := by
  refine BitVec.eq_of_getLsbD_eq fun i hi => ?_
  have hj : (i + 16) % 32 < 32 := Nat.mod_lt _ (by decide)
  simp only [swapHalves_getLsbD _ hi, BitVec.getLsbD_not, hi, hj]

theorem symOf_eq_sym1_iff (pol : BitVec 1) (bit : Bool) : symOf pol bit = sym1 pol ↔ bit = true := by
  revert pol bit
  decide

/-- Settles O38: the pre-swap word is recovered, and each bit of the byte is read off its nibble. -/
theorem encodeIsInvertible : Obligations.EncodeIsInvertible := by
  unfold Obligations.EncodeIsInvertible
  intro pol b c
  have hswap : ∀ b, swapHalves (encodeByte pol b) = preSwap pol b := fun b => swapHalves_swapHalves _
  have hbit : ∀ b, ∀ i < 8, (swapHalves (encodeByte pol b)).extractLsb' (4 * i) 4 = sym1 pol ↔ b.getLsbD i = true := by
    intro b i hi
    rw [hswap, preSwap_nibble pol b hi, symOf_eq_sym1_iff]
  refine ⟨hswap b, hbit b, fun heq => BitVec.eq_of_getLsbD_eq fun i hi => ?_⟩
  rw [Bool.eq_iff_iff, ← hbit b i hi, ← hbit c i hi, heq]

theorem symOf_complement (bit : Bool) : symOf 1#1 bit = ~~~ symOf 0#1 bit := by
  cases bit <;> rfl

/-- The pre-swap word, bit by bit. -/
theorem preSwap_getLsbD {i : Nat} (pol : BitVec 1) (b : Byte) (hi : i < 32) :
    (preSwap pol b).getLsbD i = (symOf pol (b.getLsbD (i / 4))).getLsbD (i % 4) := by
  have hj : i % 4 < 4 := Nat.mod_lt _ (by decide)
  rw [← preSwap_nibble pol b (by omega : i / 4 < 8), BitVec.getLsbD_extractLsb', Nat.div_add_mod, decide_eq_true hj,
    Bool.true_and]

theorem preSwap_complement (b : Byte) : preSwap 1#1 b = ~~~ preSwap 0#1 b := by
  refine BitVec.eq_of_getLsbD_eq fun i hi => ?_
  have hj : i % 4 < 4 := Nat.mod_lt _ (by decide)
  simp only [preSwap_getLsbD _ _ hi, symOf_complement, BitVec.getLsbD_not, hi, hj]

/-- Settles O39: symbol by symbol, through the pre-swap word and the exchange. -/
theorem polarityComplements : Obligations.PolarityComplements := by
  unfold Obligations.PolarityComplements
  refine ⟨rfl, rfl, rfl, fun b => ?_, by decide, by decide⟩
  rw [encodeByte, preSwap_complement, swapHalves_complement, encodeByte]

end Sys2Proof.Machine

/-! ## The pulse train, its timing and the byte view (41_led_encoder.md R176, R177; 20_memory.md R54) -/

namespace Sys2Proof.Machine

theorem halfSlots_length (w : Word) (top : Nat) : (halfSlots w top).length = 16 := by
  rw [halfSlots, List.length_map, List.length_range]

theorem halfSlots_getElem? {i : Nat} (w : Word) (top : Nat) (hi : i < 16) :
    (halfSlots w top)[i]? = some (w.getLsbD (top - i)) := by
  rw [halfSlots, List.getElem?_map, List.getElem?_range hi, Option.map_some]

theorem slots_length (w : Word) : (slots w).length = 32 := by
  rw [slots, List.length_append, halfSlots_length, halfSlots_length]

theorem slots_getElem?_low {i : Nat} (w : Word) (hi : i < 16) : (slots w)[i]? = some (w.getLsbD (15 - i)) := by
  rw [slots, List.getElem?_append_left (hi.trans_eq (halfSlots_length w 15).symm), halfSlots_getElem? w 15 hi]

theorem slots_getElem?_high {i : Nat} (w : Word) (hi : i < 16) : (slots w)[16 + i]? = some (w.getLsbD (31 - i)) := by
  rw [slots, List.getElem?_append_right (by rw [halfSlots_length]; omega), halfSlots_length, Nat.add_sub_cancel_left,
    halfSlots_getElem? w 31 hi]

/-- R176: the levels are the exchanged word's bits, from bit 31 down. -/
theorem slots_getElem?_swap {i : Nat} (w : Word) (hi : i < 32) :
    (slots w)[i]? = some ((swapHalves w).getLsbD (31 - i)) := by
  rw [swapHalves_getLsbD w (by omega)]
  by_cases hlow : i < 16
  · rw [slots_getElem?_low w hlow, show (31 - i + 16) % 32 = 15 - i by omega]
  · obtain ⟨j, rfl⟩ := Nat.exists_eq_add_of_le (Nat.le_of_not_lt hlow)
    rw [slots_getElem?_high w (by omega), show (31 - (16 + j) + 16) % 32 = 31 - j by omega]

theorem halfSlots_complement {top : Nat} (w : Word) (htop : top < 32) :
    halfSlots (~~~ w) top = (halfSlots w top).map (fun l => !l) := by
  simp only [halfSlots, List.map_map]
  refine List.map_congr_left fun i _ => ?_
  rw [Function.comp_apply, BitVec.getLsbD_not, decide_eq_true (by omega : top - i < 32), Bool.true_and]

/-- Settles O50: the two halves, level by level. -/
theorem slotsSendTheLowHalfFirst : Obligations.SlotsSendTheLowHalfFirst := by
  unfold Obligations.SlotsSendTheLowHalfFirst
  refine fun w => ⟨slots_length w, fun i hi => ⟨slots_getElem?_low w hi, slots_getElem?_high w hi⟩,
    fun i hi => slots_getElem?_swap w hi, ?_⟩
  rw [slots, halfSlots_complement w (by decide), halfSlots_complement w (by decide), ← List.map_append, slots]

/-- Settles O52: the quiet words are the delay over 20 us, rounded up, and each lasts that long. -/
theorem quietTimeReachesTheDelay : Obligations.QuietTimeReachesTheDelay := by
  unfold Obligations.QuietTimeReachesTheDelay
  intro p hperiod
  have hwords : p.resetDelayUs ≤ p.resetWords * 20 := by
    rw [Params.resetWords, ceilResetWords_eq]
    omega
  calc p.resetDelayUs * 1000 ≤ p.resetWords * 20 * 1000 := Nat.mul_le_mul_right 1000 hwords
    _ = p.resetWords * 20000 := Nat.mul_assoc ..
    _ ≤ p.resetWords * p.wordPeriodNs := Nat.mul_le_mul_left _ hperiod
    _ = quietNs p := rfl

/-- Settles O53: byte `4 * i + j` lies in word `i`, as its byte `j`. -/
theorem frameBytesAreLittleEndian : Obligations.FrameBytesAreLittleEndian := by
  unfold Obligations.FrameBytesAreLittleEndian
  intro s i j w hj hw
  have hword : (4 * i + j) / wordSize = i := by unfold wordSize; omega
  have hbyte : (4 * i + j) % wordSize = j := by unfold wordSize; omega
  rw [fbByte, hword, hbyte, hw, Option.map_some]

/-! A frame. -/

theorem frameOf_succ {fb : Space Word} {n : Nat} {ws : List Word} {w : Word} (hws : frameOf fb n = some ws)
    (hw : memRead fb n = some w) : frameOf fb (n + 1) = some (ws ++ [w]) := by
  simp only [frameOf, hws, hw]

/-- The words of a frame, in order, when all are written. -/
theorem frameOf_of_written {fb : Space Word} {n : Nat} (h : ∀ i < n, ∃ w, memRead fb i = some w) :
    ∃ ws, frameOf fb n = some ws ∧ ws.length = n ∧ ∀ i < n, memRead fb i = ws[i]? := by
  induction n with
  | zero => exact ⟨[], rfl, rfl, fun i hi => absurd hi (Nat.not_lt_zero i)⟩
  | succ n ih =>
    obtain ⟨ws, hframe, hlen, hread⟩ := ih fun i hi => h i (hi.trans n.lt_succ_self)
    obtain ⟨w, hw⟩ := h n n.lt_succ_self
    refine ⟨ws ++ [w], frameOf_succ hframe hw, by rw [List.length_append, hlen]; rfl, fun i hi => ?_⟩
    obtain hlt | rfl := Nat.lt_succ_iff_lt_or_eq.mp hi
    · rw [hread i hlt, List.getElem?_append_left (hlt.trans_eq hlen.symm)]
    · rw [hw, List.getElem?_append_right hlen.le, hlen, Nat.sub_self]
      rfl

theorem frameOf_of_unwritten {fb : Space Word} {n i : Nat} (hi : i < n) (h : memRead fb i = none) :
    frameOf fb n = none := by
  induction n with
  | zero => exact absurd hi (Nat.not_lt_zero i)
  | succ n ih =>
    obtain hlt | rfl := Nat.lt_succ_iff_lt_or_eq.mp hi
    · simp only [frameOf, ih hlt]
    · cases hframe : frameOf fb i <;> simp only [frameOf, hframe, h]

theorem flatMap_slots_length (ws : List Word) : (ws.flatMap slots).length = 32 * ws.length := by
  induction ws with
  | nil => rfl
  | cons w ws ih =>
    rw [List.flatMap_cons, List.length_append, slots_length, ih, List.length_cons, Nat.mul_succ, Nat.add_comm]

/-- Word `i` of a frame has the 32 levels from `32 * i` on. -/
theorem flatMap_slots_word {ws : List Word} {i : Nat} {w : Word} (h : ws[i]? = some w) :
    ((ws.flatMap slots).drop (32 * i)).take 32 = slots w := by
  induction ws generalizing i with
  | nil => cases h
  | cons v ws ih =>
    rw [List.flatMap_cons]
    cases i with
    | zero =>
      obtain rfl := Option.some.inj h
      rw [Nat.mul_zero, List.drop_zero, List.take_append_of_le_length (slots_length v).ge, ← slots_length v,
        List.take_length]
    | succ i =>
      rw [Nat.mul_succ, Nat.add_comm, ← List.drop_drop, List.drop_append_of_le_length (slots_length v).ge]
      rw [List.drop_of_length_le (slots_length v).le, List.nil_append]
      exact ih h

/-- Settles O51: the frame's words in order, and each word's levels. -/
theorem pulseTrainIsTheFrameInOrder : Obligations.PulseTrainIsTheFrameInOrder := by
  unfold Obligations.PulseTrainIsTheFrameInOrder
  refine fun s => ⟨fun hwritten => ?_, fun ⟨i, hi, hnone⟩ => ?_⟩
  · obtain ⟨ws, hframe, hlen, hread⟩ := frameOf_of_written hwritten
    refine ⟨ws.flatMap slots, by rw [pulseTrain, hframe, Option.map_some], ?_, fun i hi w hw => ?_⟩
    · rw [flatMap_slots_length, hlen]
    · exact flatMap_slots_word ((hread i hi).symm.trans hw)
  · rw [pulseTrain, frameOf_of_unwritten hi hnone, Option.map_none]

end Sys2Proof.Machine

/-! ## RESET (70_reset_and_hazards.md R230 to R232) -/

namespace Sys2Proof.Machine

theorem all_recognised_iff {ids : List Byte} : ids.all recognised = true ↔ ∀ id ∈ ids, id.toNat < 4 := by
  simp only [List.all_eq_true, recognised, decide_eq_true_eq]

theorem bringUp_of_recognised {s : State} (h : s.cfg.chanMap.all recognised = true) :
    bringUp s = { s with encReady := true } := by
  simp only [bringUp, firstBadChan_eq_none_iff.mpr h]

/-- The first bad entry is the one logged. -/
theorem bringUp_of_first_bad {s : State} {pre post : List Byte} {id : Byte} (hmap : s.cfg.chanMap = pre ++ id :: post)
    (hpre : pre.all recognised = true) (hid : recognised id = false) :
    bringUp s = { s with encReady := false, events := s.events ++ [.cfgErrInit pre.length id] } := by
  simp only [bringUp, hmap, firstBadChan_append 0 hpre hid, Nat.zero_add]
  rfl

/-- A bring-up check writes `enc_ready` and the trace only. -/
theorem bringUp_frame (s : State) :
    bringUp s = { s with encReady := (bringUp s).encReady, events := (bringUp s).events } := by
  obtain ⟨_, h⟩ | ⟨_, _, _, h⟩ := bringUp_cases s <;> rw [h]

/-- Settles O54: what RESET writes before the check, and the two outcomes of the check. -/
theorem resetSetsEveryField : Obligations.ResetSetsEveryField := by
  unfold Obligations.ResetSetsEveryField
  intro s
  have hrun : exec .reset s = done
      { resetState s with encReady := (bringUp (resetState s)).encReady, events := (bringUp (resetState s)).events } :=
    congrArg done (bringUp_frame (resetState s))
  refine ⟨_, hrun, rfl, rfl, rfl, rfl, fun _ => ⟨rfl, rfl, rfl⟩, rfl, rfl, rfl, rfl, rfl, rfl, rfl, rfl,
    fun hgood => ?_, fun pre post chan hmap hpre hchan => ?_⟩
  · have hup := bringUp_of_recognised (s := resetState s) (all_recognised_iff.mpr hgood)
    rw [hup]
    exact ⟨rfl, rfl⟩
  · have hbad : recognised chan = false := decide_eq_false (Nat.not_lt.mpr hchan)
    have hup := bringUp_of_first_bad (s := resetState s) hmap (all_recognised_iff.mpr hpre) hbad
    rw [hup]
    exact ⟨rfl, rfl⟩

end Sys2Proof.Machine

/-! ## A whole frame (40_frame_decoder.md R117 to R125, R131)

Seven steps read the header; then the payload, element by element, up to the commit. -/

namespace Sys2Proof.Machine

theorem runInstrs_append {l l' : List Instr} {s t : State} (h : runInstrs l s = .next t) :
    runInstrs (l ++ l') s = runInstrs l' t := by
  induction l generalizing s with
  | nil =>
    obtain rfl := Host.Outcome.next.inj h
    rfl
  | cons i l ih =>
    simp only [runInstrs, List.cons_append] at h ⊢
    split at h
    · exact ih h
    · cases h
    · cases h

theorem decRun_add (m n : Nat) : decRun (m + n) = decRun m ++ decRun n := List.replicate_add ..

/-! The header. -/

/-- Byte `i` of a frame's header. -/
def headerByteAt (len : Half) (crc : Byte) (i : Nat) : Byte := (frameBytes len crc []).getD i 0#8

/-- The header after its first `n` bytes. -/
def headerAfter (len : Half) (crc : Byte) (n : Nat) : Header where
  idx := BitVec.ofNat 32 n
  magic0 := if 0 < n then magic 0 else 0#8
  magic1 := if 1 < n then magic 1 else 0#8
  magic2 := if 2 < n then magic 2 else 0#8
  magic3 := if 3 < n then magic 3 else 0#8
  len := if n ≤ 4 then 0#16 else if n = 5 then (0#16).extractLsb' 8 8 ++ len.extractLsb' 0 8 else len
  crc := if n ≤ 6 then 0#8 else crc

/-- `s` with a header, a ring, and the answer of a step that took effect. -/
def State.reading (s : State) (h : Header) (ring : List Byte) : State :=
  { s with hdr := h, ring := ring, result := .done }

/-- The two length bytes, low byte first, make up the length (R113, R114). -/
theorem len_of_bytes (len : Half) (hi : Byte) :
    (len.extractLsb' 8 8 ++ (hi ++ len.extractLsb' 0 8 : Half).extractLsb' 0 8 : Half) = len := by
  rw [BitVec.extractLsb'_append_eq_right]
  exact (BitVec.extractLsb'_append_extractLsb'_eq_extractLsb' rfl).trans BitVec.extractLsb'_eq_self

/-- A header byte at its cursor makes the header one byte longer. -/
theorem headerByte_headerAfter {c : Nat} {s : State} {len : Half} {crc : Byte} (hc : c ≤ 6)
    (hhdr : s.hdr = headerAfter len crc c) :
    (headerByte c (headerByteAt len crc c) s).answer .done = s.reading (headerAfter len crc (c + 1)) s.ring := by
  obtain rfl | rfl | rfl | rfl | rfl | rfl | rfl :
      c = 0 ∨ c = 1 ∨ c = 2 ∨ c = 3 ∨ c = 4 ∨ c = 5 ∨ c = 6 := by omega
  case inr.inr.inr.inr.inr.inl =>
    simp only [headerByte, acceptLenHi, State.setCursor, hhdr]
    exact congrArg (fun l => s.reading { headerAfter len crc 6 with len := l } s.ring) (len_of_bytes len _)
  all_goals
    simp only [headerByte, acceptMagic, acceptLenLo, acceptCrc, State.setCursor, hhdr]
    rfl

theorem headerAfter_cursor {c : Nat} {s : State} {len : Half} {crc : Byte} (hc : c ≤ 6)
    (hhdr : s.hdr = headerAfter len crc c) : s.cursor = c := by
  rw [State.cursor_of_idx (congrArg Header.idx hhdr : s.hdr.idx = BitVec.ofNat 32 c), Nat.mod_eq_of_lt (by omega)]

theorem frameBytes_drop {c : Nat} (len : Half) (crc : Byte) (hc : c ≤ 6) :
    (frameBytes len crc []).drop c = headerByteAt len crc c :: (frameBytes len crc []).drop (c + 1) := by
  have hlt : c < (frameBytes len crc []).length := Nat.lt_succ_of_le hc
  rw [List.drop_eq_getElem_cons hlt, headerByteAt, List.getD_eq_getElem _ _ hlt]

theorem execDecStep_at_header {c : Nat} {s : State} {len : Half} {crc : Byte} {rest : List Byte} (hc : c ≤ 6)
    (hhdr : s.hdr = headerAfter len crc c) (hr : s.ring = (frameBytes len crc []).drop c ++ rest) :
    exec .decStep s =
      .next (s.reading (headerAfter len crc (c + 1)) ((frameBytes len crc []).drop (c + 1) ++ rest)) := by
  have hcur := headerAfter_cursor hc hhdr
  rw [frameBytes_drop len crc hc, List.cons_append] at hr
  rw [execDecStep_of_header (hcur.trans_le hc) hr, hcur]
  exact congrArg Host.Outcome.next
    (headerByte_headerAfter (s := { s with ring := (frameBytes len crc []).drop (c + 1) ++ rest }) hc hhdr)

/-- The rest of a header, from its byte `c` on. -/
theorem runInstrs_header {m c : Nat} {s : State} {len : Half} {crc : Byte} {rest : List Byte} (hm : c + (m + 1) = 7)
    (hhdr : s.hdr = headerAfter len crc c) (hr : s.ring = (frameBytes len crc []).drop c ++ rest) :
    runInstrs (decRun (m + 1)) s = .next (s.reading (headerAfter len crc 7) rest) := by
  induction m generalizing c s with
  | zero =>
    obtain rfl : c = 6 := by omega
    exact runInstrs_decRun_succ (execDecStep_at_header le_rfl hhdr hr)
  | succ m ih =>
    rw [runInstrs_decRun_succ (execDecStep_at_header (by omega) hhdr hr)]
    exact ih (by omega) rfl rfl

/-! The payload. -/

/-- The Packet Buffer after element `k` of a payload: a byte of it, a zero past it, nothing past the buffer. -/
def storeElement (payload : List Byte) (k : Nat) (s : State) : Space Byte :=
  if k < s.cfg.pktMax.toNat then memWrite s.pkt k (payload.getD k 0#8) else s.pkt

theorem memRead_storeElement (payload : List Byte) (k j : Nat) (s : State) :
    memRead (storeElement payload k s) j =
      if j = k ∧ j < s.cfg.pktMax.toNat then some (payload.getD j 0#8) else memRead s.pkt j := by
  unfold storeElement
  by_cases hk : k < s.cfg.pktMax.toNat
  · rw [if_pos hk, memRead_memWrite]
    by_cases hj : j = k
    · rw [if_pos hj, if_pos ⟨hj, hj ▸ hk⟩, hj]
    · rw [if_neg hj, if_neg fun ⟨hjk, _⟩ => hj hjk]
  · rw [if_neg hk, if_neg fun ⟨hj, hlt⟩ => hk (hj ▸ hlt)]

/-- A step of the decoder at element `k` of a payload that is in the ring. -/
theorem execDecStep_at_element {k : Nat} {s : State} {payload rest : List Byte} (hcur : s.cursor = 7 + k)
    (hcheck : PayloadChecked s) (hlen : s.hdr.len.toNat = payload.length)
    (hk : k < max payload.length s.cfg.pktMax.toNat) (hr : s.ring = payload.drop k ++ rest) :
    exec .decStep s = .next ((elementDone k
      { s with ring := payload.drop (k + 1) ++ rest, pkt := storeElement payload k s }).answer .done) := by
  rw [execDecStep_of_payload (by omega) hcheck, payloadIndex, hcur, Nat.add_sub_cancel_left]
  by_cases hin : k < payload.length
  · rw [List.drop_eq_getElem_cons hin] at hr
    rw [payloadElement_of_byte (hlen ▸ hin) hr]
    by_cases hmax : k < s.cfg.pktMax.toNat
    · rw [if_pos hmax, storeElement, if_pos hmax, List.getD_eq_getElem _ _ hin]
      rfl
    · rw [if_neg hmax, storeElement, if_neg hmax]
      rfl
  · have hmax : k < s.cfg.pktMax.toNat := (lt_max_iff.mp hk).resolve_left hin
    have hpast : payload.length ≤ k := Nat.le_of_not_lt hin
    rw [List.drop_of_length_le hpast] at hr
    rw [payloadElement, if_neg (hlen ▸ hin), zeroElement_of_lt hmax, storeElement, if_pos hmax,
      List.getD_eq_default _ _ hpast, List.drop_of_length_le (hpast.trans k.le_succ), ← hr]

/-- The state after element `k`, before the completion test of R122. -/
def State.afterElement (payload rest : List Byte) (k : Nat) (s : State) : State :=
  { s with ring := payload.drop (k + 1) ++ rest, pkt := storeElement payload k s }

/-- What is left of a frame from element `k` of its payload on: the elements, and one commit. -/
theorem runInstrs_payload {n k : Nat} {s : State} {payload rest : List Byte} (hcur : s.cursor = 7 + k)
    (hcheck : PayloadChecked s) (hlen : s.hdr.len.toNat = payload.length)
    (hn : max payload.length s.cfg.pktMax.toNat = k + (n + 1)) (hmax : s.cfg.pktMax.toNat ≤ 2 ^ 20)
    (hr : s.ring = payload.drop k ++ rest) :
    ∃ t, runInstrs (decRun (n + 1)) s = .next t ∧
      (∀ j, memRead t.pkt j =
        if k ≤ j ∧ j < s.cfg.pktMax.toNat then some (payload.getD j 0#8) else memRead s.pkt j) ∧
      t = { s with
        ring := rest, pkt := t.pkt, newData := true, hdr := Header.zero
        events := s.events ++ [.frameCommit s.hdr.len], result := .done } := by
  induction n generalizing k s with
  | zero =>
    have hstep := execDecStep_at_element hcur hcheck hlen (by omega) hr
    have hlast : k + 1 = payloadTotal (s.afterElement payload rest k) := by rw [← hn, ← hlen]; rfl
    rw [← State.afterElement, elementDone, if_pos hlast] at hstep
    refine ⟨_, runInstrs_decRun_succ hstep, fun j => ?_, ?_⟩
    · refine (memRead_storeElement payload k j s).trans (if_congr ?_ rfl rfl)
      omega
    · simp only [State.afterElement, List.drop_of_length_le (show payload.length ≤ k + 1 by omega), List.nil_append]
      rfl
  | succ n ih =>
    have hstep := execDecStep_at_element hcur hcheck hlen (by omega) hr
    have hmore : k + 1 ≠ payloadTotal (s.afterElement payload rest k) := by
      change k + 1 ≠ max s.hdr.len.toNat s.cfg.pktMax.toNat
      omega
    rw [← State.afterElement, elementDone, if_neg hmore] at hstep
    have hlen16 : payload.length < 2 ^ 16 := hlen ▸ s.hdr.len.isLt
    have hcur' : ((s.afterElement payload rest k).setCursor (7 + k + 1)).cursor = 7 + (k + 1) :=
      State.setCursor_cursor _ (by omega)
    obtain ⟨t, hrun, hread, ht⟩ :=
      ih (s := ((s.afterElement payload rest k).setCursor (7 + k + 1)).answer .done) hcur'
        (fun h7 => absurd (hcur'.symm.trans h7) (by omega)) hlen (hn.trans (by omega)) hmax rfl
    refine ⟨t, (runInstrs_decRun_succ hstep).trans hrun, fun j => ?_, ht⟩
    have hstored : memRead ((s.afterElement payload rest k).setCursor (7 + k + 1)).pkt j = _ :=
      memRead_storeElement payload k j s
    rw [hread, State.answer_pkt, hstored]
    change (if k + 1 ≤ j ∧ j < s.cfg.pktMax.toNat then _ else _) = _
    grind

/-- Settles O31: seven header bytes, then the elements. -/
theorem wholeFrameIsDelivered : Obligations.WholeFrameIsDelivered := by
  unfold Obligations.WholeFrameIsDelivered
  intro s len crc payload rest hclear hlen hpos hmax hr hcrc
  have hheader := runInstrs_header (m := 6) (c := 0) (s := s) (len := len) (crc := crc) (rest := payload ++ rest) rfl
    hclear (by rw [hr, List.append_assoc]; rfl)
  have hcheck : PayloadChecked (s.reading (headerAfter len crc 7) (payload ++ rest)) := fun _ => by
    refine ⟨?_, ?_⟩
    · change len.toNat ≤ (payload ++ rest).length
      rw [hlen, List.length_append]
      exact Nat.le_add_right ..
    · change crcCheck s.params.crcHook crc len ((payload ++ rest).take len.toNat) = true
      rw [hlen, List.take_left, hcrc]
  obtain ⟨n, hn⟩ := Nat.exists_eq_add_of_le' (le_max_of_le_right hpos : 1 ≤ max payload.length s.cfg.pktMax.toNat)
  obtain ⟨t, hrun, hread, ht⟩ :=
    runInstrs_payload (rest := rest) (k := 0) rfl hcheck hlen (hn.trans (Nat.zero_add _).symm) hmax rfl
  refine ⟨t, ?_, fun k hk => ?_, fun k hk => ?_, ?_⟩
  · rw [decRun_add, runInstrs_append hheader, hn, hrun]
  · rw [hread, if_pos ⟨Nat.zero_le k, hk⟩]
  · rw [hread, if_neg fun ⟨_, hlt⟩ => Nat.not_lt.mpr hk hlt]
    rfl
  · rw [hclear]
    exact ht

/-- Settles O32: the second frame is delivered from where the first ends, and one signal is there to be taken. -/
theorem signalsCollapse : Obligations.SignalsCollapse := by
  unfold Obligations.SignalsCollapse
  intro s len1 len2 crc1 crc2 p1 p2 rest hclear hlen1 hlen2 hpos hmax hr hcrc1 hcrc2
  obtain ⟨t1, hrun1, _, _, ht1⟩ := wholeFrameIsDelivered s len1 crc1 p1 _ hclear hlen1 hpos hmax hr hcrc1
  have hclear1 : t1.hdr = Header.zero := (congrArg State.hdr ht1).trans hclear
  have hring1 : t1.ring = frameBytes len2 crc2 p2 ++ rest := congrArg State.ring ht1
  have hcfg1 : t1.cfg = s.cfg := by rw [ht1]
  have hparams1 : t1.params = s.params := by rw [ht1]
  rw [← hcfg1] at hpos hmax
  rw [← hparams1] at hcrc2
  obtain ⟨t2, hrun2, hread, _, ht2⟩ := wholeFrameIsDelivered t1 len2 crc2 p2 rest hclear1 hlen2 hpos hmax hring1 hcrc2
  rw [hcfg1] at hrun2 hread
  have hraised : t2.newData = true := congrArg State.newData ht2
  exact ⟨t2, _, _, (runInstrs_append hrun1).trans hrun2, hread, hraised, congrArg State.ring ht2,
    execSigTake_of_raised hraised, rfl, execSigTake_of_clear rfl, rfl⟩

end Sys2Proof.Machine

/-! ## Interleavings of `RX_BYTE` and `DEC_STEP` (40_frame_decoder.md R135)

A decoder step that takes effect does the same with more bytes behind those it sees. So every schedule ends where its
decoder steps end when they find all its bytes in the ring from the start. -/

namespace Sys2Proof.Machine

/-- `s` with more bytes in the ring, behind those it holds, and the answer of a step that took effect. -/
def State.feed (bs : List Byte) (s : State) : State := { s with ring := s.ring ++ bs, result := .done }

/-- The byte of an `RX_BYTE` is the first of those still to come. -/
theorem State.feed_ringPush (b : Byte) (bs : List Byte) (s : State) :
    ((ringPush b s).answer .done).feed bs = s.feed (b :: bs) := by
  simp only [State.feed, State.answer, ringPush, List.append_assoc, List.singleton_append]

/-! What the engine does is not a matter of the bytes behind. -/

theorem headerByte_feed (i : Nat) (b : Byte) (bs : List Byte) : EffectOf (fun _ => State.feed bs) (headerByte i b) :=
  .ite (fun _ _ => Iff.rfl) (.ite (fun _ _ => Iff.rfl) (fun _ _ => rfl) fun _ _ => rfl) <|
    .ite (fun _ _ => Iff.rfl) (fun _ _ => rfl) <| .ite (fun _ _ => Iff.rfl) (fun _ _ => rfl) fun _ _ => rfl

theorem elementDone_feed (k : Nat) (bs : List Byte) : EffectOf (fun _ => State.feed bs) (elementDone k) :=
  .ite (fun _ _ => Iff.rfl) (fun _ _ => rfl) fun _ _ => rfl

theorem payloadElement_feed {k : Nat} {s t : State} (bs : List Byte) (h : payloadElement k s = .next t)
    (hdone : t.result = .done) : payloadElement k (s.feed bs) = .next (t.feed bs) := by
  obtain ⟨_, _, rfl⟩ | ⟨b, rest, hk, hr, hmax, rfl⟩ | ⟨b, rest, hk, hr, hmax, rfl⟩ | ⟨hk, hmax, rfl⟩ :=
    payloadElement_next h
  · cases hdone
  · have hr' : (s.feed bs).ring = b :: (rest ++ bs) := congrArg (· ++ bs) hr
    rw [payloadElement_of_byte (s := s.feed bs) hk hr', if_pos (show k < (s.feed bs).cfg.pktMax.toNat from hmax)]
    exact congrArg done (elementDone_feed k bs { s with ring := rest, pkt := memWrite s.pkt k b } s)
  · have hr' : (s.feed bs).ring = b :: (rest ++ bs) := congrArg (· ++ bs) hr
    rw [payloadElement_of_byte (s := s.feed bs) hk hr',
      if_neg (show ¬ k < (s.feed bs).cfg.pktMax.toNat from hmax.not_gt)]
    exact congrArg done (elementDone_feed k bs { s with ring := rest } s)
  · rw [payloadElement, if_neg (show ¬ k < (s.feed bs).hdr.len.toNat from hk.not_gt),
      zeroElement_of_lt (s := s.feed bs) hmax]
    exact congrArg done (elementDone_feed k bs { s with pkt := memWrite s.pkt k 0#8 } s)

/-- The check of R117 is of the payload, which is in the ring. -/
theorem crcAccepts_feed {s : State} (bs : List Byte) (hlen : s.hdr.len.toNat ≤ s.ring.length) :
    crcAccepts (s.feed bs) = crcAccepts s := by
  have htake : (s.ring ++ bs).take s.hdr.len.toNat = s.ring.take s.hdr.len.toNat := List.take_append_of_le_length hlen
  exact congrArg (crcCheck s.params.crcHook s.hdr.crc s.hdr.len) htake

/-- A decoder step that takes effect does the same with more bytes behind. -/
theorem execDecStep_feed {s t : State} (bs : List Byte) (h : exec .decStep s = .next t) (hdone : t.result = .done) :
    exec .decStep (s.feed bs) = .next (t.feed bs) := by
  have hlonger : s.ring.length ≤ (s.feed bs).ring.length :=
    (Nat.le_add_right ..).trans_eq (List.length_append (as := s.ring) (bs := bs)).symm
  have hat : ∀ hlen : s.hdr.len.toNat ≤ s.ring.length, ¬ (s.feed bs).ring.length < (s.feed bs).hdr.len.toNat :=
    fun hlen => Nat.not_lt.mpr (hlen.trans hlonger)
  obtain ⟨_, _, rfl⟩ | ⟨b, rest, hc, hr, rfl⟩ | ⟨_, _, rfl⟩ | ⟨h7, hlen, hcrc, rfl⟩ | ⟨h7, hlen, hcrc, h⟩ | ⟨h8, h⟩ :=
    execDecStep_next h
  · cases hdone
  · rw [execDecStep_of_header (s := s.feed bs) hc (congrArg (· ++ bs) hr)]
    exact congrArg done (headerByte_feed s.cursor b bs { s with ring := rest } s)
  · cases hdone
  · rw [execDecStep_at_check (s := s.feed bs) h7, if_neg (hat hlen), crcAccepts_feed bs hlen, hcrc]
    rfl
  · rw [execDecStep_at_check (s := s.feed bs) h7, if_neg (hat hlen), crcAccepts_feed bs hlen, hcrc]
    exact payloadElement_feed bs h hdone
  · rw [execDecStep_of_payload (s := s.feed bs) (Nat.le_of_succ_le h8) fun h7 => absurd (h8.trans_eq h7) (by decide)]
    exact payloadElement_feed bs h hdone

/-! Live runs. -/

/-- All an operation of a live run can do. -/
theorem liveStep_eq_some {i : Instr} {s t : State} (h : liveStep i s = some t) :
    (∃ b, i = .rxByte b ∧ t = (ringPush b s).answer .done) ∨
    (i = .decStep ∧ exec .decStep s = .next t ∧ t.result = .done) := by
  unfold liveStep at h
  split at h
  case h_1 b =>
    obtain ⟨_, hexec⟩ | ⟨hfull, _⟩ := execRxByte_cases b s
    · rw [hexec] at h
      split at h
      · exact .inl ⟨b, rfl, (Option.some.inj h).symm⟩
      · cases h
    · rw [if_neg (show ¬ ringCount s < s.ringCap from hfull.not_gt)] at h
      cases h
  case h_2 =>
    split at h
    · split at h
      · obtain rfl := Option.some.inj h
        exact .inr ⟨rfl, ‹_›, ‹_›⟩
      · cases h
    · cases h
  case h_3 => cases h

theorem liveRun_cons {i : Instr} {l : List Instr} {s t : State} (h : liveRun (i :: l) s = some t) :
    ∃ u, liveStep i s = some u ∧ liveRun l u = some t := by
  unfold liveRun at h
  split at h
  · exact ⟨_, ‹_›, h⟩
  · cases h

theorem liveRun_decStep {l : List Instr} {s t : State} (h : exec .decStep s = .next t) (hdone : t.result = .done) :
    liveRun (.decStep :: l) s = liveRun l t := by
  simp only [liveRun, liveStep, h, hdone, if_true]

/-- A live run ends where its decoder steps end when its bytes are there from the start. -/
theorem liveRun_eq_feed {l : List Instr} {s t : State} (h : liveRun l s = some t) :
    liveRun (decRun (decStepsOf l)) (s.feed (bytesOf l)) = some (t.feed []) := by
  induction l generalizing s with
  | nil =>
    obtain rfl := Option.some.inj h
    rfl
  | cons i l ih =>
    obtain ⟨u, hstep, hrun⟩ := liveRun_cons h
    obtain ⟨b, rfl, rfl⟩ | ⟨rfl, hexec, hdone⟩ := liveStep_eq_some hstep
    · exact (congrArg (liveRun (decRun (decStepsOf l))) (s.feed_ringPush b (bytesOf l)).symm).trans (ih hrun)
    · exact (liveRun_decStep (execDecStep_feed (bytesOf l) hexec hdone) rfl).trans (ih hrun)

/-- What is answered last: nothing new without an operation, else that it took effect. -/
theorem liveRun_result {l : List Instr} {s t : State} (h : liveRun l s = some t) :
    t.result = if bytesOf l = [] ∧ decStepsOf l = 0 then s.result else .done := by
  induction l generalizing s with
  | nil =>
    obtain rfl := Option.some.inj h
    rfl
  | cons i l ih =>
    obtain ⟨u, hstep, hrun⟩ := liveRun_cons h
    obtain ⟨b, rfl, rfl⟩ | ⟨rfl, _, hdone⟩ := liveStep_eq_some hstep
    · rw [ih hrun, State.answer_result, ite_self, if_neg fun hempty => by cases hempty.1]
    · rw [ih hrun, hdone, ite_self, if_neg fun hempty => by cases hempty.2]

theorem State.eq_of_feed_nil_eq {s t : State} (h : s.feed [] = t.feed []) (hresult : s.result = t.result) : s = t := by
  have hback : ∀ u : State, (u.feed []).answer u.result = u := fun u => by
    rw [State.feed, List.append_nil]
    rfl
  rw [← hback s, ← hback t, h, hresult]

/-- Settles O34: both schedules end where the decoder steps end that find all the bytes in the ring. -/
theorem interleavingDoesNotMatter : Obligations.InterleavingDoesNotMatter := by
  unfold Obligations.InterleavingDoesNotMatter
  intro l1 l2 s t1 t2 hbytes hsteps h1 h2
  have hfeed1 := liveRun_eq_feed h1
  have hresult1 := liveRun_result h1
  rw [hbytes, hsteps] at hfeed1 hresult1
  exact State.eq_of_feed_nil_eq (Option.some.inj (hfeed1.symm.trans (liveRun_eq_feed h2)))
    (hresult1.trans (liveRun_result h2).symm)

end Sys2Proof.Machine

/-! ## The data words of an assembly (41_led_encoder.md R168 to R172; 30_encoding.md R80, R83) -/

namespace Sys2Proof.Machine

/-- `v` is the byte of channel `chan` of pixel `px`: white is zero, a colour is its pixel byte, written. -/
def ChannelByte (s : State) (px : Nat) (chan v : Byte) : Prop :=
  chan = 0#8 ∧ v = 0#8 ∨ chan = 1#8 ∧ memRead s.pix (4 * px) = some v ∨
    chan = 2#8 ∧ memRead s.pix (4 * px + 1) = some v ∨ chan = 3#8 ∧ memRead s.pix (4 * px + 2) = some v

theorem chanIndex_lt {s : State} {px : Nat} {chan : Byte} (hpx : px < s.cfg.numPixels.toNat)
    (hchan : chan.toNat < 4) : chanIndex px chan < s.cfg.pixLen := by
  unfold chanIndex Cfg.pixLen
  omega

/-- The channel's byte is found where the channel says (R80, R83). -/
theorem ChannelByte.chanByte_eq {s : State} {px : Nat} {chan v : Byte} (h : ChannelByte s px chan v)
    (hpx : px < s.cfg.numPixels.toNat) : recognised chan = true ∧ chanByte s px chan = .ok v := by
  obtain ⟨rfl, rfl⟩ | ⟨rfl, hv⟩ | ⟨rfl, hv⟩ | ⟨rfl, hv⟩ := h
  · exact ⟨by decide, rfl⟩
  all_goals exact ⟨by decide, chanByte_ok_iff.mpr (.inr ⟨by decide, chanIndex_lt hpx (by decide), hv⟩)⟩

theorem chanAt_of_getElem? {s : State} {c : Nat} {chan : Byte} (h : s.cfg.chanMap[c]? = some chan) :
    chanAt s c = chan := by
  rw [chanAt, List.getD_eq_getElem?_getD, h, Option.getD_some]

/-- At a data position an `ENC_STEP` is the data word. -/
theorem execEncStep_of_data_position {s : State} {p : Nat} (hready : s.encReady = true) (hbusy : s.encBusy = true)
    (hpos : s.encPos.toNat = p + 1) (hp : p < s.cfg.dataWords) : exec .encStep s = dataWord (p + 1) s := by
  have h0 : s.encPos.toNat ≠ 0 := by omega
  have hdata : s.encPos.toNat ≤ s.cfg.dataWords := by omega
  rw [exec, execEncStep, whenReady_of_ready hready, if_pos hbusy, if_neg h0, if_pos hdata, hpos]

/-- The pixel and the channel of a data word, pixel-major (R168). -/
theorem dataWord_of_recognised {s : State} {p : Nat} {chan : Byte}
    (hchan : s.cfg.chanMap[p % s.cfg.chanMap.length]? = some chan) (hrec : recognised chan = true) :
    dataWord (p + 1) s =
      match chanByte s (p / s.cfg.chanMap.length) chan with
      | .error f => .fault f
      | .ok v => writeWord (p + 1) (encodeByte s.cfg.polarity v) s := by
  rw [← chanAt_of_getElem? hchan] at hrec ⊢
  exact if_pos hrec

theorem dataWord_of_unrecognised {s : State} {p : Nat} {chan : Byte}
    (hchan : s.cfg.chanMap[p % s.cfg.chanMap.length]? = some chan) (hrec : recognised chan = false) :
    dataWord (p + 1) s = done (cfgAbort (p % s.cfg.chanMap.length) chan s) := by
  rw [← chanAt_of_getElem? hchan] at hrec ⊢
  exact if_neg (ne_true_of_eq_false hrec)

/-- The pixel of a data word is one of the strip's. -/
theorem pixel_lt {s : State} {p : Nat} (hp : p < s.cfg.dataWords) :
    p / s.cfg.chanMap.length < s.cfg.numPixels.toNat := Nat.div_lt_of_lt_mul hp

/-- At a data position an `ENC_STEP` writes the encoded channel byte. -/
theorem execEncStep_of_channelByte {s : State} {p : Nat} {chan v : Byte} (hready : s.encReady = true)
    (hbusy : s.encBusy = true) (hpos : s.encPos.toNat = p + 1) (hp : p < s.cfg.dataWords)
    (hchan : s.cfg.chanMap[p % s.cfg.chanMap.length]? = some chan)
    (hv : ChannelByte s (p / s.cfg.chanMap.length) chan v) :
    exec .encStep s = writeWord s.encPos.toNat (encodeByte s.cfg.polarity v) s := by
  obtain ⟨hrec, hbyte⟩ := hv.chanByte_eq (pixel_lt hp)
  rw [execEncStep_of_data_position hready hbusy hpos hp, dataWord_of_recognised hchan hrec, hbyte, hpos]

/-- Settles O43: the encoded channel byte at the assembly's position, by what any word written there does. -/
theorem encStepEncodesTheChannelByte : Obligations.EncStepEncodesTheChannelByte := by
  unfold Obligations.EncStepEncodesTheChannelByte
  rintro s p _ _ chan v hready hbusy hpos hp rfl rfl hchan hv
  have hinside : s.encPos.toNat < s.cfg.fbLen := by
    have := s.cfg.dataWords_lt_fbLen
    change p < s.cfg.dataWords at hp
    omega
  rw [execEncStep_of_channelByte hready hbusy hpos hp hchan hv, ← hpos, show p + 2 = s.encPos.toNat + 1 by omega]
  exact writeWord_at_position (encodeByte s.cfg.polarity v) hinside

/-- Settles O44: the checked read of the pixel byte faults. -/
theorem encStepFaultsOnUnwrittenPixel : Obligations.EncStepFaultsOnUnwrittenPixel := by
  unfold Obligations.EncStepFaultsOnUnwrittenPixel
  rintro s p _ _ chan hready hbusy hpos hp rfl rfl hchan hnone
  have hread : recognised chan = true ∧ chanByte s (p / s.cfg.chanMap.length) chan = .error .unwrittenRead := by
    obtain ⟨rfl, hpix⟩ | ⟨rfl, hpix⟩ | ⟨rfl, hpix⟩ := hnone
    all_goals exact ⟨by decide, elementRead_of_unwritten (chanIndex_lt (pixel_lt hp) (by decide)) hpix⟩
  obtain ⟨hrec, hbyte⟩ := hread
  rw [execEncStep_of_data_position hready hbusy hpos hp, dataWord_of_recognised hchan hrec, hbyte]

/-- Settles O45: the abort branch of the data word, which no ready encoder's map leads to. -/
theorem unrecognisedChannelAborts : Obligations.UnrecognisedChannelAborts := by
  unfold Obligations.UnrecognisedChannelAborts
  refine ⟨?_, fun s hinv hready => all_recognised_iff.mp (hinv.bse.ready_iff.symm.trans hready)⟩
  rintro s p _ chan hready hbusy hpos hp rfl hchan hbad
  have hrec : recognised chan = false := decide_eq_false (Nat.not_lt.mpr hbad)
  rw [execEncStep_of_data_position hready hbusy hpos hp, dataWord_of_unrecognised hchan hrec]
  rfl

end Sys2Proof.Machine

/-! ## A whole strip frame (30_encoding.md R82; 41_led_encoder.md R165 to R172) -/

namespace Sys2Proof.Machine

/-- Every pixel byte the assembly reads is written, and `v` gives it by pixel and channel position. -/
def PixelsWritten (s : State) (v : Nat → Nat → Byte) : Prop :=
  ∀ px < s.cfg.numPixels.toNat, ∀ c < s.cfg.chanMap.length,
    ∃ chan, s.cfg.chanMap[c]? = some chan ∧ ChannelByte s px chan (v px c)

/-- Word `j` of the layout of R82. -/
def layoutWord (c : Cfg) (v : Nat → Nat → Byte) (j : Nat) : Word :=
  if 1 ≤ j ∧ j ≤ c.dataWords then
    encodeByte c.polarity (v ((j - 1) / c.chanMap.length) ((j - 1) % c.chanMap.length))
  else resetWord c.polarity

/-- An `ENC_STEP` writes its position's word of the layout. -/
theorem PixelsWritten.execEncStep_eq {s : State} {v : Nat → Nat → Byte} (hv : PixelsWritten s v)
    (hready : s.encReady = true) (hbusy : s.encBusy = true) :
    exec .encStep s = writeWord s.encPos.toNat (layoutWord s.cfg v s.encPos.toNat) s := by
  unfold layoutWord
  split
  · rename_i hdata
    obtain ⟨p, hp⟩ := Nat.exists_eq_add_of_le' hdata.1
    have hlt : p < s.cfg.dataWords := by omega
    have hmap : 0 < s.cfg.chanMap.length := Nat.pos_of_mul_pos_right (Nat.zero_lt_of_lt hlt)
    obtain ⟨chan, hchan, hbyte⟩ := hv _ (pixel_lt hlt) _ (Nat.mod_lt p hmap)
    rw [execEncStep_of_channelByte hready hbusy hp hlt hchan hbyte, hp, Nat.add_sub_cancel]
  · rename_i hreset
    refine execEncStep_of_reset_position hready hbusy ?_
    by_cases h0 : s.encPos.toNat = 0
    · exact .inl (BitVec.eq_of_toNat_eq h0)
    · exact .inr (by omega)

theorem runInstrs_replicate_succ {i : Instr} {n : Nat} {s t : State} (h : exec i s = .next t) :
    runInstrs (List.replicate (n + 1) i) s = runInstrs (List.replicate n i) t := by
  simp only [List.replicate_succ, runInstrs, h]

/-- One step of an assembly: its word, and the position moves on or the frame is done. -/
theorem PixelsWritten.execEncStep_next {s : State} {v : Nat → Nat → Byte} (hv : PixelsWritten s v)
    (hready : s.encReady = true) (hbusy : s.encBusy = true) (hpos : s.encPos.toNat < s.cfg.fbLen) :
    ∃ fb, (∀ j, memRead fb j = if j = s.encPos.toNat then some (layoutWord s.cfg v j) else memRead s.fb j) ∧
      exec .encStep s = .next (if s.encPos.toNat + 1 = s.cfg.fbLen then
        { s with
          fb := fb, encBusy := false, encPos := 0#32, encStatus := 1#2
          events := s.events ++ [.encDone s.cfg.fbLen], result := .done }
      else { s with fb := fb, encPos := s.encPos + 1#32, result := .done }) := by
  obtain ⟨t, hstep, hsame, hother, ht⟩ := writeWord_at_position (layoutWord s.cfg v s.encPos.toNat) hpos
  refine ⟨t.fb, fun j => ?_, (hv.execEncStep_eq hready hbusy).trans (hstep.trans (congrArg _ ht))⟩
  split
  · rename_i hj
    rw [hj, hsame]
  · exact hother j ‹_›

/-- What is left of an assembly from its position on: the words of the layout, and one event. -/
theorem PixelsWritten.runInstrs_encStep {n : Nat} {s : State} {v : Nat → Nat → Byte} (hv : PixelsWritten s v)
    (hready : s.encReady = true) (hbusy : s.encBusy = true) (hn : s.cfg.fbLen = s.encPos.toNat + (n + 1))
    (hwidth : s.cfg.fbLen < 2 ^ 32) :
    ∃ t, runInstrs (List.replicate (n + 1) .encStep) s = .next t ∧
      (∀ j, memRead t.fb j =
        if s.encPos.toNat ≤ j ∧ j < s.cfg.fbLen then some (layoutWord s.cfg v j) else memRead s.fb j) ∧
      t = { s with
        fb := t.fb, encBusy := false, encPos := 0#32, encStatus := 1#2
        events := s.events ++ [.encDone s.cfg.fbLen], result := .done } := by
  induction n generalizing s with
  | zero =>
    obtain ⟨fb, hfb, hstep⟩ := hv.execEncStep_next hready hbusy (by omega)
    rw [if_pos hn.symm] at hstep
    exact ⟨_, runInstrs_replicate_succ hstep, fun j => (hfb j).trans (if_congr (by omega) rfl rfl), rfl⟩
  | succ n ih =>
    obtain ⟨fb, hfb, hstep⟩ := hv.execEncStep_next hready hbusy (by omega)
    rw [if_neg (by omega)] at hstep
    have hnext : (s.encPos + 1#32).toNat = s.encPos.toNat + 1 := by
      rw [BitVec.toNat_add]
      exact Nat.mod_eq_of_lt (by change s.encPos.toNat + 1 < _; omega)
    obtain ⟨t, hrun, hread, ht⟩ :=
      ih (s := { s with fb := fb, encPos := s.encPos + 1#32, result := .done }) hv hready hbusy
        (by dsimp only; omega) hwidth
    refine ⟨t, (runInstrs_replicate_succ hstep).trans hrun, fun j => (hread j).trans ?_, ht⟩
    dsimp only
    rw [hfb, hnext]
    grind

/-- Word `p` of the data words is the one of its pixel and channel. -/
theorem layoutWord_data {c : Cfg} (v : Nat → Nat → Byte) {px ch : Nat} (hpx : px < c.numPixels.toNat)
    (hch : ch < c.chanMap.length) :
    1 + px * c.chanMap.length + ch < c.fbLen ∧
      layoutWord c v (1 + px * c.chanMap.length + ch) = encodeByte c.polarity (v px ch) := by
  have hdata : px * c.chanMap.length + ch < c.dataWords := by
    calc px * c.chanMap.length + ch < (px + 1) * c.chanMap.length := by rw [Nat.succ_mul]; omega
      _ ≤ c.numPixels.toNat * c.chanMap.length := Nat.mul_le_mul_right _ hpx
      _ = c.dataWords := Nat.mul_comm ..
  have hfb := c.dataWords_lt_fbLen
  refine ⟨by omega, ?_⟩
  rw [layoutWord, if_pos (by omega), show 1 + px * c.chanMap.length + ch - 1 = ch + c.chanMap.length * px by
    rw [Nat.mul_comm px]; omega, Nat.add_mul_div_left _ _ (Nat.zero_lt_of_lt hch), Nat.div_eq_of_lt hch, Nat.zero_add,
    Nat.add_mul_mod_self_left, Nat.mod_eq_of_lt hch]

theorem layoutWord_reset {c : Cfg} (v : Nat → Nat → Byte) {j : Nat} (hj : j = 0 ∨ c.dataWords < j) :
    layoutWord c v j = resetWord c.polarity := if_neg (by omega)

/-- Settles O46: word by word from position 0, then the layout read off. -/
theorem wholeStripFrameIsAssembled : Obligations.WholeStripFrameIsAssembled := by
  unfold Obligations.WholeStripFrameIsAssembled
  intro s v hready hbusy hpos hwidth hpix
  have hv : PixelsWritten s v := fun px hpx c hc => by
    obtain ⟨hchan, hbyte⟩ | ⟨hchan, hbyte⟩ | ⟨hchan, hbyte⟩ | ⟨hchan, hbyte⟩ := hpix px hpx c hc
    · exact ⟨_, hchan, .inl ⟨rfl, hbyte⟩⟩
    · exact ⟨_, hchan, .inr (.inl ⟨rfl, hbyte⟩)⟩
    · exact ⟨_, hchan, .inr (.inr (.inl ⟨rfl, hbyte⟩))⟩
    · exact ⟨_, hchan, .inr (.inr (.inr ⟨rfl, hbyte⟩))⟩
  have h0 : s.encPos.toNat = 0 := congrArg BitVec.toNat hpos
  obtain ⟨n, hn⟩ := Nat.exists_eq_add_of_le' s.cfg.fbLen_pos
  obtain ⟨t, hrun, hread, ht⟩ := hv.runInstrs_encStep (n := n) hready hbusy (by omega) hwidth
  have hwritten : ∀ j < s.cfg.fbLen, memRead t.fb j = some (layoutWord s.cfg v j) := fun j hj => by
    rw [hread, if_pos ⟨h0 ▸ Nat.zero_le j, hj⟩]
  refine ⟨t, hn ▸ hrun, ?_, fun px hpx c hc => ?_, fun j hj => ?_, fun j hj => ?_, ht⟩
  · rw [hwritten 0 s.cfg.fbLen_pos, layoutWord_reset v (.inl rfl)]
  · obtain ⟨hlt, hword⟩ := layoutWord_data v hpx hc
    rw [hwritten _ hlt, hword]
  · have hlt : 1 + s.cfg.dataWords + j < s.cfg.fbLen := Nat.add_lt_add_left hj _
    exact (hwritten _ hlt).trans (congrArg some (layoutWord_reset v (.inr (by omega))))
  · rw [hread, if_neg fun ⟨_, hlt⟩ => Nat.not_lt.mpr hj hlt]

end Sys2Proof.Machine
